-- ==== Sys2Proof/Word.lean ====
section
/-! DEFINITION. The word types of the block (`00_scope.md` R5, R7) and the named value sets of command
operands (`30_encoding.md` R99). No arithmetic of the data path stands here. -/

namespace Sys2Proof

/-- A byte: a device address, a register offset, a pin index, a tag, a block length (R5: `DEVW`, `REGW`, `PINW`, `CBTAGW`). -/
abbrev Byte := BitVec 8

/-- A 16-bit register value or native word (R5 `VALW`, R67). -/
abbrev Half := BitVec 16

/-- The IMM field, a timeout, or the VAL field of a response (R91, R94). -/
abbrev Word := BitVec 32

/-- A command word or a response word (R5 `CWW`, `RWW`). -/
abbrev Quad := BitVec 64

/-- The Mode of a pin (`10_state.md` R24). -/
inductive PinMode where
  | unconfigured
  | input
  | output
  | alternate
deriving DecidableEq, Repr

/-- The Pull of a pin (`10_state.md` R25). -/
inductive Pull where
  | none
  | up
  | down
deriving DecidableEq, Repr

/-- The edge type a command names (`30_encoding.md` R99). The code 0 is reserved and is no value of this type. -/
inductive Edge where
  | rising
  | falling
  | both
deriving DecidableEq, Repr

end Sys2Proof
end

