-- ==== Sys2Proof/Config.lean ====
section
/-! DEFINITION. What the platform fixes (`00_scope.md` R5, `92_eei_decisions.md` section 6) and the free
values of the model. A free value is an opaque constant: nothing in Lean can evaluate it. -/

namespace Sys2Proof

/-- The parameters the spec marks OPEN and says a model takes as arguments (R5). They are fixed for a machine:
State holds one `Platform` and no step writes it (log 7). -/
structure Platform where
  /-- `NATIVE_LE`: the first wire byte of a word is the low byte of the native word (R67). -/
  nativeLE : Bool
  /-- `PIN_VALID(p)` as one bit per pin index (R5, R160). -/
  pinValid : BitVec 256
  /-- `BUS_INDEX`: the I2C controller this I2CSEQ drives, visible in no command (R5, R233). -/
  busIndex : Nat
deriving DecidableEq, Repr

namespace Config

/-- `BUS_INDEX` of the reset machine: the spec gives no default (`92_eei_decisions.md` section 6). -/
opaque busIndex : Nat

/-- The pin levels the environment presents at reset: a free input (R33, R50, R240; log 8). -/
opaque resetLevel : BitVec 256

/-- Whether the unconstrained transport of bus `bus` acknowledges its draw number `draw` (R62; log 5). -/
opaque oracleAck (bus draw : Nat) : Bool

/-- Byte `i` of the data the unconstrained transport of bus `bus` answers at its draw number `draw`
(R62; log 5). -/
opaque oracleByte (bus draw i : Nat) : Byte

/-- The block size limit `MAXLEN` and the size of TXBUF and RXBUF (R5, R40, R41). -/
def bufferSize : Nat := 255

/-- The number of registers of the fixture of R66. -/
def fixtureSize : Nat := 256

/-- `NPINS`, the default pin count (R5). -/
def npins : Nat := 32

/-- The default parameters: `NATIVE_LE = true`, `PIN_VALID(p) = (p < NPINS)` (R5). -/
def defaultPlatform : Platform where
  nativeLE := true
  pinValid := BitVec.ofNat 256 (2 ^ npins - 1)
  busIndex := busIndex

end Config

end Sys2Proof
end

