-- ==== Sys2Proof/Machine/State.lean ====
section
/-! DEFINITION. The state of the abstract machine (`10_state.md`), as plain data, and its value after reset (R50). -/

namespace Sys2Proof.Machine

/-- A pin record (`10_state.md` R24 to R31). -/
structure Pin where
  /-- MODE (R24). -/
  mode : PinMode
  /-- PULL (R25): an output to the pad, read by no command. -/
  pull : Pull
  /-- OUT (R26): the output latch. -/
  out : Bool
  /-- ARMED (R27). -/
  armed : Bool
  /-- EDGE (R28): bit 0 enables low-to-high, bit 1 high-to-low; 0 only while not armed. -/
  edge : BitVec 2
  /-- PENDING (R29): this pin's bit of the event register. -/
  pending : Bool
  /-- CBV (R30). -/
  cbv : Bool
  /-- CBTAG (R30). -/
  cbtag : Byte
  /-- WAITING (R31). -/
  waiting : Bool
  /-- WAIT_LEFT (R31). -/
  waitLeft : Word
deriving DecidableEq, Repr

/-- A pin record at reset (R50): unconfigured, everything 0. -/
def Pin.atReset : Pin where
  mode := .unconfigured
  pull := .none
  out := false
  armed := false
  edge := 0
  pending := false
  cbv := false
  cbtag := 0
  waiting := false
  waitLeft := 0

/-- The status of a command (`30_encoding.md` R95). The codes 8 to 15 are never produced. -/
inductive Status where
  | ok
  | busError
  | checksumError
  | invalidPinError
  | modeError
  | timeoutError
  | cancelled
  | illegalCommand
deriving DecidableEq, Repr

/-- A transport request: the eight primitives of `20_memory.md` R63. -/
inductive Request where
  | writeByte (dev v : Byte)
  | writeByteData (dev reg v : Byte)
  | writeWordData (dev reg : Byte) (w : Half)
  | writeBlock (dev reg : Byte) (bs : List Byte)
  | readByte (dev : Byte)
  | readByteData (dev reg : Byte)
  | readWordData (dev reg : Byte)
  | readBlock (dev reg n : Byte)
deriving DecidableEq, Repr

/-- A scripted answer of the transport (`20_memory.md` R62): NACK, or ACK with its data bytes in wire order. A byte the
request needs and the script does not give is free (log 5). -/
inductive Answer where
  | nack
  | ack (data : List Byte)
deriving DecidableEq, Repr

/-- What answers transport requests. `oracle script` is the unconstrained transport of R62: it gives the scripted
answers in order, then free ones, so a statement about every state covers every oracle. `fixture d m` is the test
fixture `FIX(d, M)` of R66; a register that `m` does not list reads `0x00`. -/
inductive Bus where
  | oracle (script : List Answer)
  | fixture (dev : Byte) (regs : List Host.Cell)
deriving DecidableEq, Repr

/-- The direction of a traced command (`10_state.md` R44). -/
inductive Dir where
  | read
  | write
deriving DecidableEq, Repr

/-- The value of a trace record (R44): an integer, a byte sequence, or none. -/
inductive TraceVal where
  | none
  | int (v : Int)
  | bytes (bs : List Byte)
deriving DecidableEq, Repr

/-- A trace record (R44). -/
structure TraceRec where
  dev : Byte
  reg : Option Byte
  dir : Dir
  status : Status
  val : TraceVal
deriving DecidableEq, Repr

/-- A delivered callback event (R43). -/
structure CbEvent where
  pin : Byte
  tag : Byte
deriving DecidableEq, Repr

/-- One command of the host's list (R21, R90): the command word and the payload the host writes to TXBUF with it. -/
structure Command where
  word : Quad
  payload : List Byte
deriving DecidableEq, Repr

/-- A step of an agent (`00_scope.md` R6). The two units' command steps are inside `issue`. -/
inductive AgentStep where
  /-- Host: write `prog[cp]` to CMD, port 0 (R21, R46, R90). -/
  | issue
  /-- Host: write a byte of TXBUF, port 2 (R40, R46). -/
  | txWrite (i : Nat) (v : Byte)
  /-- Host: read RSP, port 1 (R46). -/
  | rspRead
  /-- Host: read a byte of RXBUF, port 3 (R41, R46). -/
  | rxRead (i : Nat)
  /-- Host: read RXLEN, port 4 (R41, R46). -/
  | rxlenRead
  /-- Host: read EVT, port 5 (R46). -/
  | evtRead
  /-- Host: read TRC, port 6 (R46). -/
  | trcRead
  /-- Environment: `PinChange(p, v)` (`44_gpio_edge.md` R195). -/
  | pinChange (p : Byte) (v : Bool)
  /-- Callback delivery (R196). -/
  | deliver
  /-- Timer: `Tick` (R197). -/
  | tick
  /-- Wait completion: `CompleteOK(p)` (R198). -/
  | completeOk (p : Byte)
  /-- Wait completion: `CompleteTimeout(p)` (R198). -/
  | completeTimeout (p : Byte)
deriving DecidableEq, Repr

/-- A value the host has read from a port (R46; the model's own record, log 12). -/
inductive HostRead where
  | rsp (w : Quad)
  | rx (i : Nat) (b : Byte)
  | rxlen (n : Byte)
  | evt (e : Half)
  | trc (log : List TraceRec)
deriving DecidableEq, Repr

/-- The machine. -/
structure State where
  /-- The parameters of R5; no step writes them (log 7). -/
  platform : Platform
  /-- `prog[0..n-1]`, the host's command list (R21). -/
  prog : List Command
  /-- `cp`, the host's command pointer (R21). -/
  cp : Nat
  /-- The agents' steps scheduled next, first one first: the model's own field (log 1; at reset, log 20). -/
  agenda : List AgentStep
  /-- What the host has read from the ports, oldest first: the model's own field (log 12). -/
  hostLog : List HostRead
  /-- How many words of RSPQ the host has read through port RSP (R46, log 12). -/
  rspSeen : Nat
  /-- How many entries of EVQ the host has read through port EVT (R46, log 12). -/
  evtSeen : Nat
  /-- TXBUF (R40): the bytes that have a value, by index. -/
  txbuf : List Host.Cell
  /-- RXBUF (R41): the bytes that have a value, by index. -/
  rxbuf : List Host.Cell
  /-- RXLEN (R41). -/
  rxlen : Byte
  /-- PIN (R23): the records that differ from the reset record, by pin index. -/
  pins : List (Nat × Pin)
  /-- LEVEL (R33): bit `p` is the level on pin `p`. -/
  level : BitVec 256
  /-- CBQ (R42), head first. -/
  cbq : List Byte
  /-- EVQ (R43), oldest first. -/
  evq : List CbEvent
  /-- TRACE (R44), oldest first. -/
  trace : List TraceRec
  /-- RSPQ (R45), oldest first. -/
  rspq : List Quad
  /-- The transport (`20_memory.md` R62, R66). -/
  bus : Bus
  /-- The transport requests sent so far, oldest first: the model's own record (log 13). -/
  requests : List Request
  /-- The number of transport answers drawn so far, which the free answers are applied to: the model's own field (log 5). -/
  draws : Nat
deriving DecidableEq, Repr

/-- Why the machine stops. Each of these is an input that is no step of the block, so stopping is safe. -/
inductive Fault where
  /-- Raised by `step` when the agenda names an agent's step that is not enabled (R195 to R198; `issue` with `cp = n`, R21;
  log 1). Safe: the machine has no such step. -/
  | notEnabled (a : AgentStep)
  /-- Raised by a host write or read of a buffer index that does not exist, 255 or above (`20_memory.md` R60; log 14). Safe. -/
  | bufferIndex (i : Nat)
deriving DecidableEq, Repr

/-- Why the model gives a case no meaning. -/
inductive Refusal where
  /-- Raised by an arm of `exec` whose instruction has no meaning yet (none is left). Safe. -/
  | notModelled (mnemonic : String)
  /-- Raised by I2C.WBLK and GPIO.INM when LEN reaches a TXBUF byte that holds no value: R40, "is refused by a model". Safe. -/
  | txbufNoValue (i : Nat)
  /-- Raised by a host read of an RXBUF byte that holds no value (R41, `93_implementation_defined.md` U17: refuse). Safe. -/
  | rxbufNoValue (i : Nat)
  /-- Raised by a host read of port RSP with nothing unread (R46: "a model refuses"). Safe. -/
  | rspNoneUnread
  /-- Raised by a host read of port EVT with nothing unread (R46: "a model refuses"). Safe. -/
  | evtNoneUnread
deriving DecidableEq, Repr

/-- The machine at reset with given parameters and given pin levels: R50 fixes everything else that the spec gives the
machine (R240). The values of the other fields are the model's, each a DESIGN CHOICE: `agenda` is empty, as the spec gives
no schedule at reset, so a run from here follows the default order (logs 20, 2); `prog` log 4; `bus` and `draws` log 5;
`hostLog`, `rspSeen` and `evtSeen` log 12; `requests` log 13. -/
def State.powerOn (platform : Platform) (level : BitVec 256) : State where
  platform := platform
  prog := []
  cp := 0
  agenda := []
  hostLog := []
  rspSeen := 0
  evtSeen := 0
  txbuf := []
  rxbuf := []
  rxlen := 0
  pins := []
  level := level
  cbq := []
  evq := []
  trace := []
  rspq := []
  bus := .oracle []
  requests := []
  draws := 0

/-- The machine right after reset: the default parameters of R5, and pin levels that are a free input (R33, R50). -/
def State.reset : State := State.powerOn Config.defaultPlatform Config.resetLevel

end Sys2Proof.Machine
end

