-- ==== Sys2Proof/Machine/Flags.lean ====
section
/-! DEFINITION. The response word with its status and flag bits (`30_encoding.md` R94 to R96), and the edge detector's
condition on the per-pin flags (`44_gpio_edge.md` R195). The block has no other condition flags. -/

namespace Sys2Proof.Machine

/-! ### Status and response words -/

/-- The ST code of a status (R95). -/
def Status.code : Status → BitVec 4
  | .ok => 0
  | .busError => 1
  | .checksumError => 2
  | .invalidPinError => 3
  | .modeError => 4
  | .timeoutError => 5
  | .cancelled => 6
  | .illegalCommand => 7

/-- The response word of R94: `ST V Y 0 PIN RXLEN VAL`. -/
def responseWord (st : Status) (v y : Bool) (pin rxlen : Byte) (val : Word) : Quad :=
  st.code ++ BitVec.ofBool v ++ BitVec.ofBool y ++ 0#10 ++ pin ++ rxlen ++ val

/-- VAL of an integer result: `r mod 2^32` (R96). -/
def resultVal (r : Int) : Word := BitVec.ofInt 32 r

/-- A Boolean result is 0 or 1 (R96). -/
def boolVal (b : Bool) : Int := if b then 1 else 0

/-- OK with no value. -/
def okResponse : Quad := responseWord .ok false false 0 0 0

/-- OK with an integer result. -/
def valueResponse (r : Int) : Quad := responseWord .ok true false 0 0 (resultVal r)

/-- OK with `n` bytes in RXBUF. -/
def bytesResponse (n : Byte) : Quad := responseWord .ok false false 0 n 0

/-- An error: no value of any kind (R9, R94). -/
def errorResponse (e : Status) : Quad := responseWord e false false 0 0 0

/-- The late response of a GPIO.WAIT on pin `p`: Y = 1 (R45, R94). -/
def lateResponse (st : Status) (p : Byte) : Quad := responseWord st false true p 0 0

/-! ### The fields of a response word (R94) -/

def rspSt (w : Quad) : BitVec 4 := w.extractLsb' 60 4
def rspV (w : Quad) : Bool := w.getLsbD 59
def rspY (w : Quad) : Bool := w.getLsbD 58
def rspZero (w : Quad) : BitVec 10 := w.extractLsb' 48 10
def rspPin (w : Quad) : Byte := w.extractLsb' 40 8
def rspRxlen (w : Quad) : Byte := w.extractLsb' 32 8
def rspVal (w : Quad) : Word := w.extractLsb' 0 32

/-! ### Edge detection (R195) -/

/-- Whether a change of level from `old` to `new` is one that EDGE enables: bit 0 rising, bit 1 falling. -/
def edgeMatches (edge : BitVec 2) (old new : Bool) : Bool :=
  (!old && new && edge.getLsbD 0) || (old && !new && edge.getLsbD 1)

end Sys2Proof.Machine
end

