-- ==== Sys2Proof/Machine/Operands.lean ====
section
/-! DEFINITION. Operand and result arithmetic: truncation (`40_i2c_write.md` R124), width mask, byte swap and sign
conversion (`41_i2c_read.md` R142 to R144), the native word (`20_memory.md` R67) and the CRC (`42_i2c_crc.md`). -/

namespace Sys2Proof.Machine

/-! ### Write values (R124) -/

/-- `IMM & 0xFF`. -/
def lowByte (v : Word) : Byte := (v &&& 0xFF).setWidth 8

/-- `IMM & 0xFFFF`. -/
def lowHalf (v : Word) : Half := (v &&& 0xFFFF).setWidth 16

/-! ### Read results -/

/-- The width mask of a byte read, `data & 0xFF` (R144). -/
def maskByte (d : Byte) : Byte := d &&& 0xFF

/-- The width mask of a word read, `data & 0xFFFF` (R144). -/
def maskHalf (d : Half) : Half := d &&& 0xFFFF

/-- `swap16` (R143). -/
def swap16 (w : Half) : Half := ((w &&& 0xFF) <<< 8) ||| (w >>> 8)

/-- The endianness mux (`20_memory.md` R68): LE = 1 passes the native word, LE = 0 swaps its bytes. -/
def endianMux (le : Bool) (w : Half) : Half := if le then w else swap16 w

/-- The sign conversion of a byte (R134, R142). -/
def signedByte (u : Byte) : Int := if u.toNat > 127 then (u.toNat : Int) - 256 else u.toNat

/-- The sign conversion of a word (R138, R142). -/
def signedHalf (u : Half) : Int := if u.toNat > 32767 then (u.toNat : Int) - 65536 else u.toNat

/-! ### The native word on the wire (R67) -/

/-- The native word whose first wire byte is `b0` and second `b1`. -/
def nativeWord (nativeLE : Bool) (b0 b1 : Byte) : Half := if nativeLE then b1 ++ b0 else b0 ++ b1

/-- The two bytes of a native word in wire order. -/
def wireBytes (nativeLE : Bool) (w : Half) : List Byte :=
  if nativeLE then [w.extractLsb' 0 8, w.extractLsb' 8 8] else [w.extractLsb' 8 8, w.extractLsb' 0 8]

/-! ### The CRC validator (R150, R153) -/

/-- `CRCDIV`. -/
def crcDivisor : BitVec 24 := 0x988000

/-- The last `n` iterations of the loop of R150: with `n + 1` to go, the tested bit is bit `8 + n`. -/
def crcLoop : Nat → BitVec 24 → BitVec 24 → BitVec 24
  | 0, rem, _ => rem
  | n + 1, rem, div => crcLoop n (if rem.getLsbD (8 + n) then rem ^^^ div else rem) (div >>> 1)

/-- The final remainder of R150. -/
def crcRemainder (msb lsb crc : Byte) : BitVec 24 := crcLoop 16 (msb ++ lsb ++ crc) crcDivisor

/-- `crc_check` (R150). -/
def crcCheck (msb lsb crc : Byte) : Bool := crcRemainder msb lsb crc == 0

/-- The checksum generator of R153. No command uses it. -/
def crcGenerate (msb lsb : Byte) : Byte := (crcRemainder msb lsb 0).setWidth 8

/-- The reading of I2C.RCRC: big-endian, low two bits cleared by `CRCMASK` (R152). -/
def crcReading (msb lsb : Byte) : Half := (msb ++ lsb) &&& 0xFFFC

end Sys2Proof.Machine
end

