-- ==== Sys2Proof/Machine/Ops.lean ====
section
/-! DEFINITION. The named operations over the state: sparse maps, buffers, pins, the transport, responses, and raising an
error (the block's exception entry, `60_exceptions.md` R226; it has no return command, R228). -/

namespace Sys2Proof.Machine

/-! ### Sparse maps: lists of (key, value) in one canonical form -/

/-- The value listed for key `a`. -/
def sparseFind {α : Type} : List (Nat × α) → Nat → Option α
  | [], _ => none
  | (k, v) :: m, a => if k = a then some v else sparseFind m a

/-- List value `v` for key `a`, keys kept in rising order. -/
def sparseInsert {α : Type} : List (Nat × α) → Nat → α → List (Nat × α)
  | [], a, v => [(a, v)]
  | (k, w) :: m, a, v =>
    if a < k then (a, v) :: (k, w) :: m
    else if a = k then (a, v) :: m
    else (k, w) :: sparseInsert m a v

/-- Unlist key `a`. -/
def sparseErase {α : Type} (m : List (Nat × α)) (a : Nat) : List (Nat × α) := m.filter fun c => c.1 != a

/-- Give key `a` the value `v` in a map whose unlisted keys read as `d`. -/
def sparseSet {α : Type} [DecidableEq α] (d : α) (m : List (Nat × α)) (a : Nat) (v : α) : List (Nat × α) :=
  if v = d then sparseErase m a else sparseInsert m a v

/-- The keys rise strictly and none is below `lo`. -/
def sparseRising {α : Type} : Nat → List (Nat × α) → Bool
  | _, [] => true
  | lo, (k, _) :: m => decide (lo ≤ k) && sparseRising (k + 1) m

/-- The canonical form: keys below `size` in strictly rising order, and no entry equal to what an unlisted key reads as
(`none`: an unlisted key has no value). -/
def sparseWf {α : Type} [DecidableEq α] (unlisted : Option α) (size : Nat) (m : List (Nat × α)) : Bool :=
  sparseRising 0 m && m.all fun c => decide (c.1 < size) && decide (some c.2 ≠ unlisted)

/-- Canonical memory (`Host.Cell` lists): TXBUF and RXBUF with no value unlisted, the fixture's registers with `0x00`. -/
abbrev Memory.wf (unlisted : Option Byte) (size : Nat) (m : List Host.Cell) : Bool := sparseWf unlisted size m

/-- The cells holding `bs` from address `i` on. -/
def cellsFrom : Nat → List Byte → List Host.Cell
  | _, [] => []
  | i, b :: bs => (i, b) :: cellsFrom (i + 1) bs

/-- Write `bs` into a buffer from index `i` on. -/
def bufferWrite : List Host.Cell → Nat → List Byte → List Host.Cell
  | m, _, [] => m
  | m, i, b :: bs => bufferWrite (sparseInsert m i b) (i + 1) bs

/-! ### TXBUF, RXBUF, RXLEN (`10_state.md` R40, R41) -/

/-- The value of `TXBUF[i]`, if it has one. -/
def State.txByte (s : State) (i : Nat) : Option Byte := sparseFind s.txbuf i

/-- The first index below `n` at which TXBUF holds no value. -/
def State.txMissing (s : State) (n : Nat) : Option Nat := (List.range n).find? fun i => (s.txByte i).isNone

/-- `TXBUF[0..n-1]`. -/
def State.txBytes (s : State) (n : Nat) : List Byte := (List.range n).filterMap s.txByte

/-- Run a command on its payload `TXBUF[0..n-1]`, sampled at acceptance (`20_memory.md` R80); refused if a byte of it
holds no value (R40). -/
def State.onPayload (s : State) (n : Nat) (k : List Byte → State) : Host.Outcome State Fault Refusal :=
  match s.txMissing n with
  | some i => .refused (.txbufNoValue i)
  | none => .next (k (s.txBytes n))

/-- The host writes `bs` to `TXBUF[i..]`. -/
def State.writeTx (s : State) (i : Nat) (bs : List Byte) : State := { s with txbuf := bufferWrite s.txbuf i bs }

/-- The value of `RXBUF[i]`, if it has one. -/
def State.rxByte (s : State) (i : Nat) : Option Byte := sparseFind s.rxbuf i

/-- A block result: `RXBUF[0..n-1] <- bs`, `RXLEN <- n`; the bytes from `n` on hold no value (R41). -/
def State.setRx (s : State) (bs : List Byte) : State :=
  { s with rxbuf := cellsFrom 0 bs, rxlen := BitVec.ofNat 8 bs.length }

/-- A failed block command: `RXLEN <- 0`, no byte readable (R41). -/
def State.clearRx (s : State) : State := s.setRx []

/-! ### Pins and levels (R23, R33) -/

/-- `PIN[p]`. -/
def State.pin (s : State) (p : Byte) : Pin := (sparseFind s.pins p.toNat).getD Pin.atReset

/-- `PIN[p] <- r`. -/
def State.setPin (s : State) (p : Byte) (r : Pin) : State :=
  { s with pins := sparseSet Pin.atReset s.pins p.toNat r }

/-- `LEVEL[p]`. -/
def State.levelOf (s : State) (p : Byte) : Bool := s.level.getLsbD p.toNat

/-- `LEVEL[p] <- v`. -/
def State.setLevel (s : State) (p : Byte) (v : Bool) : State :=
  { s with level := if v then s.level ||| BitVec.twoPow 256 p.toNat else s.level &&& ~~~(BitVec.twoPow 256 p.toNat) }

/-- `PIN_VALID(p)` (`00_scope.md` R5). -/
def State.pinValid (s : State) (p : Byte) : Bool := s.platform.pinValid.getLsbD p.toNat

/-! ### The transport (`20_memory.md` R62 to R67) -/

/-- The device a request addresses, passed on unchanged (R66). -/
def Request.dev : Request → Byte
  | .writeByte dev _ => dev
  | .writeByteData dev _ _ => dev
  | .writeWordData dev _ _ => dev
  | .writeBlock dev _ _ => dev
  | .readByte dev => dev
  | .readByteData dev _ => dev
  | .readWordData dev _ => dev
  | .readBlock dev _ _ => dev

/-- The fixture register a request starts at; the raw forms use register 0 (R66). -/
def Request.start : Request → Byte
  | .writeByte _ _ => 0
  | .writeByteData _ reg _ => reg
  | .writeWordData _ reg _ => reg
  | .writeBlock _ reg _ => reg
  | .readByte _ => 0
  | .readByteData _ reg => reg
  | .readWordData _ reg => reg
  | .readBlock _ reg _ => reg

/-- The bytes a write request carries, in wire order (R63, R67); a read request carries none. -/
def Request.written (nativeLE : Bool) : Request → List Byte
  | .writeByte _ v => [v]
  | .writeByteData _ _ v => [v]
  | .writeWordData _ _ w => wireBytes nativeLE w
  | .writeBlock _ _ bs => bs
  | .readByte _ => []
  | .readByteData _ _ => []
  | .readWordData _ _ => []
  | .readBlock _ _ _ => []

/-- A register of the fixture; an unlisted one is `0x00`. -/
def regRead (m : List Host.Cell) (a : Nat) : Byte := (sparseFind m (a % Config.fixtureSize)).getD 0

/-- The fixture stores `bs` at registers `a`, `(a + 1) mod 256`, ... (R66). -/
def regWrite : List Host.Cell → Nat → List Byte → List Host.Cell
  | m, _, [] => m
  | m, a, b :: bs => regWrite (sparseSet 0 m (a % Config.fixtureSize) b) (a + 1) bs

/-- The transport after it has answered a request: the oracle's script moves on; the fixture's addressed device stores
what a write carries (R66). -/
def Bus.after (nativeLE : Bool) (r : Request) : Bus → Bus
  | .oracle script => .oracle script.tail
  | .fixture d m => if r.dev = d then .fixture d (regWrite m r.start.toNat (r.written nativeLE)) else .fixture d m

/-- Whether the transport answers the request `r`, if sent now, with ACK (R62, R66). -/
def State.acks (s : State) (r : Request) : Bool :=
  match s.bus with
  | .oracle [] => Config.oracleAck s.platform.busIndex s.draws
  | .oracle (.nack :: _) => false
  | .oracle (.ack _ :: _) => true
  | .fixture d _ => r.dev = d

/-- Byte `i`, in wire order, of the data with which the transport answers the read request `r` (R62, R66). -/
def State.answerByte (s : State) (r : Request) (i : Nat) : Byte :=
  match s.bus with
  | .oracle [] => Config.oracleByte s.platform.busIndex s.draws i
  | .oracle (.nack :: _) => Config.oracleByte s.platform.busIndex s.draws i
  | .oracle (.ack data :: _) => data[i]?.getD (Config.oracleByte s.platform.busIndex s.draws i)
  | .fixture _ m => regRead m (r.start.toNat + i)

/-- The native word of a word read's answer (R63, R67). -/
def State.answerWord (s : State) (r : Request) : Half :=
  nativeWord s.platform.nativeLE (s.answerByte r 0) (s.answerByte r 1)

/-- The `n` bytes of a block read's answer, in wire order (R63, R69). -/
def State.answerBlock (s : State) (r : Request) (n : Nat) : List Byte := (List.range n).map (s.answerByte r)

/-- The request `r` has been sent and answered. -/
def State.sent (s : State) (r : Request) : State :=
  { s with requests := s.requests ++ [r], bus := s.bus.after s.platform.nativeLE r, draws := s.draws + 1 }

/-! ### Responses, errors, trace -/

/-- Append a response word to RSPQ (R45, R94). -/
def State.respond (s : State) (w : Quad) : State := { s with rspq := s.rspq ++ [w] }

/-- Taking an error: the command ends with its status as the response, nothing is saved, nothing else changes (R9,
R218, R226). -/
def State.raise (s : State) (e : Status) : State := s.respond (errorResponse e)

/-- Append a record to TRACE (R44). -/
def State.traced (s : State) (t : TraceRec) : State := { s with trace := s.trace ++ [t] }

/-! ### The shape of an I2C command (`20_memory.md` R70) -/

/-- The transport answered NACK: BusError, no value (R65, R145, R211). -/
def State.nacked (s : State) (r : Request) (dev : Byte) (reg : Option Byte) (dir : Dir) : State :=
  ((s.sent r).traced ⟨dev, reg, dir, .busError, .none⟩).raise .busError

/-- A write command: one request; `val` is what the trace shows (R120 to R123). -/
def State.i2cWrite (s : State) (r : Request) (dev : Byte) (reg : Option Byte) (val : TraceVal) : State :=
  if s.acks r then ((s.sent r).traced ⟨dev, reg, .write, .ok, val⟩).respond okResponse
  else s.nacked r dev reg .write

/-- A read command with an integer result: one request (R130 to R138). -/
def State.i2cRead (s : State) (r : Request) (dev : Byte) (reg : Option Byte) (result : Int) : State :=
  if s.acks r then ((s.sent r).traced ⟨dev, reg, .read, .ok, .int result⟩).respond (valueResponse result)
  else s.nacked r dev reg .read

/-! ### Trackers -/

/-- Cancel the outstanding wait of pin `p`, if there is one (`44_gpio_edge.md` R199). -/
def State.cancelWait (s : State) (p : Byte) : State :=
  if (s.pin p).waiting then
    (s.setPin p { s.pin p with waiting := false, waitLeft := 0 }).respond (lateResponse .cancelled p)
  else s

/-- Remove every entry equal to `p` from CBQ (R42). -/
def State.dropCallbacks (s : State) (p : Byte) : State := { s with cbq := s.cbq.filter fun q => q != p }

end Sys2Proof.Machine
end

