-- ==== Sys2Proof/Machine/Agents.lean ====
section
/-! DEFINITION. The steps of the agents other than the host's command: the edge detector, callback delivery, the Timer and
wait completion (`44_gpio_edge.md` section 2). A step that is not enabled is a named fault (log 1). -/

namespace Sys2Proof.Machine

/-- The outcome of an agent's step `a` that is enabled iff `enabled`. -/
def whenEnabled (a : AgentStep) (enabled : Bool) (s' : State) : Host.Outcome State Fault Refusal :=
  if enabled then .next s' else .fault (.notEnabled a)

/-- A detected edge on pin `p`: PENDING is set, and a callback is queued if one is attached (R195). -/
def State.detect (s : State) (p : Byte) : State :=
  let r := s.pin p
  let s' := s.setPin p { r with pending := true }
  if r.cbv then { s' with cbq := s'.cbq ++ [p] } else s'

/-- Environment: `PinChange(p, v)`, a step iff `v` is not the level already present (R195). -/
def pinChange (p : Byte) (v : Bool) (s : State) : Host.Outcome State Fault Refusal :=
  let r := s.pin p
  let s' := s.setLevel p v
  whenEnabled (.pinChange p v) (v != s.levelOf p)
    (if r.armed && edgeMatches r.edge (s.levelOf p) v then s'.detect p else s')

/-- Callback delivery, enabled iff CBQ is not empty: the event carries the tag read now, and PENDING is cleared
(R196, R227). -/
def deliver (s : State) : Host.Outcome State Fault Refusal :=
  match s.cbq with
  | [] => .fault (.notEnabled .deliver)
  | p :: rest =>
    .next (({ s with cbq := rest, evq := s.evq ++ [⟨p, (s.pin p).cbtag⟩] } : State).setPin p
      { s.pin p with pending := false })

/-- The wait counter of a pin is running (R197). -/
def Pin.running (r : Pin) : Bool := r.waiting && r.waitLeft != 0

/-- A pin after a tick (R197). -/
def Pin.ticked (r : Pin) : Pin := if r.running then { r with waitLeft := r.waitLeft - 1 } else r

/-- Timer: `Tick`, enabled iff some wait counter is running; all running counters step together (R197). -/
def tick (s : State) : Host.Outcome State Fault Refusal :=
  whenEnabled .tick (s.pins.any fun c => c.2.running)
    { s with pins := s.pins.map fun c => (c.1, c.2.ticked) }

/-- `CompleteOK(p)` is enabled (R198). -/
def Pin.okReady (r : Pin) : Bool := r.waiting && r.pending

/-- `CompleteTimeout(p)` is enabled (R198). -/
def Pin.timeoutReady (r : Pin) : Bool := r.waiting && r.waitLeft == 0

/-- `CompleteOK(p)` (R198): PENDING is left as it is. -/
def completeOk (p : Byte) (s : State) : Host.Outcome State Fault Refusal :=
  whenEnabled (.completeOk p) (s.pin p).okReady
    ((s.setPin p { s.pin p with waiting := false, waitLeft := 0 }).respond (lateResponse .ok p))

/-- `CompleteTimeout(p)` (R198, R215). -/
def completeTimeout (p : Byte) (s : State) : Host.Outcome State Fault Refusal :=
  whenEnabled (.completeTimeout p) (s.pin p).timeoutReady
    ((s.setPin p { s.pin p with waiting := false }).respond (lateResponse .timeoutError p))

end Sys2Proof.Machine
end

