-- ==== Sys2Proof/Machine/GpioConfig.lean ====
section
/-! DEFINITION. The GPIO configuration and level commands (`43_gpio_config_io.md`). -/

namespace Sys2Proof.Machine

/-- The record GPIO.SETUP writes: a fresh tracker; INIT is loaded only when the mode is output (R160). -/
def freshPin (mode : PinMode) (pull : Pull) (init : Bool) : Pin :=
  { Pin.atReset with mode := mode, pull := pull, out := decide (mode = .output) && init }

/-- GPIO.SETUP (R160). -/
def execGpioSetup (pin : Byte) (mode : PinMode) (pull : Pull) (init : Bool) (s : State) :
    Host.Outcome State Fault Refusal :=
  .next (if s.pinValid pin then
      (((s.cancelWait pin).dropCallbacks pin).setPin pin (freshPin mode pull init)).respond okResponse
    else s.raise .invalidPinError)

/-- GPIO.OUT (R162). -/
def execGpioOut (pin : Byte) (value : Bool) (s : State) : Host.Outcome State Fault Refusal :=
  .next (if (s.pin pin).mode = .output then
      (s.setPin pin { s.pin pin with out := value }).respond okResponse
    else s.raise .modeError)

/-- GPIO.IN (R164). -/
def execGpioIn (pin : Byte) (s : State) : Host.Outcome State Fault Refusal :=
  .next (if (s.pin pin).mode = .input then s.respond (valueResponse (boolVal (s.levelOf pin)))
    else s.raise .modeError)

/-- The byte GPIO.INM reports for a pin: `0x00` or `0x01` (R166). -/
def State.levelByte (s : State) (p : Byte) : Byte := if s.levelOf p then 1 else 0

/-- GPIO.INM (R166): all levels in one step; ModeError, with RXLEN 0, if some listed pin is no input. -/
def execGpioInm (len : Byte) (s : State) : Host.Outcome State Fault Refusal :=
  s.onPayload len.toNat fun pins =>
    if pins.all fun p => (s.pin p).mode = .input then
      (s.setRx (pins.map s.levelByte)).respond (bytesResponse len)
    else s.clearRx.raise .modeError

end Sys2Proof.Machine
end

