-- ==== Sys2Proof/Syntax.lean ====
section
/-! DEFINITION. The twenty commands of RBA command set 1.0 (`30_encoding.md` R97), one constructor per row
of `spec/opcode_table.json`, with the operands of R98. -/

namespace Sys2Proof

/-- A command. `dev`, `reg`, `pin`, `tag` are the 8-bit operands of R92; `value` is the whole 32-bit IMM; `len` is
LEN; `le` is the LE flag; `cb` is the source's optional callback (CBV and its tag). -/
inductive Instr where
  | i2cWraw (dev : Byte) (value : Word)
  | i2cWb (dev reg : Byte) (value : Word)
  | i2cWw (dev reg : Byte) (value : Word)
  | i2cWblk (dev reg len : Byte)
  | i2cRraw (dev : Byte)
  | i2cRub (dev reg : Byte)
  | i2cRsb (dev reg : Byte)
  | i2cRuw (le : Bool) (dev reg : Byte)
  | i2cRsw (le : Bool) (dev reg : Byte)
  | i2cRblk (dev reg len : Byte)
  | i2cRcrc (dev reg : Byte)
  | gpioSetup (pin : Byte) (mode : PinMode) (pull : Pull) (init : Bool)
  | gpioOut (pin : Byte) (value : Bool)
  | gpioIn (pin : Byte)
  | gpioInm (len : Byte)
  | gpioArm (pin : Byte) (edge : Edge) (cb : Option Byte)
  | gpioDisarm (pin : Byte)
  | gpioSetcb (pin tag : Byte)
  | gpioPoll (pin : Byte)
  | gpioWait (pin : Byte) (edge : Edge) (timeout : Word)
deriving DecidableEq, Repr

end Sys2Proof
end

