-- ==== Sys2Proof/Decode.lean ====
section
/-! DEFINITION. The decoder of `30_encoding.md` R106, total on all 64-bit words, and the encoder, both from the field
tables of R91, R98, R99. A command is one 64-bit number; how a carrier orders its bytes is left to it (R91). -/

namespace Sys2Proof

/-! ### The fields of a command word (R91) -/

/-- OP, bits 63:56. -/
def opOf (w : Quad) : Byte := w.extractLsb' 56 8

/-- FLG, bits 55:48. -/
def flgOf (w : Quad) : Byte := w.extractLsb' 48 8

/-- A, bits 47:40. -/
def aOf (w : Quad) : Byte := w.extractLsb' 40 8

/-- B, bits 39:32. -/
def bOf (w : Quad) : Byte := w.extractLsb' 32 8

/-- IMM, bits 31:0. -/
def immOf (w : Quad) : Word := w.extractLsb' 0 32

/-- LEN, IMM[7:0] (R92). -/
def lenOf (w : Quad) : Byte := w.extractLsb' 0 8

/-- The word with the given fields (R91). -/
def ofFields (op flg a b : Byte) (imm : Word) : Quad := op ++ flg ++ a ++ b ++ imm

/-! ### The codes inside FLG (R99) -/

def PinMode.code : PinMode → BitVec 2
  | .unconfigured => 0
  | .input => 1
  | .output => 2
  | .alternate => 3

def PinMode.ofCode (c : BitVec 2) : PinMode :=
  if c = 0 then .unconfigured else if c = 1 then .input else if c = 2 then .output else .alternate

def Pull.code : Pull → BitVec 2
  | .none => 0
  | .up => 1
  | .down => 2

/-- PULL = 3 is reserved (R99, R100 item 4). -/
def Pull.ofCode (c : BitVec 2) : Option Pull :=
  if c = 0 then some .none else if c = 1 then some .up else if c = 2 then some .down else Option.none

def Edge.code : Edge → BitVec 2
  | .rising => 1
  | .falling => 2
  | .both => 3

/-- EDGE = 0 is reserved (R99, R100 item 5). -/
def Edge.ofCode (c : BitVec 2) : Option Edge :=
  if c = 1 then some .rising else if c = 2 then some .falling else if c = 3 then some .both else none

/-- The callback of GPIO.ARM: B is its tag if CBV = 1; without CBV a non-zero B is illegal (R100 item 6). -/
def callbackOf (cbv : Bool) (b : Byte) : Option (Option Byte) :=
  if cbv then some (some b) else if b = 0 then some none else none

/-! ### The rows of the opcode table (R98) -/

/-- A row's `match` and `mask`: a word is of the row's form iff `w & mask = match` (R93). -/
structure Row where
  pattern : Quad
  mask : Quad
deriving DecidableEq, Repr

def Row.fits (r : Row) (w : Quad) : Bool := w &&& r.mask = r.pattern

def rowI2cWraw : Row := ⟨0x1000000000000000, 0xFFFF00FF00000000⟩
def rowI2cWb : Row := ⟨0x1100000000000000, 0xFFFF000000000000⟩
def rowI2cWw : Row := ⟨0x1200000000000000, 0xFFFF000000000000⟩
def rowI2cWblk : Row := ⟨0x1300000000000000, 0xFFFF0000FFFFFF00⟩
def rowI2cRraw : Row := ⟨0x1400000000000000, 0xFFFF00FFFFFFFFFF⟩
def rowI2cRub : Row := ⟨0x1500000000000000, 0xFFFF0000FFFFFFFF⟩
def rowI2cRsb : Row := ⟨0x1600000000000000, 0xFFFF0000FFFFFFFF⟩
def rowI2cRuw : Row := ⟨0x1700000000000000, 0xFFFE0000FFFFFFFF⟩
def rowI2cRsw : Row := ⟨0x1800000000000000, 0xFFFE0000FFFFFFFF⟩
def rowI2cRblk : Row := ⟨0x1900000000000000, 0xFFFF0000FFFFFF00⟩
def rowI2cRcrc : Row := ⟨0x1A00000000000000, 0xFFFF0000FFFFFFFF⟩
def rowGpioSetup : Row := ⟨0x2000000000000000, 0xFFE000FFFFFFFFFF⟩
def rowGpioOut : Row := ⟨0x2100000000000000, 0xFFFF00FFFFFFFFFE⟩
def rowGpioIn : Row := ⟨0x2200000000000000, 0xFFFF00FFFFFFFFFF⟩
def rowGpioInm : Row := ⟨0x2300000000000000, 0xFFFFFFFFFFFFFF00⟩
def rowGpioArm : Row := ⟨0x2400000000000000, 0xFFF80000FFFFFFFF⟩
def rowGpioDisarm : Row := ⟨0x2500000000000000, 0xFFFF00FFFFFFFFFF⟩
def rowGpioSetcb : Row := ⟨0x2600000000000000, 0xFFFF0000FFFFFFFF⟩
def rowGpioPoll : Row := ⟨0x2700000000000000, 0xFFFF00FFFFFFFFFF⟩
def rowGpioWait : Row := ⟨0x2800000000000000, 0xFFFC00FF00000000⟩

/-- The eleven I2C rows, in the table's order. -/
def rowsI2c : List Row :=
  [rowI2cWraw, rowI2cWb, rowI2cWw, rowI2cWblk, rowI2cRraw, rowI2cRub, rowI2cRsb, rowI2cRuw, rowI2cRsw,
   rowI2cRblk, rowI2cRcrc]

/-- The nine GPIO rows, in the table's order. -/
def rowsGpio : List Row :=
  [rowGpioSetup, rowGpioOut, rowGpioIn, rowGpioInm, rowGpioArm, rowGpioDisarm, rowGpioSetcb, rowGpioPoll,
   rowGpioWait]

/-- The opcode table. -/
def rows : List Row := rowsI2c ++ rowsGpio

/-- The row of an instruction. -/
def Instr.row : Instr → Row
  | .i2cWraw _ _ => rowI2cWraw
  | .i2cWb _ _ _ => rowI2cWb
  | .i2cWw _ _ _ => rowI2cWw
  | .i2cWblk _ _ _ => rowI2cWblk
  | .i2cRraw _ => rowI2cRraw
  | .i2cRub _ _ => rowI2cRub
  | .i2cRsb _ _ => rowI2cRsb
  | .i2cRuw _ _ _ => rowI2cRuw
  | .i2cRsw _ _ _ => rowI2cRsw
  | .i2cRblk _ _ _ => rowI2cRblk
  | .i2cRcrc _ _ => rowI2cRcrc
  | .gpioSetup _ _ _ _ => rowGpioSetup
  | .gpioOut _ _ => rowGpioOut
  | .gpioIn _ => rowGpioIn
  | .gpioInm _ => rowGpioInm
  | .gpioArm _ _ _ => rowGpioArm
  | .gpioDisarm _ => rowGpioDisarm
  | .gpioSetcb _ _ => rowGpioSetcb
  | .gpioPoll _ => rowGpioPoll
  | .gpioWait _ _ _ => rowGpioWait

/-! ### The decoder (R106) -/

/-- GPIO.SETUP's operands; PULL = 3 is illegal (R100 item 4). -/
def decodeSetup (w : Quad) : Option Instr :=
  (Pull.ofCode ((flgOf w).extractLsb' 2 2)).map fun pull =>
    .gpioSetup (aOf w) (PinMode.ofCode ((flgOf w).extractLsb' 0 2)) pull ((flgOf w).getLsbD 4)

/-- GPIO.ARM's operands; EDGE = 0 and a tag without CBV are illegal (R100 items 5, 6). -/
def decodeArm (w : Quad) : Option Instr :=
  (Edge.ofCode ((flgOf w).extractLsb' 0 2)).bind fun edge =>
    (callbackOf ((flgOf w).getLsbD 2) (bOf w)).map fun cb => .gpioArm (aOf w) edge cb

/-- GPIO.WAIT's operands; EDGE = 0 is illegal (R100 item 5). -/
def decodeWait (w : Quad) : Option Instr :=
  (Edge.ofCode ((flgOf w).extractLsb' 0 2)).map fun edge => .gpioWait (aOf w) edge (immOf w)

/-- LEN = 0 is illegal (R100 item 3). -/
def decodeLen (w : Quad) (mk : Byte → Instr) : Option Instr :=
  if lenOf w = 0 then none else some (mk (lenOf w))

/-- The command a word spells, or none if the word is illegal (R100, R106). -/
def decodeWord (w : Quad) : Option Instr :=
  if rowI2cWraw.fits w then some (.i2cWraw (aOf w) (immOf w))
  else if rowI2cWb.fits w then some (.i2cWb (aOf w) (bOf w) (immOf w))
  else if rowI2cWw.fits w then some (.i2cWw (aOf w) (bOf w) (immOf w))
  else if rowI2cWblk.fits w then decodeLen w (.i2cWblk (aOf w) (bOf w))
  else if rowI2cRraw.fits w then some (.i2cRraw (aOf w))
  else if rowI2cRub.fits w then some (.i2cRub (aOf w) (bOf w))
  else if rowI2cRsb.fits w then some (.i2cRsb (aOf w) (bOf w))
  else if rowI2cRuw.fits w then some (.i2cRuw ((flgOf w).getLsbD 0) (aOf w) (bOf w))
  else if rowI2cRsw.fits w then some (.i2cRsw ((flgOf w).getLsbD 0) (aOf w) (bOf w))
  else if rowI2cRblk.fits w then decodeLen w (.i2cRblk (aOf w) (bOf w))
  else if rowI2cRcrc.fits w then some (.i2cRcrc (aOf w) (bOf w))
  else if rowGpioSetup.fits w then decodeSetup w
  else if rowGpioOut.fits w then some (.gpioOut (aOf w) (w.getLsbD 0))
  else if rowGpioIn.fits w then some (.gpioIn (aOf w))
  else if rowGpioInm.fits w then decodeLen w .gpioInm
  else if rowGpioArm.fits w then decodeArm w
  else if rowGpioDisarm.fits w then some (.gpioDisarm (aOf w))
  else if rowGpioSetcb.fits w then some (.gpioSetcb (aOf w) (bOf w))
  else if rowGpioPoll.fits w then some (.gpioPoll (aOf w))
  else if rowGpioWait.fits w then decodeWait w
  else none

/-- The instruction the decoder reads from a table word of `nbits` bits; a bit above `nbits` is 0. -/
def decodeTableWord (nbits w : Nat) : Option Instr := decodeWord (BitVec.ofNat 64 (w % 2 ^ nbits))

/-! ### The encoder (R91, R92, R98, R99) -/

def flagsLe (le : Bool) : Byte := 0#7 ++ BitVec.ofBool le

def flagsSetup (mode : PinMode) (pull : Pull) (init : Bool) : Byte :=
  0#3 ++ BitVec.ofBool init ++ pull.code ++ mode.code

def flagsArm (edge : Edge) (cb : Option Byte) : Byte := 0#5 ++ BitVec.ofBool cb.isSome ++ edge.code

def flagsWait (edge : Edge) : Byte := 0#6 ++ edge.code

def immLen (len : Byte) : Word := 0#24 ++ len

def immBit (value : Bool) : Word := 0#31 ++ BitVec.ofBool value

/-- The command word of an instruction. -/
def encode : Instr → Quad
  | .i2cWraw dev value => ofFields 0x10 0 dev 0 value
  | .i2cWb dev reg value => ofFields 0x11 0 dev reg value
  | .i2cWw dev reg value => ofFields 0x12 0 dev reg value
  | .i2cWblk dev reg len => ofFields 0x13 0 dev reg (immLen len)
  | .i2cRraw dev => ofFields 0x14 0 dev 0 0
  | .i2cRub dev reg => ofFields 0x15 0 dev reg 0
  | .i2cRsb dev reg => ofFields 0x16 0 dev reg 0
  | .i2cRuw le dev reg => ofFields 0x17 (flagsLe le) dev reg 0
  | .i2cRsw le dev reg => ofFields 0x18 (flagsLe le) dev reg 0
  | .i2cRblk dev reg len => ofFields 0x19 0 dev reg (immLen len)
  | .i2cRcrc dev reg => ofFields 0x1A 0 dev reg 0
  | .gpioSetup pin mode pull init => ofFields 0x20 (flagsSetup mode pull init) pin 0 0
  | .gpioOut pin value => ofFields 0x21 0 pin 0 (immBit value)
  | .gpioIn pin => ofFields 0x22 0 pin 0 0
  | .gpioInm len => ofFields 0x23 0 0 0 (immLen len)
  | .gpioArm pin edge cb => ofFields 0x24 (flagsArm edge cb) pin (cb.getD 0) 0
  | .gpioDisarm pin => ofFields 0x25 0 pin 0 0
  | .gpioSetcb pin tag => ofFields 0x26 0 pin tag 0
  | .gpioPoll pin => ofFields 0x27 0 pin 0 0
  | .gpioWait pin edge timeout => ofFields 0x28 (flagsWait edge) pin 0 timeout

end Sys2Proof
end

