-- ==== Sys2Proof/Machine/GpioEdge.lean ====
section
/-! DEFINITION. The GPIO edge commands (`44_gpio_edge.md` section 1). -/

namespace Sys2Proof.Machine

/-- GPIO.ARM (R180): ModeError unless the pin is an input that is not armed. -/
def execGpioArm (pin : Byte) (edge : Edge) (cb : Option Byte) (s : State) : Host.Outcome State Fault Refusal :=
  let p := s.pin pin
  .next (if p.mode = .input ∧ p.armed = false then
      (s.setPin pin { p with armed := true, edge := edge.code, cbv := cb.isSome, cbtag := cb.getD 0,
                             pending := false }).respond okResponse
    else s.raise .modeError)

/-- GPIO.DISARM (R184): total; the Cancelled response of an outstanding wait comes before its own. -/
def execGpioDisarm (pin : Byte) (s : State) : Host.Outcome State Fault Refusal :=
  let s' := (s.cancelWait pin).dropCallbacks pin
  .next ((s'.setPin pin { s'.pin pin with armed := false, edge := 0, pending := false, cbv := false,
                                          cbtag := 0 }).respond okResponse)

/-- GPIO.SETCB (R186): ModeError unless the pin is armed. -/
def execGpioSetcb (pin tag : Byte) (s : State) : Host.Outcome State Fault Refusal :=
  .next (if (s.pin pin).armed then
      (s.setPin pin { s.pin pin with cbv := true, cbtag := tag }).respond okResponse
    else s.raise .modeError)

/-- GPIO.POLL (R188): total; read and clear in one step. -/
def execGpioPoll (pin : Byte) (s : State) : Host.Outcome State Fault Refusal :=
  .next ((s.setPin pin { s.pin pin with pending := false }).respond (valueResponse (boolVal (s.pin pin).pending)))

/-- GPIO.WAIT, its issue step (R190): no response now; ModeError in the four cases of R190. -/
def execGpioWait (pin : Byte) (edge : Edge) (timeout : Word) (s : State) : Host.Outcome State Fault Refusal :=
  let p := s.pin pin
  .next (if p.mode = .input ∧ p.armed = true ∧ p.edge = edge.code ∧ p.waiting = false then
      s.setPin pin { p with waiting := true, waitLeft := timeout }
    else s.raise .modeError)

end Sys2Proof.Machine
end

