-- ==== Sys2Proof/Machine/I2cCrc.lean ====
section
/-! DEFINITION. The CRC-checked read (`42_i2c_crc.md`). -/

namespace Sys2Proof.Machine

/-- I2C.RCRC (R152): BusError before ChecksumError (R225); RXBUF and RXLEN are not touched. -/
def execI2cRcrc (dev reg : Byte) (s : State) : Host.Outcome State Fault Refusal :=
  let r := Request.readBlock dev reg 3
  let msb := s.answerByte r 0
  let lsb := s.answerByte r 1
  let reading : Int := (crcReading msb lsb).toNat
  .next (if s.acks r then
      if crcCheck msb lsb (s.answerByte r 2) then
        ((s.sent r).traced ⟨dev, some reg, .read, .ok, .int reading⟩).respond (valueResponse reading)
      else ((s.sent r).traced ⟨dev, some reg, .read, .checksumError, .none⟩).raise .checksumError
    else s.nacked r dev (some reg) .read)

end Sys2Proof.Machine
end

