-- ==== Sys2Proof/Machine/I2cRead.lean ====
section
/-! DEFINITION. The plain I2C read commands (`41_i2c_read.md`): answer, width mask, endianness mux, sign converter. -/

namespace Sys2Proof.Machine

/-- I2C.RRAW (R130). -/
def execI2cRraw (dev : Byte) (s : State) : Host.Outcome State Fault Refusal :=
  let r := Request.readByte dev
  .next (s.i2cRead r dev none (s.answerByte r 0).toNat)

/-- I2C.RUB (R132). -/
def execI2cRub (dev reg : Byte) (s : State) : Host.Outcome State Fault Refusal :=
  let r := Request.readByteData dev reg
  .next (s.i2cRead r dev (some reg) (maskByte (s.answerByte r 0)).toNat)

/-- I2C.RSB (R134). -/
def execI2cRsb (dev reg : Byte) (s : State) : Host.Outcome State Fault Refusal :=
  let r := Request.readByteData dev reg
  .next (s.i2cRead r dev (some reg) (signedByte (maskByte (s.answerByte r 0))))

/-- I2C.RUW (R136). -/
def execI2cRuw (le : Bool) (dev reg : Byte) (s : State) : Host.Outcome State Fault Refusal :=
  let r := Request.readWordData dev reg
  .next (s.i2cRead r dev (some reg) (endianMux le (maskHalf (s.answerWord r))).toNat)

/-- I2C.RSW (R138): the mux first, then the sign. -/
def execI2cRsw (le : Bool) (dev reg : Byte) (s : State) : Host.Outcome State Fault Refusal :=
  let r := Request.readWordData dev reg
  .next (s.i2cRead r dev (some reg) (signedHalf (endianMux le (maskHalf (s.answerWord r)))))

/-- I2C.RBLK (R140): NACK also sets RXLEN to 0. -/
def execI2cRblk (dev reg len : Byte) (s : State) : Host.Outcome State Fault Refusal :=
  let r := Request.readBlock dev reg len
  let bs := s.answerBlock r len.toNat
  .next (if s.acks r then
      (((s.sent r).setRx bs).traced ⟨dev, some reg, .read, .ok, .bytes bs⟩).respond (bytesResponse len)
    else s.clearRx.nacked r dev (some reg) .read)

end Sys2Proof.Machine
end

