-- ==== Sys2Proof/Machine/I2cWrite.lean ====
section
/-! DEFINITION. The I2C write commands (`40_i2c_write.md`). -/

namespace Sys2Proof.Machine

/-- I2C.WRAW (R120). -/
def execI2cWraw (dev : Byte) (value : Word) (s : State) : Host.Outcome State Fault Refusal :=
  let v := lowByte value
  .next (s.i2cWrite (.writeByte dev v) dev none (.int v.toNat))

/-- I2C.WB (R121). -/
def execI2cWb (dev reg : Byte) (value : Word) (s : State) : Host.Outcome State Fault Refusal :=
  let v := lowByte value
  .next (s.i2cWrite (.writeByteData dev reg v) dev (some reg) (.int v.toNat))

/-- I2C.WW (R122): the value goes out in native order, there is no mux on a write. -/
def execI2cWw (dev reg : Byte) (value : Word) (s : State) : Host.Outcome State Fault Refusal :=
  let w := lowHalf value
  .next (s.i2cWrite (.writeWordData dev reg w) dev (some reg) (.int w.toNat))

/-- I2C.WBLK (R123). -/
def execI2cWblk (dev reg len : Byte) (s : State) : Host.Outcome State Fault Refusal :=
  s.onPayload len.toNat fun bs => s.i2cWrite (.writeBlock dev reg bs) dev (some reg) (.bytes bs)

end Sys2Proof.Machine
end

