-- ==== Sys2Proof/Machine/Dispatch.lean ====
section
/-! DEFINITION. The dispatch: one arm per command of `30_encoding.md` R97. -/

namespace Sys2Proof.Machine

def exec (i : Instr) (s : State) : Host.Outcome State Fault Refusal :=
  match i with
  | .i2cWraw dev value => Sys2Proof.Machine.execI2cWraw dev value s
  | .i2cWb dev reg value => Sys2Proof.Machine.execI2cWb dev reg value s
  | .i2cWw dev reg value => Sys2Proof.Machine.execI2cWw dev reg value s
  | .i2cWblk dev reg len => Sys2Proof.Machine.execI2cWblk dev reg len s
  | .i2cRraw dev => Sys2Proof.Machine.execI2cRraw dev s
  | .i2cRub dev reg => Sys2Proof.Machine.execI2cRub dev reg s
  | .i2cRsb dev reg => Sys2Proof.Machine.execI2cRsb dev reg s
  | .i2cRuw le dev reg => Sys2Proof.Machine.execI2cRuw le dev reg s
  | .i2cRsw le dev reg => Sys2Proof.Machine.execI2cRsw le dev reg s
  | .i2cRblk dev reg len => Sys2Proof.Machine.execI2cRblk dev reg len s
  | .i2cRcrc dev reg => Sys2Proof.Machine.execI2cRcrc dev reg s
  | .gpioSetup pin mode pull init => Sys2Proof.Machine.execGpioSetup pin mode pull init s
  | .gpioOut pin value => Sys2Proof.Machine.execGpioOut pin value s
  | .gpioIn pin => Sys2Proof.Machine.execGpioIn pin s
  | .gpioInm len => Sys2Proof.Machine.execGpioInm len s
  | .gpioArm pin edge cb => Sys2Proof.Machine.execGpioArm pin edge cb s
  | .gpioDisarm pin => Sys2Proof.Machine.execGpioDisarm pin s
  | .gpioSetcb pin tag => Sys2Proof.Machine.execGpioSetcb pin tag s
  | .gpioPoll pin => Sys2Proof.Machine.execGpioPoll pin s
  | .gpioWait pin edge timeout => Sys2Proof.Machine.execGpioWait pin edge timeout s

end Sys2Proof.Machine
end

