-- ==== Sys2Proof/Machine/Issue.lean ====
section
/-! DEFINITION. Issuing a command (`30_encoding.md` R90, `10_state.md` R21): fetching the word and its payload from the
host's list, decoding it, executing it, and the IllegalCommand response of a word that spells none (R101). -/

namespace Sys2Proof.Machine

/-- The block accepts the word `w` (R90): it executes the command, or answers IllegalCommand and changes nothing else
(R101, R217; log 11). -/
def accept (w : Quad) (s : State) : Host.Outcome State Fault Refusal :=
  match decodeWord w with
  | some i => exec i s
  | none => .next (s.raise .illegalCommand)

/-- The host has written the payload to TXBUF and moved on to its next command (R21, R40). -/
def State.fetched (s : State) (c : Command) : State := { s.writeTx 0 c.payload with cp := s.cp + 1 }

/-- Host: issue `prog[cp]`; not enabled when `cp = n` (R21, R245). -/
def issue (s : State) : Host.Outcome State Fault Refusal :=
  match s.prog[s.cp]? with
  | none => .fault (.notEnabled .issue)
  | some c =>
    if c.payload.length ≤ Config.bufferSize then accept c.word (s.fetched c)
    else .fault (.bufferIndex Config.bufferSize)

/-- The payload that goes with the word `w` when a command is placed from outside: the bytes TXBUF already holds, and 0
where it holds none; empty for a command that takes no payload (log 4). -/
def State.payloadFor (s : State) (w : Quad) : List Byte :=
  match decodeWord w with
  | some (.i2cWblk _ _ len) => (List.range len.toNat).map fun i => (s.txByte i).getD 0
  | some (.gpioInm len) => (List.range len.toNat).map fun i => (s.txByte i).getD 0
  | _ => []

/-- Command `c` stands at `prog[cp]`, and its issue is the next step (log 4). -/
def State.place (s : State) (c : Command) : State :=
  { s with
    prog := s.prog.take s.cp ++ List.replicate (s.cp - s.prog.length) ⟨0, []⟩ ++ c :: s.prog.drop (s.cp + 1)
    agenda := .issue :: s.agenda }

end Sys2Proof.Machine
end

