-- ==== Sys2Proof/Machine/Ports.lean ====
section
/-! DEFINITION. The host's accesses to ports 1 to 6 (`10_state.md` R46); port 0, CMD, is the issue of a command
(`Machine/Issue.lean`). What a read returns is kept in `hostLog` (log 12). -/

namespace Sys2Proof.Machine

/-- The host has read the value `v`. -/
def State.heard (s : State) (v : HostRead) : State := { s with hostLog := s.hostLog ++ [v] }

/-- Port 2: write `TXBUF[i]` (R40). -/
def portTxWrite (i : Nat) (v : Byte) (s : State) : Host.Outcome State Fault Refusal :=
  if i < Config.bufferSize then .next (s.writeTx i [v]) else .fault (.bufferIndex i)

/-- Port 1: the oldest unread word of RSPQ. -/
def portRspRead (s : State) : Host.Outcome State Fault Refusal :=
  match s.rspq[s.rspSeen]? with
  | some w => .next (({ s with rspSeen := s.rspSeen + 1 } : State).heard (.rsp w))
  | none => .refused .rspNoneUnread

/-- Port 3: `RXBUF[i]` (R41). -/
def portRxRead (i : Nat) (s : State) : Host.Outcome State Fault Refusal :=
  if i < Config.bufferSize then
    match s.rxByte i with
    | some b => .next (s.heard (.rx i b))
    | none => .refused (.rxbufNoValue i)
  else .fault (.bufferIndex i)

/-- Port 4: RXLEN. -/
def portRxlenRead (s : State) : Host.Outcome State Fault Refusal := .next (s.heard (.rxlen s.rxlen))

/-- Port 5: the oldest unread entry of EVQ, as `pin ++ tag`. -/
def portEvtRead (s : State) : Host.Outcome State Fault Refusal :=
  match s.evq[s.evtSeen]? with
  | some e => .next (({ s with evtSeen := s.evtSeen + 1 } : State).heard (.evt (e.pin ++ e.tag)))
  | none => .refused .evtNoneUnread

/-- Port 6: the trace log; its format is not fixed, so the log itself is what is read (log 12). -/
def portTrcRead (s : State) : Host.Outcome State Fault Refusal := .next (s.heard (.trc s.trace))

end Sys2Proof.Machine
end

