-- ==== Sys2Proof/Machine/Schedule.lean ====
section
/-! DEFINITION. Which agent moves next (`00_scope.md` R6; logs 1, 2). -/

namespace Sys2Proof.Machine

/-- One step of one agent. -/
def runAgent (a : AgentStep) (s : State) : Host.Outcome State Fault Refusal :=
  match a with
  | .issue => issue s
  | .txWrite i v => portTxWrite i v s
  | .rspRead => portRspRead s
  | .rxRead i => portRxRead i s
  | .rxlenRead => portRxlenRead s
  | .evtRead => portEvtRead s
  | .trcRead => portTrcRead s
  | .pinChange p v => pinChange p v s
  | .deliver => deliver s
  | .tick => tick s
  | .completeOk p => completeOk p s
  | .completeTimeout p => completeTimeout p s

/-- The first pin, in the order of the record list, whose record satisfies `f`. -/
def State.findPin (s : State) (f : Pin → Bool) : Option Byte :=
  (s.pins.map fun c => BitVec.ofNat 8 c.1).find? fun p => f (s.pin p)

/-- The default order of an empty agenda (log 2): commands, then waits with a pending edge, then queued callbacks, then
expired waits, then ticks; none when the run has ended (`70_reset_and_hazards.md` R245). -/
def State.defaultAgent (s : State) : Option AgentStep :=
  if s.cp < s.prog.length then some .issue
  else match s.findPin Pin.okReady with
    | some p => some (.completeOk p)
    | none =>
      if s.cbq ≠ [] then some .deliver
      else match s.findPin Pin.timeoutReady with
        | some p => some (.completeTimeout p)
        | none => if s.pins.any fun c => c.2.running then some .tick else none

/-- The agenda's first entry moves; an empty agenda takes the default order; with nothing to do the state stays as it is
(`70_reset_and_hazards.md` R241; log 3). -/
def runNext (s : State) : Host.Outcome State Fault Refusal :=
  match s.agenda with
  | a :: rest => runAgent a { s with agenda := rest }
  | [] =>
    match s.defaultAgent with
    | some a => runAgent a s
    | none => .next s

end Sys2Proof.Machine
end

