-- ==== Sys2Proof/Machine/Step.lean ====
section
/-! DEFINITION. One step of the machine, and placing an instruction where the next step fetches it. -/

namespace Sys2Proof.Machine

/-- One step of one agent (`00_scope.md` R6, R10). -/
def step (s : State) : Host.Outcome State Fault Refusal := runNext s

/-- The command word `w`, with the payload it needs, is the host's next command and its issue is the next step (log 4). -/
def State.withFetchWord (s : State) (nbits w : Nat) : State :=
  let word : Quad := BitVec.ofNat 64 (w % 2 ^ nbits)
  s.place ⟨word, s.payloadFor word⟩

end Sys2Proof.Machine
end

