-- ==== Sys2Proof/WellFormed.lean ====
section
/-! DEFINITION. Which terms of `Instr` are commands of the block. The types already shut out PULL = 3, EDGE = 0 and a
tag without CBV (`30_encoding.md` R100 items 4 to 6); what is left is the block length (item 3). -/

namespace Sys2Proof

/-- R100 item 3: LEN = 0 is illegal in I2C.WBLK, I2C.RBLK and GPIO.INM. Every other term is a command. -/
def Instr.wf : Instr → Bool
  | .i2cWraw _ _ => true
  | .i2cWb _ _ _ => true
  | .i2cWw _ _ _ => true
  | .i2cWblk _ _ len => len != 0
  | .i2cRraw _ => true
  | .i2cRub _ _ => true
  | .i2cRsb _ _ => true
  | .i2cRuw _ _ _ => true
  | .i2cRsw _ _ _ => true
  | .i2cRblk _ _ len => len != 0
  | .i2cRcrc _ _ => true
  | .gpioSetup _ _ _ _ => true
  | .gpioOut _ _ => true
  | .gpioIn _ => true
  | .gpioInm len => len != 0
  | .gpioArm _ _ _ => true
  | .gpioDisarm _ => true
  | .gpioSetcb _ _ => true
  | .gpioPoll _ => true
  | .gpioWait _ _ _ => true

end Sys2Proof
end

