-- ==== Sys2Proof/Machine/Assembler.lean ====
section
/-! DEFINITION. The assembler's command forms and their defaults (`30_encoding.md` R104, R105), from operands to the
command word and its payload. Operands are numbers as written; a number out of its operand's range is not accepted. -/

namespace Sys2Proof.Machine

/-- The `order` operand of a word read (R104). -/
inductive WordOrder where
  | le
  | be
deriving DecidableEq, Repr

/-- A line of assembly (R104). An `Option` operand may be left out. -/
inductive Asm where
  | i2cWraw (dev : Nat) (value : Int)
  | i2cWb (dev reg : Nat) (value : Int)
  | i2cWw (dev reg : Nat) (value : Int)
  | i2cWblk (dev reg : Nat) (bytes : List Nat)
  | i2cRraw (dev : Nat)
  | i2cRub (dev reg : Nat)
  | i2cRsb (dev reg : Nat)
  | i2cRuw (dev reg : Nat) (order : Option WordOrder)
  | i2cRsw (dev reg : Nat) (order : Option WordOrder)
  | i2cRblk (dev reg len : Nat)
  | i2cRcrc (dev reg : Nat)
  | gpioSetup (pin : Nat) (mode : PinMode) (pull : Pull) (init : Bool)
  | gpioOut (pin : Nat) (value : Bool)
  | gpioIn (pin : Nat)
  | gpioInm (pins : List Nat)
  | gpioArm (pin : Nat) (edge : Edge) (cb : Option Nat)
  | gpioDisarm (pin : Nat)
  | gpioSetcb (pin tag : Nat)
  | gpioPoll (pin : Nat)
  | gpioWait (pin : Nat) (edge : Edge) (timeout : Option Nat)
deriving DecidableEq, Repr

/-- An 8-bit operand (R92). -/
def asmByte (n : Nat) : Option Byte := if n < 256 then some (BitVec.ofNat 8 n) else none

/-- A payload (R104). -/
def asmBytes (ns : List Nat) : Option (List Byte) := ns.mapM asmByte

/-- A write value: a negative integer is carried as its 32-bit two's-complement pattern (R92). -/
def asmValue (v : Int) : Option Word := if -2147483648 ≤ v ∧ v < 4294967296 then some (BitVec.ofInt 32 v) else none

/-- A timeout in ticks (R92). -/
def asmTimeout (n : Nat) : Option Word := if n < 4294967296 then some (BitVec.ofNat 32 n) else none

/-- LE of an `order` operand; left out, it is `le` on both word reads (R105). -/
def asmLe : Option WordOrder → Bool
  | none => true
  | some .le => true
  | some .be => false

/-- The optional tag of GPIO.ARM (R105: left out, CBV = 0 and B = 0). -/
def asmTag : Option Nat → Option (Option Byte)
  | none => some none
  | some n => (asmByte n).map some

/-- The instruction and payload a line stands for. -/
def asmInstr : Asm → Option (Instr × List Byte)
  | .i2cWraw dev value => do return (.i2cWraw (← asmByte dev) (← asmValue value), [])
  | .i2cWb dev reg value => do return (.i2cWb (← asmByte dev) (← asmByte reg) (← asmValue value), [])
  | .i2cWw dev reg value => do return (.i2cWw (← asmByte dev) (← asmByte reg) (← asmValue value), [])
  | .i2cWblk dev reg bytes => do
    return (.i2cWblk (← asmByte dev) (← asmByte reg) (← asmByte bytes.length), ← asmBytes bytes)
  | .i2cRraw dev => do return (.i2cRraw (← asmByte dev), [])
  | .i2cRub dev reg => do return (.i2cRub (← asmByte dev) (← asmByte reg), [])
  | .i2cRsb dev reg => do return (.i2cRsb (← asmByte dev) (← asmByte reg), [])
  | .i2cRuw dev reg order => do return (.i2cRuw (asmLe order) (← asmByte dev) (← asmByte reg), [])
  | .i2cRsw dev reg order => do return (.i2cRsw (asmLe order) (← asmByte dev) (← asmByte reg), [])
  | .i2cRblk dev reg len => do return (.i2cRblk (← asmByte dev) (← asmByte reg) (← asmByte len), [])
  | .i2cRcrc dev reg => do return (.i2cRcrc (← asmByte dev) (← asmByte reg), [])
  | .gpioSetup pin mode pull init => do return (.gpioSetup (← asmByte pin) mode pull init, [])
  | .gpioOut pin value => do return (.gpioOut (← asmByte pin) value, [])
  | .gpioIn pin => do return (.gpioIn (← asmByte pin), [])
  | .gpioInm pins => do return (.gpioInm (← asmByte pins.length), ← asmBytes pins)
  | .gpioArm pin edge cb => do return (.gpioArm (← asmByte pin) edge (← asmTag cb), [])
  | .gpioDisarm pin => do return (.gpioDisarm (← asmByte pin), [])
  | .gpioSetcb pin tag => do return (.gpioSetcb (← asmByte pin) (← asmByte tag), [])
  | .gpioPoll pin => do return (.gpioPoll (← asmByte pin), [])
  | .gpioWait pin edge timeout => do return (.gpioWait (← asmByte pin) edge (← asmTimeout (← timeout)), [])

/-- The command a line assembles to. A block of length 0 is no command (R100 item 3), and a wait without a timeout is
not accepted (R105). -/
def assemble (a : Asm) : Option Command :=
  (asmInstr a).bind fun (i, payload) => if i.wf then some ⟨encode i, payload⟩ else none

end Sys2Proof.Machine
end

