-- ==== Sys2Proof/Safety.lean ====
section
/-! DEFINITION. The terms claims are stated in: what a step leaves alone, the invariants of the machine, and runs. -/

namespace Sys2Proof.Machine

/-! ### What is left unchanged -/

/-- The parameters, the host's program and pointer, the schedule and what the host has read. -/
def SameHost (s t : State) : Prop :=
  t.platform = s.platform ∧ t.prog = s.prog ∧ t.cp = s.cp ∧ t.agenda = s.agenda ∧ t.hostLog = s.hostLog ∧
    t.rspSeen = s.rspSeen ∧ t.evtSeen = s.evtSeen

/-- Every byte of TXBUF. -/
def SameTx (s t : State) : Prop := ∀ i, t.txByte i = s.txByte i

/-- Every byte of RXBUF, and RXLEN. -/
def SameRx (s t : State) : Prop := (∀ i, t.rxByte i = s.rxByte i) ∧ t.rxlen = s.rxlen

/-- Every pin record but that of `p`. -/
def SameOtherPins (p : Byte) (s t : State) : Prop := ∀ q, q ≠ p → t.pin q = s.pin q

/-- Every pin record. -/
def SamePins (s t : State) : Prop := ∀ q, t.pin q = s.pin q

/-- The callback queue and the log of delivered events. -/
def SameEvents (s t : State) : Prop := t.cbq = s.cbq ∧ t.evq = s.evq

/-- Every field of GPIOEV: pins, levels, callbacks, events. -/
def SameGpio (s t : State) : Prop := SamePins s t ∧ t.level = s.level ∧ SameEvents s t

/-- No transport request has been sent, and no trace record made. -/
def SameBus (s t : State) : Prop :=
  t.bus = s.bus ∧ t.requests = s.requests ∧ t.draws = s.draws ∧ t.trace = s.trace

/-- Exactly the one request `r` has been sent and answered (`20_memory.md` R62, R70). -/
def SentOnly (r : Request) (s t : State) : Prop :=
  t.requests = s.requests ++ [r] ∧ t.draws = s.draws + 1 ∧ t.bus = s.bus.after s.platform.nativeLE r

/-- An I2C command's frame: nothing but the transport, the trace and the responses may differ. -/
def OnlyBusChanged (s t : State) : Prop := SameHost s t ∧ SameTx s t ∧ SameRx s t ∧ SameGpio s t

/-- The frame of a command on the record of pin `p`: nothing but that record and the responses may differ. -/
def OnlyPinChanged (p : Byte) (s t : State) : Prop :=
  SameOtherPins p s t ∧ t.level = s.level ∧ SameEvents s t ∧ SameHost s t ∧ SameTx s t ∧ SameRx s t ∧ SameBus s t

/-- The same, for a command that may also drop queued callbacks of `p`. -/
def OnlyTrackerChanged (p : Byte) (s t : State) : Prop :=
  SameOtherPins p s t ∧ t.level = s.level ∧ t.evq = s.evq ∧ SameHost s t ∧ SameTx s t ∧ SameRx s t ∧ SameBus s t

/-! ### Illegal words (`30_encoding.md` R100), from the columns of R98 -/

/-- R100 item 1: OP is none of the twenty values. -/
def opUnassigned (w : Quad) : Prop :=
  ¬ (0x10 ≤ (opOf w).toNat ∧ (opOf w).toNat ≤ 0x1A ∨ 0x20 ≤ (opOf w).toNat ∧ (opOf w).toNat ≤ 0x28)

/-- R100 item 2: a field, or a bit of one, that R98 does not give to the operation is not 0. -/
def mustBeZeroBroken (w : Quad) : Prop :=
  let op := (opOf w).toNat
  let flg := (flgOf w).toNat
  let imm := (immOf w).toNat
  op ∈ [0x10] ∧ (flg ≠ 0 ∨ bOf w ≠ 0) ∨
  op ∈ [0x11, 0x12] ∧ flg ≠ 0 ∨
  op ∈ [0x13, 0x19] ∧ (flg ≠ 0 ∨ 256 ≤ imm) ∨
  op ∈ [0x14, 0x22, 0x25, 0x27] ∧ (flg ≠ 0 ∨ bOf w ≠ 0 ∨ imm ≠ 0) ∨
  op ∈ [0x15, 0x16, 0x1A, 0x26] ∧ (flg ≠ 0 ∨ imm ≠ 0) ∨
  op ∈ [0x17, 0x18] ∧ (2 ≤ flg ∨ imm ≠ 0) ∨
  op ∈ [0x20] ∧ (32 ≤ flg ∨ bOf w ≠ 0 ∨ imm ≠ 0) ∨
  op ∈ [0x21] ∧ (flg ≠ 0 ∨ bOf w ≠ 0 ∨ 2 ≤ imm) ∨
  op ∈ [0x23] ∧ (flg ≠ 0 ∨ aOf w ≠ 0 ∨ bOf w ≠ 0 ∨ 256 ≤ imm) ∨
  op ∈ [0x24] ∧ (8 ≤ flg ∨ imm ≠ 0) ∨
  op ∈ [0x28] ∧ (4 ≤ flg ∨ bOf w ≠ 0)

/-- R100 items 3 to 6: LEN = 0, PULL = 3, EDGE = 0, a tag without CBV. -/
def reservedOperand (w : Quad) : Prop :=
  let op := (opOf w).toNat
  let flg := (flgOf w).toNat
  op ∈ [0x13, 0x19, 0x23] ∧ lenOf w = 0 ∨
  op ∈ [0x20] ∧ flg / 4 % 4 = 3 ∨
  op ∈ [0x24, 0x28] ∧ flg % 4 = 0 ∨
  op ∈ [0x24] ∧ flg / 4 % 2 = 0 ∧ bOf w ≠ 0

/-! ### Assembled lines (`30_encoding.md` R104) -/

/-- The command `c` is the word with the five fields and the payload given as the numbers written, each of which so fits
its field, and its word decodes to `i`. -/
def Spells (c : Command) (op flg a b : Nat) (imm : Int) (payload : List Nat) (i : Instr) : Prop :=
  (opOf c.word).toNat = op ∧ (flgOf c.word).toNat = flg ∧ (aOf c.word).toNat = a ∧ (bOf c.word).toNat = b ∧
    (immOf c.word).toNat = imm ∧ c.payload.map (·.toNat) = payload ∧ decodeWord c.word = some i

/-- The EDGE code of R99 as a number. -/
def edgeNumber : Edge → Nat
  | .rising => 1
  | .falling => 2
  | .both => 3

/-- The MODE code of R99 as a number. -/
def modeNumber : PinMode → Nat
  | .unconfigured => 0
  | .input => 1
  | .output => 2
  | .alternate => 3

/-- The PULL code of R99 as a number. -/
def pullNumber : Pull → Nat
  | .none => 0
  | .up => 1
  | .down => 2

/-- The table of R104, a row for each form, with the columns of R98 and the operand ranges of R92: the line spells the
command `c`. A timeout must be given and an order left out is `le` (R105); a block is not empty (R100 item 3). -/
def lineSpells (line : Asm) (c : Command) : Prop :=
  let a := aOf c.word
  let b := bOf c.word
  let imm := immOf c.word
  match line with
  | .i2cWraw dev v => -2147483648 ≤ v ∧ v < 4294967296 ∧ Spells c 0x10 0 dev 0 (v % 4294967296) [] (.i2cWraw a imm)
  | .i2cWb dev reg v =>
    -2147483648 ≤ v ∧ v < 4294967296 ∧ Spells c 0x11 0 dev reg (v % 4294967296) [] (.i2cWb a b imm)
  | .i2cWw dev reg v =>
    -2147483648 ≤ v ∧ v < 4294967296 ∧ Spells c 0x12 0 dev reg (v % 4294967296) [] (.i2cWw a b imm)
  | .i2cWblk dev reg bytes =>
    1 ≤ bytes.length ∧ bytes.length ≤ 255 ∧ Spells c 0x13 0 dev reg bytes.length bytes (.i2cWblk a b (lenOf c.word))
  | .i2cRraw dev => Spells c 0x14 0 dev 0 0 [] (.i2cRraw a)
  | .i2cRub dev reg => Spells c 0x15 0 dev reg 0 [] (.i2cRub a b)
  | .i2cRsb dev reg => Spells c 0x16 0 dev reg 0 [] (.i2cRsb a b)
  | .i2cRuw dev reg (some .be) => Spells c 0x17 0 dev reg 0 [] (.i2cRuw false a b)
  | .i2cRuw dev reg (some .le) => Spells c 0x17 1 dev reg 0 [] (.i2cRuw true a b)
  | .i2cRuw dev reg none => Spells c 0x17 1 dev reg 0 [] (.i2cRuw true a b)
  | .i2cRsw dev reg (some .be) => Spells c 0x18 0 dev reg 0 [] (.i2cRsw false a b)
  | .i2cRsw dev reg (some .le) => Spells c 0x18 1 dev reg 0 [] (.i2cRsw true a b)
  | .i2cRsw dev reg none => Spells c 0x18 1 dev reg 0 [] (.i2cRsw true a b)
  | .i2cRblk dev reg len => 1 ≤ len ∧ len ≤ 255 ∧ Spells c 0x19 0 dev reg len [] (.i2cRblk a b (lenOf c.word))
  | .i2cRcrc dev reg => Spells c 0x1A 0 dev reg 0 [] (.i2cRcrc a b)
  | .gpioSetup pin mode pull init =>
    Spells c 0x20 (modeNumber mode + 4 * pullNumber pull + (if init then 16 else 0)) pin 0 0 []
      (.gpioSetup a mode pull init)
  | .gpioOut pin v => Spells c 0x21 0 pin 0 (if v then 1 else 0) [] (.gpioOut a v)
  | .gpioIn pin => Spells c 0x22 0 pin 0 0 [] (.gpioIn a)
  | .gpioInm pins => 1 ≤ pins.length ∧ pins.length ≤ 255 ∧ Spells c 0x23 0 0 0 pins.length pins (.gpioInm (lenOf c.word))
  | .gpioArm pin edge none => Spells c 0x24 (edgeNumber edge) pin 0 0 [] (.gpioArm a edge none)
  | .gpioArm pin edge (some tag) => Spells c 0x24 (edgeNumber edge + 4) pin tag 0 [] (.gpioArm a edge (some b))
  | .gpioDisarm pin => Spells c 0x25 0 pin 0 0 [] (.gpioDisarm a)
  | .gpioSetcb pin tag => Spells c 0x26 0 pin tag 0 [] (.gpioSetcb a b)
  | .gpioPoll pin => Spells c 0x27 0 pin 0 0 [] (.gpioPoll a)
  | .gpioWait pin edge (some t) => Spells c 0x28 (edgeNumber edge) pin 0 t [] (.gpioWait a edge imm)
  | .gpioWait _ _ none => False

/-! ### Invariants -/

/-- The invariants of the record of pin `p` (`10_state.md` R32, items 1 to 6 in order). -/
def PinOk (s : State) (p : Byte) : Prop :=
  ((s.pin p).armed = true → (s.pin p).mode = .input ∧ (s.pin p).edge ≠ 0) ∧
  ((s.pin p).armed = false → (s.pin p).edge = 0 ∧ (s.pin p).pending = false ∧ (s.pin p).cbv = false ∧
    (s.pin p).waiting = false ∧ p ∉ s.cbq) ∧
  ((s.pin p).cbv = false → (s.pin p).cbtag = 0) ∧
  ((s.pin p).waiting = true → (s.pin p).armed = true) ∧
  (p ∈ s.cbq → (s.pin p).cbv = true) ∧
  (s.pinValid p = false → s.pin p = Pin.atReset)

/-- R32 for every pin. -/
def TrackersOk (s : State) : Prop := ∀ p, PinOk s p

/-- The memory a bus holds is canonical. -/
def busWf : Bus → Bool
  | .oracle _ => true
  | .fixture _ m => Memory.wf (some 0) Config.fixtureSize m

/-- Both buffers, the fixture's registers and the pin array are in canonical form. -/
def MemoryOk (s : State) : Prop :=
  Memory.wf none Config.bufferSize s.txbuf = true ∧ Memory.wf none Config.bufferSize s.rxbuf = true ∧
    busWf s.bus = true ∧ sparseWf (some Pin.atReset) 256 s.pins = true

/-- Exactly the bytes of RXBUF below RXLEN hold a value (`10_state.md` R41). -/
def RxOk (s : State) : Prop := ∀ i, (s.rxByte i).isSome = true ↔ i < s.rxlen.toNat

/-- What R94 and R95 say of every response word: a status of 0 to 7, bits 57:48 zero, a value only with V, V only with OK,
PIN only with Y, a block length only with OK and without V. -/
def ResponseOk (w : Quad) : Prop :=
  (rspSt w).toNat ≤ 7 ∧ rspZero w = 0 ∧ (rspV w = false → rspVal w = 0) ∧ (rspV w = true → rspSt w = 0) ∧
    (rspY w = false → rspPin w = 0) ∧ (rspY w = true → rspV w = false ∧ rspRxlen w = 0) ∧
    (rspRxlen w ≠ 0 → rspSt w = 0 ∧ rspV w = false)

/-- Every response word so far is of that form. -/
def ResponsesOk (s : State) : Prop := ∀ w ∈ s.rspq, ResponseOk w

/-! ### Runs -/

/-- The agent that moves in the next step, if any. -/
def mover (s : State) : Option AgentStep :=
  match s.agenda with
  | a :: _ => some a
  | [] => s.defaultAgent

/-- The command word the next step issues, if it issues one. -/
def issuedWord (s : State) : Option Quad :=
  if mover s = some .issue then (s.prog[s.cp]?).map (·.word) else none

/-- The instruction the next step executes, if it executes one. -/
def issuedInstr (s : State) : Option Instr := (issuedWord s).bind decodeWord

/-- The next step is a command that replaces or clears the tracker of pin `p` (R160, R184). -/
def clearsTracker (p : Byte) (s : State) : Prop :=
  issuedInstr s = some (.gpioDisarm p) ∨ ∃ mode pull init, issuedInstr s = some (.gpioSetup p mode pull init)

/-- The next step detects an edge on pin `p` (`44_gpio_edge.md` R195). -/
def detects (p : Byte) (s : State) : Prop :=
  ∃ v, mover s = some (.pinChange p v) ∧ v ≠ s.levelOf p ∧ (s.pin p).armed = true ∧
    edgeMatches (s.pin p).edge (s.levelOf p) v = true

/-- How many of the first `n` steps from `s` are ticks. -/
def ticksWithin : Nat → State → Nat
  | 0, _ => 0
  | n + 1, s =>
    match step s with
    | .next s' => (if mover s = some .tick then 1 else 0) + ticksWithin n s'
    | _ => 0

/-- The wait of pin `p` is outstanding in `s` and in each of the `n` states after it. -/
def waitsThrough (p : Byte) : Nat → State → Bool
  | 0, s => (s.pin p).waiting
  | n + 1, s =>
    (s.pin p).waiting &&
      match step s with
      | .next s' => waitsThrough p n s'
      | _ => false

/-- The pins of all triggered callbacks, in order: those delivered, then those queued (R42, R43). -/
def callbackLine (s : State) : List Byte := s.evq.map (·.pin) ++ s.cbq

/-- The run has ended (`70_reset_and_hazards.md` R245): every command is issued, no wait is outstanding, no callback is
queued. -/
def Ended (s : State) : Prop := s.prog.length ≤ s.cp ∧ s.cbq = [] ∧ ∀ p, (s.pin p).waiting = false

end Sys2Proof.Machine
end

