-- ==== Sys2Proof/Certificates/Slice0/Obligations.lean ====
section
/-! DEFINITION. The statements for the provers. Response words are written as `95_test_vectors.md` writes them. -/

open Sys2Proof Sys2Proof.Machine

/-! ### Encoding -/

/-- R98, R106: no bit of an encoding is dropped. -/
def Obligations.DecodeOfEncodeIsTheInstruction : Prop :=
  ∀ i : Instr, i.wf = true → decodeWord (encode i) = some i

/-- R93, R106: a word spells at most the one command whose encoding it is. -/
def Obligations.DecodedWordIsItsEncoding : Prop :=
  ∀ (w : Quad) (i : Instr), decodeWord w = some i → i.wf = true ∧ encode i = w

/-- R100: the decoder rejects exactly the illegal words, item by item. -/
def Obligations.DecoderRejectsExactlyTheIllegalWords : Prop :=
  ∀ w : Quad, decodeWord w = none ↔ opUnassigned w ∨ mustBeZeroBroken w ∨ reservedOperand w

/-- Words written out in `30_encoding.md` section 8 and `95_test_vectors.md` V1. -/
def Obligations.WorkedEncodingsDecode : Prop :=
  decodeWord 0x1A0040E300000000 = some (.i2cRcrc 0x40 0xE3) ∧
  decodeWord 0x170140E300000000 = some (.i2cRuw true 0x40 0xE3) ∧
  decodeWord 0x110040E6000001C2 = some (.i2cWb 0x40 0xE6 0x1C2) ∧
  decodeWord 0x2001040000000000 = some (.gpioSetup 4 .input .none false) ∧
  decodeWord 0x2407047E00000000 = some (.gpioArm 4 .both (some 0x7E)) ∧
  decodeWord 0x2801040000000064 = some (.gpioWait 4 .rising 100) ∧
  decodeWord 0x1900500F00000000 = none ∧ decodeWord 0x200D040000000000 = none ∧
  decodeWord 0x2401042100000000 = none

/-- R104, R105, R92: the assembler accepts a line iff the table of R104 gives it a command, and then it is that command:
`lineSpells` writes every field of the word, the payload and the instruction the word decodes to, form by form. That a
number out of its operand's range is not accepted is the model's reading (log 15). -/
def Obligations.AssembledLineDecodesToItsInstruction : Prop :=
  ∀ (line : Asm) (c : Command), assemble line = some c ↔ lineSpells line c

/-- R105: the defaults of the assembler. -/
def Obligations.AssemblerDefaults : Prop :=
  (∀ dev reg, assemble (.i2cRuw dev reg none) = assemble (.i2cRuw dev reg (some .le))) ∧
  (∀ dev reg, assemble (.i2cRsw dev reg none) = assemble (.i2cRsw dev reg (some .le))) ∧
  (∀ pin edge, pin < 256 →
    assemble (.gpioArm pin edge none) = some ⟨encode (.gpioArm (BitVec.ofNat 8 pin) edge none), []⟩) ∧
  (∀ pin edge, assemble (.gpioWait pin edge none) = none)

/-! ### Reset and the step -/

/-- R50: the reset value of every piece of state the spec gives one; the levels are free. -/
def Obligations.ResetLeavesTheStatedValues : Prop :=
  (∃ pf lv, State.reset = .powerOn pf lv) ∧
  ∀ (pf : Platform) (lv : BitVec 256) (s : State), s = .powerOn pf lv →
    (∀ p, (s.pin p).mode = .unconfigured ∧ (s.pin p).pull = .none ∧ (s.pin p).out = false ∧
      (s.pin p).armed = false ∧ (s.pin p).edge = 0 ∧ (s.pin p).pending = false ∧ (s.pin p).cbv = false ∧
      (s.pin p).cbtag = 0 ∧ (s.pin p).waiting = false ∧ (s.pin p).waitLeft = 0 ∧ s.levelOf p = lv.getLsbD p.toNat) ∧
    (∀ i, s.txByte i = none ∧ s.rxByte i = none) ∧ s.rxlen = 0 ∧ s.cbq = [] ∧ s.evq = [] ∧ s.trace = [] ∧
    s.rspq = [] ∧ s.cp = 0

/-- The invariants hold at reset, and every answer of the bus is free there (the model's form of the oracle, log 5). -/
def Obligations.ResetMeetsTheInvariants : Prop :=
  TrackersOk State.reset ∧ MemoryOk State.reset ∧ RxOk State.reset ∧ ResponsesOk State.reset ∧
    ∀ r i, State.reset.acks r = Config.oracleAck State.reset.platform.busIndex 0 ∧
      State.reset.answerByte r i = Config.oracleByte State.reset.platform.busIndex 0 i

/-- R241: Tick, callback delivery and both wait completions are disabled in the reset state, whatever the parameters and
the pin levels. -/
def Obligations.NoBackgroundStepAtReset : Prop :=
  ∀ (pf : Platform) (lv : BitVec 256) (p : Byte),
    runAgent .tick (.powerOn pf lv) = .fault (.notEnabled .tick) ∧
    runAgent .deliver (.powerOn pf lv) = .fault (.notEnabled .deliver) ∧
    runAgent (.completeOk p) (.powerOn pf lv) = .fault (.notEnabled (.completeOk p)) ∧
    runAgent (.completeTimeout p) (.powerOn pf lv) = .fault (.notEnabled (.completeTimeout p))

/-- When the host's issue is next and its word decodes to `i`, the step is `i` executed after the payload is in TXBUF and
`cp` has moved on (R21, R90; that the schedule is the agenda's first entry, or else the default order, is the model's
choice, logs 1 and 2; that this step writes the payload to TXBUF is that of log 4). -/
def Obligations.StepRunsTheDecodedCommand : Prop :=
  ∀ (s : State) (rest : List AgentStep) (c : Command) (i : Instr),
    (s.agenda = .issue :: rest ∨ s.agenda = [] ∧ rest = []) → s.prog[s.cp]? = some c →
    c.payload.length ≤ 255 → decodeWord c.word = some i →
    step s = exec i (({ s with agenda := rest } : State).fetched c) ∧ (s.fetched c).cp = s.cp + 1

/-- R40, R21: issuing a command puts its payload at the start of TXBUF and leaves every other byte of it alone. R40 has the
host write TXBUF before it issues; that the issuing step itself writes it, from index 0 on, is the model's choice (log 4). -/
def Obligations.PayloadGoesToTxbuf : Prop :=
  ∀ (s : State) (c : Command),
    (∀ j, j < c.payload.length → (s.fetched c).txByte j = c.payload[j]?) ∧
    (∀ j, c.payload.length ≤ j → (s.fetched c).txByte j = s.txByte j) ∧
    (s.fetched c).cp = s.cp + 1 ∧ SameRx s (s.fetched c) ∧ SameGpio s (s.fetched c) ∧ SameBus s (s.fetched c) ∧
    (s.fetched c).rspq = s.rspq

/-- The word placed by `withFetchWord` is what the next step executes, and a byte of TXBUF that holds a value keeps it
(the model's choice of how a program is loaded, log 4). -/
def Obligations.PlacedWordIsExecutedNext : Prop :=
  ∀ (s : State) (w : Quad) (i : Instr), decodeWord w = some i →
    ∃ u, step (s.withFetchWord 64 w.toNat) = exec i u ∧ u.cp = s.cp + 1 ∧ u.agenda = s.agenda ∧
      (∀ j b, s.txByte j = some b → u.txByte j = some b) ∧ SameRx s u ∧ SameGpio s u ∧ SameBus s u ∧
      u.rspq = s.rspq ∧ u.platform = s.platform ∧ u.hostLog = s.hostLog ∧ u.rspSeen = s.rspSeen ∧ u.evtSeen = s.evtSeen

/-- R101: an illegal word changes nothing and answers IllegalCommand (the model gives the effect and does not refuse, log
11); and when the host's issue is next and its word is illegal, the step moves `cp` on, leaves the payload in TXBUF (log 4),
appends that one response and changes nothing else. -/
def Obligations.IllegalWordAnswersIllegalCommand : Prop :=
  (∀ (s : State) (w : Quad), decodeWord w = none →
    accept w s = .next { s with rspq := s.rspq ++ [0x7000000000000000] }) ∧
  ∀ (s : State) (rest : List AgentStep) (c : Command),
    (s.agenda = .issue :: rest ∨ s.agenda = [] ∧ rest = []) → s.prog[s.cp]? = some c →
    c.payload.length ≤ 255 → decodeWord c.word = none →
    ∃ t, step s = .next t ∧
      t = { s with agenda := rest, cp := s.cp + 1, txbuf := t.txbuf, rspq := s.rspq ++ [0x7000000000000000] } ∧
      (∀ j, j < c.payload.length → t.txByte j = c.payload[j]?) ∧
      (∀ j, c.payload.length ≤ j → t.txByte j = s.txByte j)

/-! ### I2C writes -/

/-- R124: the byte and the word sent are IMM modulo 256 and 65536. -/
def Obligations.WriteValuesAreTruncated : Prop :=
  ∀ v : Word, (lowByte v).toNat = v.toNat % 256 ∧ (lowHalf v).toNat = v.toNat % 65536

/-- R120 (and the frame of section "Common to all four"). -/
def Obligations.WriteRawByteCompletes : Prop :=
  ∀ (s : State) (dev : Byte) (value : Word) (r : Request),
    r = .writeByte dev (BitVec.ofNat 8 (value.toNat % 256)) →
    decodeWord (ofFields 0x10 0 dev 0 value) = some (.i2cWraw dev value) ∧
    ∃ t, exec (.i2cWraw dev value) s = .next t ∧ SentOnly r s t ∧ OnlyBusChanged s t ∧
      (s.acks r = true → t.rspq = s.rspq ++ [0x0000000000000000] ∧
        t.trace = s.trace ++ [⟨dev, none, .write, .ok, .int (value.toNat % 256 : Nat)⟩]) ∧
      (s.acks r = false → t.rspq = s.rspq ++ [0x1000000000000000] ∧
        t.trace = s.trace ++ [⟨dev, none, .write, .busError, .none⟩])

/-- R121. -/
def Obligations.WriteByteCompletes : Prop :=
  ∀ (s : State) (dev reg : Byte) (value : Word) (r : Request),
    r = .writeByteData dev reg (BitVec.ofNat 8 (value.toNat % 256)) →
    decodeWord (ofFields 0x11 0 dev reg value) = some (.i2cWb dev reg value) ∧
    ∃ t, exec (.i2cWb dev reg value) s = .next t ∧ SentOnly r s t ∧ OnlyBusChanged s t ∧
      (s.acks r = true → t.rspq = s.rspq ++ [0x0000000000000000] ∧
        t.trace = s.trace ++ [⟨dev, some reg, .write, .ok, .int (value.toNat % 256 : Nat)⟩]) ∧
      (s.acks r = false → t.rspq = s.rspq ++ [0x1000000000000000] ∧
        t.trace = s.trace ++ [⟨dev, some reg, .write, .busError, .none⟩])

/-- R122: one word transaction with the native word. -/
def Obligations.WriteWordCompletes : Prop :=
  ∀ (s : State) (dev reg : Byte) (value : Word) (r : Request),
    r = .writeWordData dev reg (BitVec.ofNat 16 (value.toNat % 65536)) →
    decodeWord (ofFields 0x12 0 dev reg value) = some (.i2cWw dev reg value) ∧
    ∃ t, exec (.i2cWw dev reg value) s = .next t ∧ SentOnly r s t ∧ OnlyBusChanged s t ∧
      (s.acks r = true → t.rspq = s.rspq ++ [0x0000000000000000] ∧
        t.trace = s.trace ++ [⟨dev, some reg, .write, .ok, .int (value.toNat % 65536 : Nat)⟩]) ∧
      (s.acks r = false → t.rspq = s.rspq ++ [0x1000000000000000] ∧
        t.trace = s.trace ++ [⟨dev, some reg, .write, .busError, .none⟩])

/-- R123: the payload is `TXBUF[0..LEN-1]`, in order; LEN = 0 is illegal, and a command whose LEN reaches a byte without
a value is refused, at the first such byte. -/
def Obligations.WriteBlockCompletes : Prop :=
  ∀ (s : State) (dev reg len : Byte),
    decodeWord (ofFields 0x13 0 dev reg (0#24 ++ len)) = (if len = 0 then none else some (.i2cWblk dev reg len)) ∧
    (∀ (bs : List Byte) (r : Request), bs.length = len.toNat → (∀ j, j < len.toNat → s.txByte j = bs[j]?) →
      r = .writeBlock dev reg bs →
      ∃ t, exec (.i2cWblk dev reg len) s = .next t ∧ SentOnly r s t ∧ OnlyBusChanged s t ∧
        (s.acks r = true → t.rspq = s.rspq ++ [0x0000000000000000] ∧
          t.trace = s.trace ++ [⟨dev, some reg, .write, .ok, .bytes bs⟩]) ∧
        (s.acks r = false → t.rspq = s.rspq ++ [0x1000000000000000] ∧
          t.trace = s.trace ++ [⟨dev, some reg, .write, .busError, .none⟩])) ∧
    (∀ i, i < len.toNat → s.txByte i = none → (∀ j, j < i → s.txByte j ≠ none) →
      exec (.i2cWblk dev reg len) s = .refused (.txbufNoValue i))

/-! ### I2C reads -/

/-- R130, R132: an unsigned byte, zero-extended; NACK gives BusError and no value. -/
def Obligations.ReadUnsignedByteCompletes : Prop :=
  ∀ (s : State) (i : Instr) (w : Quad) (dev : Byte) (reg : Option Byte) (r : Request) (b : Byte),
    (i = .i2cRraw dev ∧ w = ofFields 0x14 0 dev 0 0 ∧ reg = none ∧ r = .readByte dev ∨
      ∃ rg, i = .i2cRub dev rg ∧ w = ofFields 0x15 0 dev rg 0 ∧ reg = some rg ∧ r = .readByteData dev rg) →
    b = s.answerByte r 0 →
    decodeWord w = some i ∧
    ∃ t, exec i s = .next t ∧ SentOnly r s t ∧ OnlyBusChanged s t ∧
      (s.acks r = true → t.rspq = s.rspq ++ [0x08000000#32 ++ b.setWidth 32] ∧
        t.trace = s.trace ++ [⟨dev, reg, .read, .ok, .int b.toNat⟩]) ∧
      (s.acks r = false → t.rspq = s.rspq ++ [0x1000000000000000] ∧
        t.trace = s.trace ++ [⟨dev, reg, .read, .busError, .none⟩])

/-- R134: `unsigned - 256` above 127; VAL is the sign-extended byte. -/
def Obligations.ReadSignedByteCompletes : Prop :=
  ∀ (s : State) (dev reg : Byte) (r : Request) (b : Byte),
    r = .readByteData dev reg → b = s.answerByte r 0 →
    decodeWord (ofFields 0x16 0 dev reg 0) = some (.i2cRsb dev reg) ∧
    ∃ t, exec (.i2cRsb dev reg) s = .next t ∧ SentOnly r s t ∧ OnlyBusChanged s t ∧
      (s.acks r = true → t.rspq = s.rspq ++ [0x08000000#32 ++ b.signExtend 32] ∧
        t.trace = s.trace ++
          [⟨dev, some reg, .read, .ok, .int (if b.toNat ≤ 127 then b.toNat else (b.toNat : Int) - 256)⟩]) ∧
      (s.acks r = false → t.rspq = s.rspq ++ [0x1000000000000000] ∧
        t.trace = s.trace ++ [⟨dev, some reg, .read, .busError, .none⟩])

/-- R136: the native word, its bytes swapped if LE = 0, zero-extended. -/
def Obligations.ReadUnsignedWordCompletes : Prop :=
  ∀ (s : State) (le : Bool) (dev reg : Byte) (r : Request) (w u : Half),
    r = .readWordData dev reg → w = s.answerWord r →
    u = (if le then w else w.extractLsb' 0 8 ++ w.extractLsb' 8 8) →
    decodeWord (ofFields 0x17 (0#7 ++ BitVec.ofBool le) dev reg 0) = some (.i2cRuw le dev reg) ∧
    ∃ t, exec (.i2cRuw le dev reg) s = .next t ∧ SentOnly r s t ∧ OnlyBusChanged s t ∧
      (s.acks r = true → t.rspq = s.rspq ++ [0x08000000#32 ++ u.setWidth 32] ∧
        t.trace = s.trace ++ [⟨dev, some reg, .read, .ok, .int u.toNat⟩]) ∧
      (s.acks r = false → t.rspq = s.rspq ++ [0x1000000000000000] ∧
        t.trace = s.trace ++ [⟨dev, some reg, .read, .busError, .none⟩])

/-- R138: the mux first, then the sign of bit 15. -/
def Obligations.ReadSignedWordCompletes : Prop :=
  ∀ (s : State) (le : Bool) (dev reg : Byte) (r : Request) (w u : Half),
    r = .readWordData dev reg → w = s.answerWord r →
    u = (if le then w else w.extractLsb' 0 8 ++ w.extractLsb' 8 8) →
    decodeWord (ofFields 0x18 (0#7 ++ BitVec.ofBool le) dev reg 0) = some (.i2cRsw le dev reg) ∧
    ∃ t, exec (.i2cRsw le dev reg) s = .next t ∧ SentOnly r s t ∧ OnlyBusChanged s t ∧
      (s.acks r = true → t.rspq = s.rspq ++ [0x08000000#32 ++ u.signExtend 32] ∧
        t.trace = s.trace ++
          [⟨dev, some reg, .read, .ok, .int (if u.toNat ≤ 32767 then u.toNat else (u.toNat : Int) - 65536)⟩]) ∧
      (s.acks r = false → t.rspq = s.rspq ++ [0x1000000000000000] ∧
        t.trace = s.trace ++ [⟨dev, some reg, .read, .busError, .none⟩])

/-- R140, R41: exactly the LEN bytes of the answer are in RXBUF; on NACK RXLEN is 0 and no byte is readable; LEN = 0 is
illegal. -/
def Obligations.ReadBlockCompletes : Prop :=
  ∀ (s : State) (dev reg len : Byte) (r : Request) (bs : List Byte),
    r = .readBlock dev reg len → bs = s.answerBlock r len.toNat →
    bs.length = len.toNat ∧
    decodeWord (ofFields 0x19 0 dev reg (0#24 ++ len)) = (if len = 0 then none else some (.i2cRblk dev reg len)) ∧
    ∃ t, exec (.i2cRblk dev reg len) s = .next t ∧ SentOnly r s t ∧ SameHost s t ∧ SameTx s t ∧ SameGpio s t ∧
      (s.acks r = true → t.rxlen = len ∧ (∀ j, t.rxByte j = bs[j]?) ∧
        t.rspq = s.rspq ++ [0x000000#24 ++ len ++ 0x00000000#32] ∧
        t.trace = s.trace ++ [⟨dev, some reg, .read, .ok, .bytes bs⟩]) ∧
      (s.acks r = false → t.rxlen = 0 ∧ (∀ j, t.rxByte j = none) ∧ t.rspq = s.rspq ++ [0x1000000000000000] ∧
        t.trace = s.trace ++ [⟨dev, some reg, .read, .busError, .none⟩])

/-- R152: BusError on NACK, ChecksumError on a failed check, else the big-endian reading with its low two bits clear. -/
def Obligations.CrcCheckedReadCompletes : Prop :=
  ∀ (s : State) (dev reg : Byte) (r : Request) (msb lsb crc : Byte) (v : Nat),
    r = .readBlock dev reg 3 → msb = s.answerByte r 0 → lsb = s.answerByte r 1 → crc = s.answerByte r 2 →
    v = (msb.toNat * 256 + lsb.toNat) / 4 * 4 →
    decodeWord (ofFields 0x1A 0 dev reg 0) = some (.i2cRcrc dev reg) ∧
    ∃ t, exec (.i2cRcrc dev reg) s = .next t ∧ SentOnly r s t ∧ OnlyBusChanged s t ∧
      (s.acks r = true → crcCheck msb lsb crc = true →
        t.rspq = s.rspq ++ [0x08000000#32 ++ BitVec.ofNat 32 v] ∧
        t.trace = s.trace ++ [⟨dev, some reg, .read, .ok, .int v⟩]) ∧
      (s.acks r = true → crcCheck msb lsb crc = false → t.rspq = s.rspq ++ [0x2000000000000000] ∧
        t.trace = s.trace ++ [⟨dev, some reg, .read, .checksumError, .none⟩]) ∧
      (s.acks r = false → t.rspq = s.rspq ++ [0x1000000000000000] ∧
        t.trace = s.trace ++ [⟨dev, some reg, .read, .busError, .none⟩])

/-- R142: the sign conversion of both widths is a bijection onto the signed range, and its image in VAL. -/
def Obligations.SignConversionIsTwosComplement : Prop :=
  (∀ u : Byte, signedByte u = (if u.toNat ≤ 127 then (u.toNat : Int) else u.toNat - 256) ∧
    (u.signExtend 32).toInt = signedByte u ∧ resultVal (signedByte u) = u.signExtend 32) ∧
  (∀ u : Half, signedHalf u = (if u.toNat ≤ 32767 then (u.toNat : Int) else u.toNat - 65536) ∧
    (u.signExtend 32).toInt = signedHalf u ∧ resultVal (signedHalf u) = u.signExtend 32) ∧
  (∀ z : Int, -128 ≤ z ∧ z ≤ 127 ↔ ∃ u, signedByte u = z) ∧ (∀ u v, signedByte u = signedByte v → u = v) ∧
  (∀ z : Int, -32768 ≤ z ∧ z ≤ 32767 ↔ ∃ u, signedHalf u = z) ∧ (∀ u v, signedHalf u = signedHalf v → u = v)

/-- R143: `swap16` exchanges the bytes, is its own inverse, and fixes exactly the words with equal bytes. -/
def Obligations.ByteSwapIsAnInvolution : Prop :=
  ∀ w : Half, swap16 w = w.extractLsb' 0 8 ++ w.extractLsb' 8 8 ∧ swap16 (swap16 w) = w ∧
    (swap16 w = w ↔ w.extractLsb' 8 8 = w.extractLsb' 0 8)

/-- R67: the native word and its wire bytes, in both settings of `NATIVE_LE`. -/
def Obligations.NativeWordMatchesWireBytes : Prop :=
  ∀ (b0 b1 : Byte) (w : Half) (le : Bool),
    (nativeWord true b0 b1).toNat = b1.toNat * 256 + b0.toNat ∧
    (nativeWord false b0 b1).toNat = b0.toNat * 256 + b1.toNat ∧
    wireBytes le (nativeWord le b0 b1) = [b0, b1] ∧
    ∃ c0 c1, wireBytes le w = [c0, c1] ∧ nativeWord le c0 c1 = w

/-! ### The CRC -/

/-- R150: the check of the loop, its iterates written as a sequence `rem`: iteration `i` tests bit `23 - i` and XORs the
divisor shifted right `i` times. -/
def Obligations.CrcCheckIsTheDivisionLoop : Prop :=
  ∀ (msb lsb crc : Byte) (rem : Nat → BitVec 24), rem 0 = msb ++ lsb ++ crc →
    (∀ i, i < 16 → rem (i + 1) = if (rem i).getLsbD (23 - i) then rem i ^^^ (0x988000#24 >>> i) else rem i) →
    (crcCheck msb lsb crc = true ↔ rem 16 = 0)

/-- R151 item 3: for every data pair there is exactly one checksum byte that passes. -/
def Obligations.ExactlyOneChecksumPasses : Prop :=
  ∀ msb lsb : Byte, ∃ c, crcCheck msb lsb c = true ∧ ∀ c', crcCheck msb lsb c' = true → c' = c

/-- R153, R151 item 4: the generator's byte passes the check, and with any one of its bits flipped the block fails. -/
def Obligations.GeneratedChecksumPassesAndFlipsFail : Prop :=
  ∀ (msb lsb : Byte) (k : Nat), k < 8 →
    crcCheck msb lsb (crcGenerate msb lsb) = true ∧
    crcCheck msb lsb (crcGenerate msb lsb ^^^ BitVec.twoPow 8 k) = false

/-! ### The test fixture -/

/-- R66: the fixture acknowledges exactly its device, stores what a write carries from the start register on, modulo 256,
and leaves every other register alone; a request to another device changes nothing. -/
def Obligations.FixtureStoresAWrite : Prop :=
  ∀ (s : State) (r : Request) (d : Byte) (m : List Host.Cell),
    s.bus = .fixture d m → (r.written s.platform.nativeLE).length ≤ 256 →
    (s.acks r = true ↔ r.dev = d) ∧
    ∃ m', (s.sent r).bus = .fixture d m' ∧ (r.dev ≠ d → m' = m) ∧
      (r.dev = d → ∀ a, a < 256 → regRead m' a =
        ((r.written s.platform.nativeLE)[(a + 256 - r.start.toNat) % 256]?).getD (regRead m a))

/-- R66, R67: under the fixture a word written with I2C.WW reads back with I2C.RUW, LE = 1, in both settings of
`NATIVE_LE` and at every register, 0xFF included. -/
def Obligations.FixtureReadsBackAWrittenWord : Prop :=
  ∀ (s t : State) (d reg : Byte) (m : List Host.Cell) (value : Word), s.bus = .fixture d m →
    exec (.i2cWw d reg value) s = .next t →
    ∃ u, exec (.i2cRuw true d reg) t = .next u ∧
      u.rspq = t.rspq ++ [0x08000000#32 ++ BitVec.ofNat 32 (value.toNat % 65536)]

/-! ### GPIO configuration and level -/

/-- R160, R199: a valid pin gets a fresh tracker; an outstanding wait is cancelled first. An invalid pin changes nothing. -/
def Obligations.SetupOverwritesThePin : Prop :=
  ∀ (s : State) (pin : Byte) (mode : PinMode) (pull : Pull) (init : Bool),
    decodeWord (ofFields 0x20 (0#3 ++ BitVec.ofBool init ++ pull.code ++ mode.code) pin 0 0) =
      some (.gpioSetup pin mode pull init) ∧
    (s.pinValid pin = true →
      ∃ t, exec (.gpioSetup pin mode pull init) s = .next t ∧ OnlyTrackerChanged pin s t ∧
        t.pin pin = { mode := mode, pull := pull, out := if mode = .output then init else false, armed := false,
                      edge := 0, pending := false, cbv := false, cbtag := 0, waiting := false, waitLeft := 0 } ∧
        t.cbq = s.cbq.filter (· ≠ pin) ∧
        t.rspq = s.rspq ++ (if (s.pin pin).waiting then [0x6400#16 ++ pin ++ 0x0000000000#40] else []) ++
          [0x0000000000000000]) ∧
    (s.pinValid pin = false →
      exec (.gpioSetup pin mode pull init) s = .next { s with rspq := s.rspq ++ [0x3000000000000000] })

/-- R162: an output pin's latch takes the value; any other pin is a ModeError and nothing changes. -/
def Obligations.OutputDrivesTheLatch : Prop :=
  ∀ (s : State) (pin : Byte) (value : Bool),
    decodeWord (ofFields 0x21 0 pin 0 (0#31 ++ BitVec.ofBool value)) = some (.gpioOut pin value) ∧
    ((s.pin pin).mode = .output →
      ∃ t, exec (.gpioOut pin value) s = .next t ∧ OnlyPinChanged pin s t ∧
        t.pin pin = { s.pin pin with out := value } ∧ t.rspq = s.rspq ++ [0x0000000000000000]) ∧
    ((s.pin pin).mode ≠ .output →
      exec (.gpioOut pin value) s = .next { s with rspq := s.rspq ++ [0x4000000000000000] })

/-- R164: an input pin's level is returned and nothing else changes; any other pin is a ModeError. -/
def Obligations.InputReturnsTheLevel : Prop :=
  ∀ (s : State) (pin : Byte),
    decodeWord (ofFields 0x22 0 pin 0 0) = some (.gpioIn pin) ∧
    ((s.pin pin).mode = .input →
      exec (.gpioIn pin) s = .next { s with rspq := s.rspq ++
        [if s.levelOf pin then 0x0800000000000001 else 0x0800000000000000] }) ∧
    ((s.pin pin).mode ≠ .input →
      exec (.gpioIn pin) s = .next { s with rspq := s.rspq ++ [0x4000000000000000] })

/-- R166: one byte per listed pin, in input order; a pin that is no input is a ModeError with RXLEN 0; LEN = 0 is illegal,
and a command whose LEN reaches a byte of TXBUF without a value is refused, at the first such byte, even where an earlier
listed pin would give ModeError (the order of the two checks is the model's, log 9). -/
def Obligations.InputManyReturnsTheLevelsInOrder : Prop :=
  ∀ (s : State) (len : Byte),
    decodeWord (ofFields 0x23 0 0 0 (0#24 ++ len)) = (if len = 0 then none else some (.gpioInm len)) ∧
    (∀ pins : List Byte, pins.length = len.toNat → (∀ j, j < len.toNat → s.txByte j = pins[j]?) →
      ((∀ p ∈ pins, (s.pin p).mode = .input) →
        ∃ t, exec (.gpioInm len) s = .next t ∧ SameHost s t ∧ SameTx s t ∧ SameGpio s t ∧ SameBus s t ∧
          t.rxlen = len ∧ (∀ j, t.rxByte j = pins[j]?.map fun p => if s.levelOf p then 1 else 0) ∧
          t.rspq = s.rspq ++ [0x000000#24 ++ len ++ 0x00000000#32]) ∧
      ((∃ p ∈ pins, (s.pin p).mode ≠ .input) →
        ∃ t, exec (.gpioInm len) s = .next t ∧ SameHost s t ∧ SameTx s t ∧ SameGpio s t ∧ SameBus s t ∧
          t.rxlen = 0 ∧ (∀ j, t.rxByte j = none) ∧ t.rspq = s.rspq ++ [0x4000000000000000])) ∧
    (∀ i, i < len.toNat → s.txByte i = none → (∀ j, j < i → s.txByte j ≠ none) →
      exec (.gpioInm len) s = .refused (.txbufNoValue i))

/-! ### GPIO edge commands -/

/-- R180: an input pin that is not armed is armed; any other pin is a ModeError and nothing changes. -/
def Obligations.ArmStartsDetection : Prop :=
  ∀ (s : State) (pin : Byte) (edge : Edge) (cb : Option Byte) (code : BitVec 2),
    code = (match edge with | .rising => 1 | .falling => 2 | .both => 3) →
    decodeWord (ofFields 0x24 (0#5 ++ BitVec.ofBool cb.isSome ++ code) pin (cb.getD 0) 0) =
      some (.gpioArm pin edge cb) ∧
    ((s.pin pin).mode = .input ∧ (s.pin pin).armed = false →
      ∃ t, exec (.gpioArm pin edge cb) s = .next t ∧ OnlyPinChanged pin s t ∧
        t.pin pin = { s.pin pin with
          armed := true, edge := code, cbv := cb ≠ none, cbtag := (match cb with | some tag => tag | none => 0), pending := false } ∧
        t.rspq = s.rspq ++ [0x0000000000000000]) ∧
    ((s.pin pin).mode ≠ .input ∨ (s.pin pin).armed = true →
      exec (.gpioArm pin edge cb) s = .next { s with rspq := s.rspq ++ [0x4000000000000000] })

/-- R184, R199: total; mode, pull and latch stay, queued callbacks of the pin go, and an outstanding wait's Cancelled comes
before the OK. -/
def Obligations.DisarmClearsTheTracker : Prop :=
  ∀ (s : State) (pin : Byte),
    decodeWord (ofFields 0x25 0 pin 0 0) = some (.gpioDisarm pin) ∧
    ∃ t, exec (.gpioDisarm pin) s = .next t ∧ OnlyTrackerChanged pin s t ∧
      t.pin pin = { s.pin pin with
        armed := false, edge := 0, pending := false, cbv := false, cbtag := 0, waiting := false,
        waitLeft := if (s.pin pin).waiting then 0 else (s.pin pin).waitLeft } ∧
      t.cbq = s.cbq.filter (· ≠ pin) ∧
      t.rspq = s.rspq ++ (if (s.pin pin).waiting then [0x6400#16 ++ pin ++ 0x0000000000#40] else []) ++
        [0x0000000000000000]

/-- R186: an armed pin gets the callback, its edge type and pending flag stay; an unarmed pin is a ModeError. -/
def Obligations.SetCallbackKeepsTheEdge : Prop :=
  ∀ (s : State) (pin tag : Byte),
    decodeWord (ofFields 0x26 0 pin tag 0) = some (.gpioSetcb pin tag) ∧
    ((s.pin pin).armed = true →
      ∃ t, exec (.gpioSetcb pin tag) s = .next t ∧ OnlyPinChanged pin s t ∧
        t.pin pin = { s.pin pin with cbv := true, cbtag := tag } ∧ t.rspq = s.rspq ++ [0x0000000000000000]) ∧
    ((s.pin pin).armed = false →
      exec (.gpioSetcb pin tag) s = .next { s with rspq := s.rspq ++ [0x4000000000000000] })

/-- R188: total; returns PENDING and clears it. -/
def Obligations.PollReadsAndClears : Prop :=
  ∀ (s : State) (pin : Byte),
    decodeWord (ofFields 0x27 0 pin 0 0) = some (.gpioPoll pin) ∧
    ∃ t, exec (.gpioPoll pin) s = .next t ∧ OnlyPinChanged pin s t ∧
      t.pin pin = { s.pin pin with pending := false } ∧
      t.rspq = s.rspq ++ [if (s.pin pin).pending then 0x0800000000000001 else 0x0800000000000000]

/-- R190: accepted iff the pin is an input armed for the same edge with no wait; then no response yet. Otherwise ModeError
at once. -/
def Obligations.WaitTakesTheSlot : Prop :=
  ∀ (s : State) (pin : Byte) (edge : Edge) (timeout : Word) (code : BitVec 2),
    code = (match edge with | .rising => 1 | .falling => 2 | .both => 3) →
    decodeWord (ofFields 0x28 (0#6 ++ code) pin 0 timeout) = some (.gpioWait pin edge timeout) ∧
    ((s.pin pin).mode = .input ∧ (s.pin pin).armed = true ∧ (s.pin pin).edge = code ∧
        (s.pin pin).waiting = false →
      ∃ t, exec (.gpioWait pin edge timeout) s = .next t ∧ OnlyPinChanged pin s t ∧
        t.pin pin = { s.pin pin with waiting := true, waitLeft := timeout } ∧ t.rspq = s.rspq) ∧
    ((s.pin pin).mode ≠ .input ∨ (s.pin pin).armed = false ∨ (s.pin pin).edge ≠ code ∨
        (s.pin pin).waiting = true →
      exec (.gpioWait pin edge timeout) s = .next { s with rspq := s.rspq ++ [0x4000000000000000] })

/-! ### The other agents -/

/-- R195: a change of level is always a step; a level already present is none. A detected edge sets PENDING and queues a
callback if one is attached. -/
def Obligations.PinChangeDetectsEdges : Prop :=
  ∀ (s : State) (p : Byte) (v : Bool),
    (v = s.levelOf p → runAgent (.pinChange p v) s = .fault (.notEnabled (.pinChange p v))) ∧
    (v ≠ s.levelOf p →
      ∃ t, runAgent (.pinChange p v) s = .next t ∧ t.levelOf p = v ∧ (∀ q, q ≠ p → t.levelOf q = s.levelOf q) ∧
        SameOtherPins p s t ∧ SameHost s t ∧ SameTx s t ∧ SameRx s t ∧ SameBus s t ∧ t.rspq = s.rspq ∧
        t.evq = s.evq ∧
        (if (s.pin p).armed = true ∧
            (v = true ∧ (s.pin p).edge.getLsbD 0 = true ∨ v = false ∧ (s.pin p).edge.getLsbD 1 = true) then
          t.pin p = { s.pin p with pending := true } ∧ t.cbq = s.cbq ++ (if (s.pin p).cbv then [p] else [])
        else t.pin p = s.pin p ∧ t.cbq = s.cbq))

/-- R196, R227: enabled iff CBQ is not empty; the event carries the tag at delivery, and PENDING is cleared. -/
def Obligations.DeliveryEmitsTheHead : Prop :=
  ∀ s : State,
    (s.cbq = [] → runAgent .deliver s = .fault (.notEnabled .deliver)) ∧
    (∀ p rest, s.cbq = p :: rest →
      ∃ t, runAgent .deliver s = .next t ∧ t.cbq = rest ∧ t.evq = s.evq ++ [⟨p, (s.pin p).cbtag⟩] ∧
        t.pin p = { s.pin p with pending := false } ∧ SameOtherPins p s t ∧ t.level = s.level ∧ SameHost s t ∧
        SameTx s t ∧ SameRx s t ∧ SameBus s t ∧ t.rspq = s.rspq)

/-- R197: enabled iff some pin waits with ticks left; every such counter loses one and nothing else changes. -/
def Obligations.TickStepsEveryRunningCounter : Prop :=
  ∀ s : State, sparseWf (some Pin.atReset) 256 s.pins = true →
    ((∀ p, (s.pin p).waiting = false ∨ (s.pin p).waitLeft = 0) → runAgent .tick s = .fault (.notEnabled .tick)) ∧
    ((∃ p, (s.pin p).waiting = true ∧ (s.pin p).waitLeft ≠ 0) →
      ∃ t, runAgent .tick s = .next t ∧
        (∀ p, t.pin p = if (s.pin p).waiting = true ∧ (s.pin p).waitLeft ≠ 0 then
          { s.pin p with waitLeft := (s.pin p).waitLeft - 1 } else s.pin p) ∧
        t.level = s.level ∧ SameEvents s t ∧ SameHost s t ∧ SameTx s t ∧ SameRx s t ∧ SameBus s t ∧
        t.rspq = s.rspq)

/-- R198: `CompleteOK(p)` is a step iff the pin waits and PENDING is set; PENDING stays. -/
def Obligations.CompleteOkAnswersTheWait : Prop :=
  ∀ (s : State) (p : Byte),
    ((s.pin p).waiting = true ∧ (s.pin p).pending = true →
      ∃ t, runAgent (.completeOk p) s = .next t ∧ OnlyPinChanged p s t ∧
        t.pin p = { s.pin p with waiting := false, waitLeft := 0 } ∧
        t.rspq = s.rspq ++ [0x0400#16 ++ p ++ 0x0000000000#40]) ∧
    ((s.pin p).waiting = false ∨ (s.pin p).pending = false →
      runAgent (.completeOk p) s = .fault (.notEnabled (.completeOk p)))

/-- R198, R215: `CompleteTimeout(p)` is a step iff the pin waits and no tick is left; the pin stays armed. -/
def Obligations.CompleteTimeoutAnswersTheWait : Prop :=
  ∀ (s : State) (p : Byte),
    ((s.pin p).waiting = true ∧ (s.pin p).waitLeft = 0 →
      ∃ t, runAgent (.completeTimeout p) s = .next t ∧ OnlyPinChanged p s t ∧
        t.pin p = { s.pin p with waiting := false } ∧
        t.rspq = s.rspq ++ [0x5400#16 ++ p ++ 0x0000000000#40]) ∧
    ((s.pin p).waiting = false ∨ (s.pin p).waitLeft ≠ 0 →
      runAgent (.completeTimeout p) s = .fault (.notEnabled (.completeTimeout p)))

/-- R46: reading RSP or EVT returns the oldest unread entry and removes it from the unread ones; with none unread there is
no value and the model refuses. -/
def Obligations.PortReadsReturnTheOldestUnread : Prop :=
  ∀ s : State,
    (∀ w, s.rspq[s.rspSeen]? = some w →
      runAgent .rspRead s = .next { s with rspSeen := s.rspSeen + 1, hostLog := s.hostLog ++ [.rsp w] }) ∧
    (s.rspq.length ≤ s.rspSeen → runAgent .rspRead s = .refused .rspNoneUnread) ∧
    (∀ e, s.evq[s.evtSeen]? = some e →
      runAgent .evtRead s =
        .next { s with evtSeen := s.evtSeen + 1, hostLog := s.hostLog ++ [.evt (e.pin ++ e.tag)] }) ∧
    (s.evq.length ≤ s.evtSeen → runAgent .evtRead s = .refused .evtNoneUnread)

/-- R40, R41, R46: the host writes and reads single buffer bytes 0 to 254; index 255 and above does not exist, and a byte
of RXBUF without a value is refused. -/
def Obligations.BufferPortsReachTheBytes : Prop :=
  ∀ (s : State) (i : Nat) (v : Byte),
    (i < 255 → ∃ t, runAgent (.txWrite i v) s = .next t ∧ t.txByte i = some v ∧
      (∀ j, j ≠ i → t.txByte j = s.txByte j) ∧ SameRx s t ∧ SameGpio s t ∧ SameHost s t ∧ SameBus s t ∧
      t.rspq = s.rspq) ∧
    (255 ≤ i → runAgent (.txWrite i v) s = .fault (.bufferIndex i) ∧
      runAgent (.rxRead i) s = .fault (.bufferIndex i)) ∧
    (i < 255 → ∀ b, s.rxByte i = some b →
      runAgent (.rxRead i) s = .next { s with hostLog := s.hostLog ++ [.rx i b] }) ∧
    (i < 255 → s.rxByte i = none → runAgent (.rxRead i) s = .refused (.rxbufNoValue i))

/-! ### Invariants of every step -/

/-- R32: the six invariants of every pin record hold after reset, whatever the parameters and pin levels, and are kept by
every step of every agent. -/
def Obligations.EveryStepKeepsTheTrackerInvariants : Prop :=
  (∀ pf lv, TrackersOk (.powerOn pf lv)) ∧ ∀ s t : State, TrackersOk s → step s = .next t → TrackersOk t

/-- Every step keeps the buffers, the fixture's registers and the pin array in canonical form. -/
def Obligations.EveryStepKeepsMemoryCanonical : Prop :=
  ∀ s t : State, MemoryOk s → step s = .next t → MemoryOk t

/-- R41: exactly the bytes of RXBUF below RXLEN hold a value, after every step. -/
def Obligations.EveryStepKeepsRxlenExact : Prop :=
  ∀ s t : State, RxOk s → step s = .next t → RxOk t

/-- R94, R95: every response word any step appends has the form the spec gives it. -/
def Obligations.EveryStepAppendsWellFormedResponses : Prop :=
  ∀ s t : State, ResponsesOk s → step s = .next t → ResponsesOk t

/-! ### Rules of the whole machine -/

/-- R29, R79: PENDING goes from 0 to 1 only by the edge detector on a detected transition of that pin. -/
def Obligations.PendingIsSetOnlyByADetectedEdge : Prop :=
  ∀ (s t : State) (p : Byte), step s = .next t → (s.pin p).pending = false → (t.pin p).pending = true →
    detects p s

/-- R24 to R31, R221: which step writes which field of a pin record. The clause on clearing PENDING asks for the
invariants of R32, since GPIO.ARM clears it too on an unarmed pin, where it is then already 0 (R180); which steps set it is
`PendingIsSetOnlyByADetectedEdge`. -/
def Obligations.PinFieldsHaveTheirWriters : Prop :=
  ∀ (s t : State) (p : Byte), step s = .next t →
    ((t.pin p).mode ≠ (s.pin p).mode ∨ (t.pin p).pull ≠ (s.pin p).pull →
      ∃ mode pull init, issuedInstr s = some (.gpioSetup p mode pull init)) ∧
    ((t.pin p).out ≠ (s.pin p).out →
      (∃ mode pull init, issuedInstr s = some (.gpioSetup p mode pull init)) ∨
        ∃ value, issuedInstr s = some (.gpioOut p value)) ∧
    ((s.pin p).armed = false → (t.pin p).armed = true → ∃ edge cb, issuedInstr s = some (.gpioArm p edge cb)) ∧
    ((s.pin p).armed = true → (t.pin p).armed = false → clearsTracker p s) ∧
    ((t.pin p).edge ≠ (s.pin p).edge →
      clearsTracker p s ∨ ∃ edge cb, issuedInstr s = some (.gpioArm p edge cb)) ∧
    ((t.pin p).cbv ≠ (s.pin p).cbv ∨ (t.pin p).cbtag ≠ (s.pin p).cbtag →
      clearsTracker p s ∨ (∃ edge cb, issuedInstr s = some (.gpioArm p edge cb)) ∨
        ∃ tag, issuedInstr s = some (.gpioSetcb p tag)) ∧
    ((s.pin p).waiting = false → (t.pin p).waiting = true →
      ∃ edge timeout, issuedInstr s = some (.gpioWait p edge timeout)) ∧
    ((s.pin p).waiting = true → (t.pin p).waiting = false →
      clearsTracker p s ∨ mover s = some (.completeOk p) ∨ mover s = some (.completeTimeout p)) ∧
    ((t.pin p).waitLeft ≠ (s.pin p).waitLeft →
      clearsTracker p s ∨ (∃ edge timeout, issuedInstr s = some (.gpioWait p edge timeout)) ∨
        mover s = some .tick ∨ mover s = some (.completeOk p)) ∧
    (PinOk s p → (s.pin p).pending = true → (t.pin p).pending = false →
      clearsTracker p s ∨ issuedInstr s = some (.gpioPoll p) ∨ mover s = some .deliver ∧ s.cbq.head? = some p)

/-- R33: a level changes only by the environment's step on that pin; no command writes it. -/
def Obligations.LevelChangesOnlyByTheEnvironment : Prop :=
  ∀ (s t : State) (p : Byte), step s = .next t → t.levelOf p ≠ s.levelOf p →
    mover s = some (.pinChange p (t.levelOf p))

/-- R43, R44, R45: the three logs only grow; so do the requests sent, by at most one a step (R62). -/
def Obligations.LogsOnlyGrow : Prop :=
  ∀ s t : State, step s = .next t →
    s.rspq <+: t.rspq ∧ s.evq <+: t.evq ∧ s.trace <+: t.trace ∧ s.requests <+: t.requests ∧
      t.requests.length ≤ s.requests.length + 1

/-- R2: the two units share no state. A GPIO command does the same whatever the transport and trace hold, and leaves them
alone; an I2C command does the same whatever the pins, levels, callbacks and events hold, and leaves those alone. -/
def Obligations.TheTwoUnitsShareNoState : Prop :=
  ∀ (i : Instr) (s t g : State), exec i s = .next t →
    ((opOf (encode i)).toNat < 0x20 →
      exec i { s with pins := g.pins, level := g.level, cbq := g.cbq, evq := g.evq } =
        .next { t with pins := g.pins, level := g.level, cbq := g.cbq, evq := g.evq }) ∧
    (0x20 ≤ (opOf (encode i)).toNat →
      exec i { s with bus := g.bus, requests := g.requests, draws := g.draws, trace := g.trace } =
        .next { t with bus := g.bus, requests := g.requests, draws := g.draws, trace := g.trace })

/-- R42, R43, R196, R200 item 3: every step but a GPIO.SETUP or GPIO.DISARM keeps the line of triggered callbacks,
delivered then queued, except that a detected edge on a pin with a callback appends that pin, once. -/
def Obligations.CallbacksComeOncePerEdgeInOrder : Prop :=
  ∀ s t : State, step s = .next t → (∀ p, ¬ clearsTracker p s) →
    (callbackLine t = callbackLine s ∧ ∀ p, detects p s → (s.pin p).cbv = false) ∨
    ∃ p, detects p s ∧ (s.pin p).cbv = true ∧ callbackLine t = callbackLine s ++ [p]

/-- R197, R198, R261: while a wait stays outstanding, its counter is TIMEOUT less the ticks that have happened, so it
cannot time out before TIMEOUT ticks. -/
def Obligations.NoTimeoutBeforeItsTicks : Prop :=
  ∀ (n : Nat) (s t : State) (p : Byte), Sys2Proof.core.run n s = .next t → waitsThrough p n s = true →
    (t.pin p).waitLeft.toNat = (s.pin p).waitLeft.toNat - ticksWithin n s ∧
    (∀ u, runAgent (.completeTimeout p) t = .next u → (s.pin p).waitLeft.toNat ≤ ticksWithin n s)

/-- R245: once every command is issued, the default schedule of an empty agenda (the model's choice, log 2) ends the run:
every wait completes and every queued callback is delivered. -/
def Obligations.DefaultScheduleEndsTheRun : Prop :=
  ∀ s : State, sparseWf (some Pin.atReset) 256 s.pins = true → s.agenda = [] → s.prog.length ≤ s.cp →
    ∃ n t, Sys2Proof.core.run n s = .next t ∧ Ended t
end

