-- ==== Sys2Proof/Laws/Bits.lean ====
section
/-! SUPPORT. The fields of command words and response words, read back. -/

namespace Sys2Proof

section Fields

variable (op flg a b : Byte) (imm : Word)

/-- The bits of a command word. -/
theorem getLsbD_ofFields (i : Nat) : (ofFields op flg a b imm).getLsbD i =
    if i < 32 then imm.getLsbD i else if i < 40 then b.getLsbD (i - 32) else if i < 48 then a.getLsbD (i - 40)
    else if i < 56 then flg.getLsbD (i - 48) else op.getLsbD (i - 56) := by
  simp only [ofFields, BitVec.getLsbD_append, Nat.sub_sub]
  split_ifs <;> first | rfl | omega

@[simp] theorem opOf_ofFields : opOf (ofFields op flg a b imm) = op := by
  refine BitVec.eq_of_getLsbD_eq fun i hi => ?_
  simp only [opOf, BitVec.getLsbD_extractLsb', getLsbD_ofFields, hi]
  split_ifs <;> first | omega | simp

@[simp] theorem flgOf_ofFields : flgOf (ofFields op flg a b imm) = flg := by
  refine BitVec.eq_of_getLsbD_eq fun i hi => ?_
  simp only [flgOf, BitVec.getLsbD_extractLsb', getLsbD_ofFields, hi]
  split_ifs <;> first | omega | simp

@[simp] theorem aOf_ofFields : aOf (ofFields op flg a b imm) = a := by
  refine BitVec.eq_of_getLsbD_eq fun i hi => ?_
  simp only [aOf, BitVec.getLsbD_extractLsb', getLsbD_ofFields, hi]
  split_ifs <;> first | omega | simp

@[simp] theorem bOf_ofFields : bOf (ofFields op flg a b imm) = b := by
  refine BitVec.eq_of_getLsbD_eq fun i hi => ?_
  simp only [bOf, BitVec.getLsbD_extractLsb', getLsbD_ofFields, hi]
  split_ifs <;> first | omega | simp

@[simp] theorem immOf_ofFields : immOf (ofFields op flg a b imm) = imm := by
  refine BitVec.eq_of_getLsbD_eq fun i hi => ?_
  simp only [immOf, BitVec.getLsbD_extractLsb', getLsbD_ofFields, hi]
  split_ifs <;> first | omega | simp

@[simp] theorem lenOf_ofFields : lenOf (ofFields op flg a b imm) = imm.setWidth 8 := by
  refine BitVec.eq_of_getLsbD_eq fun i hi => ?_
  simp only [lenOf, BitVec.getLsbD_extractLsb', getLsbD_ofFields, hi, BitVec.getLsbD_setWidth]
  split_ifs <;> first | omega | simp

/-- A word is made of its fields. -/
theorem ofFields_fields (w : Quad) : ofFields (opOf w) (flgOf w) (aOf w) (bOf w) (immOf w) = w := by
  refine BitVec.eq_of_getLsbD_eq fun i hi => ?_
  simp only [getLsbD_ofFields, opOf, flgOf, aOf, bOf, immOf, BitVec.getLsbD_extractLsb']
  split_ifs
  · rw [decide_eq_true (by omega : i < 32), Bool.true_and, Nat.zero_add]
  · rw [decide_eq_true (by omega : i - 32 < 8), Bool.true_and, Nat.add_sub_cancel' (by omega)]
  · rw [decide_eq_true (by omega : i - 40 < 8), Bool.true_and, Nat.add_sub_cancel' (by omega)]
  · rw [decide_eq_true (by omega : i - 48 < 8), Bool.true_and, Nat.add_sub_cancel' (by omega)]
  · rw [decide_eq_true (by omega : i - 56 < 8), Bool.true_and, Nat.add_sub_cancel' (by omega)]

/-- Two words agree iff their fields do. -/
theorem ofFields_inj {op' flg' a' b' : Byte} {imm' : Word} :
    ofFields op flg a b imm = ofFields op' flg' a' b' imm' ↔
      op = op' ∧ flg = flg' ∧ a = a' ∧ b = b' ∧ imm = imm' := by
  constructor
  · intro h
    exact ⟨by simpa using congrArg opOf h, by simpa using congrArg flgOf h, by simpa using congrArg aOf h,
      by simpa using congrArg bOf h, by simpa using congrArg immOf h⟩
  · rintro ⟨rfl, rfl, rfl, rfl, rfl⟩; rfl

/-- Masking a word masks each field. -/
theorem ofFields_and (op' flg' a' b' : Byte) (imm' : Word) :
    ofFields op flg a b imm &&& ofFields op' flg' a' b' imm' =
      ofFields (op &&& op') (flg &&& flg') (a &&& a') (b &&& b') (imm &&& imm') := by
  refine BitVec.eq_of_getLsbD_eq fun i _ => ?_
  simp only [BitVec.getLsbD_and, getLsbD_ofFields]
  split_ifs <;> rfl

end Fields

/-- A word fits a row iff each of its fields, masked, is the row's. -/
theorem Row.fits_ofFields {po pf pa pb : Byte} {pi : Word} {mo mf ma mb : Byte} {mi : Word} {r : Row}
    (hp : r.pattern = ofFields po pf pa pb pi) (hm : r.mask = ofFields mo mf ma mb mi) (op flg a b : Byte) (imm : Word) :
    r.fits (ofFields op flg a b imm) = true ↔
      op &&& mo = po ∧ flg &&& mf = pf ∧ a &&& ma = pa ∧ b &&& mb = pb ∧ imm &&& mi = pi := by
  simp only [Row.fits, decide_eq_true_eq, hp, hm, ofFields_and, ofFields_inj]

namespace Machine

/-! ### Response words -/

section Response

variable (st : Status) (v y : Bool) (pin rxlen : Byte) (val : Word)

/-- The bits of a response word. -/
theorem getLsbD_responseWord (i : Nat) : (responseWord st v y pin rxlen val).getLsbD i =
    if i < 32 then val.getLsbD i else if i < 40 then rxlen.getLsbD (i - 32) else if i < 48 then pin.getLsbD (i - 40)
    else if i < 58 then false else if i < 59 then y else if i < 60 then v else st.code.getLsbD (i - 60) := by
  simp only [responseWord, BitVec.getLsbD_append, Nat.sub_sub, BitVec.getLsbD_ofBool, BitVec.getLsbD_zero]
  have h1 : i = 58 → i - 58 = 0 := by omega
  split_ifs <;> first
    | rfl
    | omega
    | (rw [show i - 58 = 0 by omega]; simp)
    | (rw [show i - 59 = 0 by omega]; simp)

@[simp] theorem rspSt_responseWord : rspSt (responseWord st v y pin rxlen val) = st.code := by
  refine BitVec.eq_of_getLsbD_eq fun i hi => ?_
  simp only [rspSt, BitVec.getLsbD_extractLsb', getLsbD_responseWord, hi]
  split_ifs <;> first | omega | simp

@[simp] theorem rspV_responseWord : rspV (responseWord st v y pin rxlen val) = v := by
  rw [rspV, getLsbD_responseWord]; rfl

@[simp] theorem rspY_responseWord : rspY (responseWord st v y pin rxlen val) = y := by
  rw [rspY, getLsbD_responseWord]; rfl

@[simp] theorem rspZero_responseWord : rspZero (responseWord st v y pin rxlen val) = 0 := by
  refine BitVec.eq_of_getLsbD_eq fun i hi => ?_
  simp only [rspZero, BitVec.getLsbD_extractLsb', getLsbD_responseWord, hi]
  split_ifs <;> first | omega | simp

@[simp] theorem rspPin_responseWord : rspPin (responseWord st v y pin rxlen val) = pin := by
  refine BitVec.eq_of_getLsbD_eq fun i hi => ?_
  simp only [rspPin, BitVec.getLsbD_extractLsb', getLsbD_responseWord, hi]
  split_ifs <;> first | omega | simp

@[simp] theorem rspRxlen_responseWord : rspRxlen (responseWord st v y pin rxlen val) = rxlen := by
  refine BitVec.eq_of_getLsbD_eq fun i hi => ?_
  simp only [rspRxlen, BitVec.getLsbD_extractLsb', getLsbD_responseWord, hi]
  split_ifs <;> first | omega | simp

@[simp] theorem rspVal_responseWord : rspVal (responseWord st v y pin rxlen val) = val := by
  refine BitVec.eq_of_getLsbD_eq fun i hi => ?_
  simp only [rspVal, BitVec.getLsbD_extractLsb', getLsbD_responseWord, hi]
  split_ifs <;> first | omega | simp

end Response

/-! The response words in the literal form the statements use (`95_test_vectors.md`). -/

theorem okResponse_eq : okResponse = 0x0000000000000000 := by decide

theorem errorResponse_eq (e : Status) : errorResponse e = e.code ++ 0#60 := by cases e <;> decide

theorem valueResponse_eq (r : Int) : valueResponse r = 0x08000000#32 ++ resultVal r := by
  unfold valueResponse responseWord
  rfl

theorem bytesResponse_eq (n : Byte) : bytesResponse n = 0x000000#24 ++ n ++ 0x00000000#32 := by
  unfold bytesResponse responseWord
  rfl

theorem lateResponse_ok (p : Byte) : lateResponse .ok p = 0x0400#16 ++ p ++ 0x0000000000#40 := by
  revert p
  decide +kernel

theorem lateResponse_timeout (p : Byte) : lateResponse .timeoutError p = 0x5400#16 ++ p ++ 0x0000000000#40 := by
  revert p
  decide +kernel

theorem lateResponse_cancelled (p : Byte) : lateResponse .cancelled p = 0x6400#16 ++ p ++ 0x0000000000#40 := by
  revert p
  decide +kernel

end Machine

end Sys2Proof
end

