-- ==== Sys2Proof/Laws/Sparse.lean ====
section
/-! SUPPORT. The laws of sparse maps: read after write, and that every operation keeps the canonical form. -/

namespace Sys2Proof.Machine

variable {α : Type}

/-! ### Reading after an update -/

@[simp] theorem sparseFind_insert_same (m : List (Nat × α)) (a : Nat) (v : α) :
    sparseFind (sparseInsert m a v) a = some v := by
  induction m with
  | nil => simp [sparseInsert, sparseFind]
  | cons c m ih =>
    obtain ⟨k, w⟩ := c
    simp only [sparseInsert]
    split
    · simp [sparseFind]
    · split
      · simp [sparseFind]
      · rename_i h; simp [sparseFind, ih, Ne.symm h]

theorem sparseFind_insert_other (m : List (Nat × α)) {a b : Nat} (v : α) (h : b ≠ a) :
    sparseFind (sparseInsert m a v) b = sparseFind m b := by
  induction m with
  | nil => simp [sparseInsert, sparseFind, Ne.symm h]
  | cons c m ih =>
    obtain ⟨k, w⟩ := c
    simp only [sparseInsert]
    split
    · simp [sparseFind, Ne.symm h]
    · split
      · rename_i e; subst e; simp [sparseFind, Ne.symm h]
      · simp [sparseFind, ih]

@[simp] theorem sparseFind_erase_same (m : List (Nat × α)) (a : Nat) : sparseFind (sparseErase m a) a = none := by
  induction m with
  | nil => rfl
  | cons c m ih =>
    by_cases h : c.1 = a
    · simpa [sparseErase, h] using ih
    · simpa [sparseErase, h, sparseFind] using ih

theorem sparseFind_erase_other (m : List (Nat × α)) {a b : Nat} (h : b ≠ a) :
    sparseFind (sparseErase m a) b = sparseFind m b := by
  induction m with
  | nil => rfl
  | cons c m ih =>
    by_cases hc : c.1 = a
    · have hb : c.1 ≠ b := by rw [hc]; exact Ne.symm h
      simpa [sparseErase, hc, sparseFind, hb, Ne.symm h] using ih
    · simp only [sparseErase] at ih
      simp [sparseErase, hc, sparseFind, ih]

/-- A map whose unlisted keys read as `d` reads back what was set. -/
@[simp] theorem sparseFind_set_same [DecidableEq α] (d : α) (m : List (Nat × α)) (a : Nat) (v : α) :
    (sparseFind (sparseSet d m a v) a).getD d = v := by
  unfold sparseSet
  split
  · rename_i h; simp [h]
  · simp

theorem sparseFind_set_other [DecidableEq α] (d : α) (m : List (Nat × α)) {a b : Nat} (v : α) (h : b ≠ a) :
    sparseFind (sparseSet d m a v) b = sparseFind m b := by
  unfold sparseSet
  split
  · exact sparseFind_erase_other m h
  · exact sparseFind_insert_other m v h

/-! ### The canonical form -/

theorem sparseRising_mono {lo lo' : Nat} (h : lo' ≤ lo) {m : List (Nat × α)} (hm : sparseRising lo m = true) :
    sparseRising lo' m = true := by
  cases m with
  | nil => rfl
  | cons c m => simp only [sparseRising, Bool.and_eq_true, decide_eq_true_eq] at *; exact ⟨by omega, hm.2⟩

theorem sparseRising_insert {lo a : Nat} (v : α) (ha : lo ≤ a) {m : List (Nat × α)} (hm : sparseRising lo m = true) :
    sparseRising lo (sparseInsert m a v) = true := by
  induction m generalizing lo with
  | nil => simp [sparseInsert, sparseRising, ha]
  | cons c m ih =>
    obtain ⟨k, w⟩ := c
    simp only [sparseRising, Bool.and_eq_true, decide_eq_true_eq] at hm
    simp only [sparseInsert]
    split
    · simp only [sparseRising, Bool.and_eq_true, decide_eq_true_eq]
      exact ⟨ha, by omega, hm.2⟩
    · split
      · simp only [sparseRising, Bool.and_eq_true, decide_eq_true_eq]
        rename_i e; subst e; exact ⟨ha, hm.2⟩
      · simp only [sparseRising, Bool.and_eq_true, decide_eq_true_eq]
        exact ⟨hm.1, ih (by omega) hm.2⟩

theorem sparseRising_filter {lo : Nat} (f : Nat × α → Bool) {m : List (Nat × α)} (hm : sparseRising lo m = true) :
    sparseRising lo (m.filter f) = true := by
  induction m generalizing lo with
  | nil => rfl
  | cons c m ih =>
    obtain ⟨k, w⟩ := c
    simp only [sparseRising, Bool.and_eq_true, decide_eq_true_eq] at hm
    simp only [List.filter]
    split
    · simp only [sparseRising, Bool.and_eq_true, decide_eq_true_eq]
      exact ⟨hm.1, ih hm.2⟩
    · exact sparseRising_mono (by omega) (ih hm.2)

/-- An entry of an updated map is the new one or an old one. -/
theorem mem_sparseInsert {m : List (Nat × α)} {a : Nat} {v : α} {c : Nat × α} (h : c ∈ sparseInsert m a v) :
    c = (a, v) ∨ c ∈ m := by
  induction m with
  | nil => simpa [sparseInsert] using h
  | cons e m ih =>
    obtain ⟨k, w⟩ := e
    simp only [sparseInsert] at h
    split at h
    · simpa using h
    · split at h
      · rcases List.mem_cons.1 h with h | h
        · exact .inl h
        · exact .inr (List.mem_cons_of_mem _ h)
      · rcases List.mem_cons.1 h with h | h
        · exact .inr (by simp [h])
        · rcases ih h with h | h
          · exact .inl h
          · exact .inr (List.mem_cons_of_mem _ h)

theorem sparseFind_eq_none_of_rising {lo a : Nat} (h : a < lo) {m : List (Nat × α)} (hm : sparseRising lo m = true) :
    sparseFind m a = none := by
  induction m generalizing lo with
  | nil => rfl
  | cons c m ih =>
    simp only [sparseRising, Bool.and_eq_true, decide_eq_true_eq] at hm
    simp only [sparseFind]
    rw [if_neg (by omega)]
    exact ih (by omega : a < c.1 + 1) hm.2

/-- In a map with rising keys, what a key reads as is what is listed. -/
theorem sparseFind_eq_some_iff {lo : Nat} {m : List (Nat × α)} (hm : sparseRising lo m = true) {a : Nat} {v : α} :
    sparseFind m a = some v ↔ (a, v) ∈ m := by
  induction m generalizing lo with
  | nil => simp [sparseFind]
  | cons c m ih =>
    obtain ⟨k, w⟩ := c
    simp only [sparseRising, Bool.and_eq_true, decide_eq_true_eq] at hm
    simp only [sparseFind, List.mem_cons, Prod.mk.injEq]
    by_cases h : k = a
    · subst h
      have hn : (k, v) ∉ m := fun hmem => by
        have := (ih hm.2).2 hmem
        rw [sparseFind_eq_none_of_rising (by omega) hm.2] at this
        cases this
      simp [hn, eq_comm]
    · simp [h, Ne.symm h, ih hm.2]

variable [DecidableEq α]

theorem sparseWf_iff {u : Option α} {size : Nat} {m : List (Nat × α)} :
    sparseWf u size m = true ↔ sparseRising 0 m = true ∧ ∀ c ∈ m, c.1 < size ∧ some c.2 ≠ u := by
  simp only [sparseWf, Bool.and_eq_true, List.all_eq_true, decide_eq_true_eq]

/-- Inserting a value that is not the unlisted one keeps the canonical form. -/
theorem sparseWf_insert {u : Option α} {size a : Nat} {v : α} {m : List (Nat × α)} (hm : sparseWf u size m = true)
    (ha : a < size) (hv : some v ≠ u) : sparseWf u size (sparseInsert m a v) = true := by
  rw [sparseWf_iff] at *
  refine ⟨sparseRising_insert v (by omega) hm.1, fun c hc => ?_⟩
  rcases mem_sparseInsert hc with rfl | hc
  · exact ⟨ha, hv⟩
  · exact hm.2 c hc

theorem sparseWf_erase {u : Option α} {size : Nat} (a : Nat) {m : List (Nat × α)} (hm : sparseWf u size m = true) :
    sparseWf u size (sparseErase m a) = true := by
  rw [sparseWf_iff] at *
  exact ⟨sparseRising_filter _ hm.1, fun c hc => hm.2 c (List.mem_filter.1 hc).1⟩

/-- Setting a key keeps the canonical form, whatever the value. -/
theorem sparseWf_set {d : α} {size a : Nat} (v : α) {m : List (Nat × α)} (hm : sparseWf (some d) size m = true)
    (ha : a < size) : sparseWf (some d) size (sparseSet d m a v) = true := by
  unfold sparseSet
  split
  · exact sparseWf_erase a hm
  · exact sparseWf_insert hm ha (by simpa)

end Sys2Proof.Machine
end

