-- ==== Sys2Proof/Laws/Memory.lean ====
section
/-! SUPPORT. The buffers and the fixture's registers: what a read finds after a write, and that every memory operation
keeps the canonical form. -/

namespace Sys2Proof.Machine

/-! ### Cells written in a row -/

theorem sparseFind_cellsFrom (bs : List Byte) (i j : Nat) :
    sparseFind (cellsFrom i bs) j = if i ≤ j then bs[j - i]? else none := by
  induction bs generalizing i with
  | nil => simp [cellsFrom, sparseFind]
  | cons b bs ih =>
    simp only [cellsFrom, sparseFind, ih]
    rcases Nat.lt_trichotomy i j with h | h | h
    · rw [if_neg (by omega), if_pos (by omega), if_pos (by omega), show j - i = (j - (i + 1)) + 1 by omega,
        List.getElem?_cons_succ]
    · subst h; simp
    · rw [if_neg (by omega), if_neg (by omega), if_neg (by omega)]

theorem sparseRising_cellsFrom (bs : List Byte) (i : Nat) : sparseRising i (cellsFrom i bs) = true := by
  induction bs generalizing i with
  | nil => rfl
  | cons b bs ih => simp [cellsFrom, sparseRising, ih]

theorem cellsFrom_lt {bs : List Byte} {i : Nat} {c : Host.Cell} (h : c ∈ cellsFrom i bs) : c.1 < i + bs.length := by
  induction bs generalizing i with
  | nil => simp [cellsFrom] at h
  | cons b bs ih =>
    simp only [cellsFrom, List.mem_cons] at h
    rcases h with rfl | h
    · simp
    · have := ih h; simp only [List.length_cons]; omega

/-- A block of at most `size` bytes is a canonical buffer. -/
theorem memoryWf_cellsFrom {bs : List Byte} {size : Nat} (h : bs.length ≤ size) :
    Memory.wf none size (cellsFrom 0 bs) = true := by
  refine sparseWf_iff.2 ⟨sparseRising_cellsFrom bs 0, fun c hc => ⟨?_, by simp⟩⟩
  have := cellsFrom_lt hc; omega

/-- Reading a buffer after `bs` was written from index `i` on. -/
theorem sparseFind_bufferWrite (bs : List Byte) (m : List Host.Cell) (i j : Nat) :
    sparseFind (bufferWrite m i bs) j = if i ≤ j ∧ j < i + bs.length then bs[j - i]? else sparseFind m j := by
  induction bs generalizing m i with
  | nil => simp only [bufferWrite, List.length_nil]; rw [if_neg (by omega)]
  | cons b bs ih =>
    simp only [bufferWrite, ih, List.length_cons]
    rcases Nat.lt_trichotomy i j with h | h | h
    · by_cases hl : j < i + (bs.length + 1)
      · rw [if_pos (by omega), if_pos (by omega), show j - i = (j - (i + 1)) + 1 by omega, List.getElem?_cons_succ]
      · rw [if_neg (by omega), if_neg (by omega), sparseFind_insert_other _ _ (by omega)]
    · subst h; rw [if_neg (by omega), if_pos (by omega)]; simp
    · rw [if_neg (by omega), if_neg (by omega), sparseFind_insert_other _ _ (by omega)]

/-- A write inside the buffer keeps it canonical. -/
theorem memoryWf_bufferWrite {bs : List Byte} {m : List Host.Cell} {size i : Nat} (h : i + bs.length ≤ size)
    (hm : Memory.wf none size m = true) : Memory.wf none size (bufferWrite m i bs) = true := by
  induction bs generalizing m i with
  | nil => exact hm
  | cons b bs ih =>
    simp only [List.length_cons] at h
    exact ih (by omega) (sparseWf_insert hm (by omega) (by simp))

/-! ### The fixture's registers -/

theorem regRead_set (m : List Host.Cell) (a b : Nat) (v : Byte) :
    regRead (sparseSet 0 m (a % Config.fixtureSize) v) b =
      if b % 256 = a % 256 then v else regRead m b := by
  simp only [regRead, Config.fixtureSize]
  split
  · rename_i h; rw [h]; exact sparseFind_set_same 0 m _ v
  · rename_i h; rw [sparseFind_set_other 0 m v h]

/-- Reading a register after the fixture stored `bs` from register `a` on, modulo 256. -/
theorem regRead_regWrite (bs : List Byte) (m : List Host.Cell) (a b : Nat) (hb : b < 256) (hl : bs.length ≤ 256) :
    regRead (regWrite m a bs) b = (bs[(b + 256 - a % 256) % 256]?).getD (regRead m b) := by
  induction bs generalizing m a with
  | nil => simp [regWrite]
  | cons v bs ih =>
    simp only [List.length_cons] at hl
    simp only [regWrite]
    rw [ih _ _ (by omega), regRead_set]
    by_cases h : b % 256 = a % 256
    · rw [if_pos h, show (b + 256 - a % 256) % 256 = 0 by omega, show (b + 256 - (a + 1) % 256) % 256 = 255 by omega,
        List.getElem?_eq_none (by omega)]
      simp
    · rw [if_neg h, show (b + 256 - a % 256) % 256 = (b + 256 - (a + 1) % 256) % 256 + 1 by omega,
        List.getElem?_cons_succ]

theorem memoryWf_regWrite (bs : List Byte) {m : List Host.Cell} (a : Nat)
    (hm : Memory.wf (some 0) Config.fixtureSize m = true) :
    Memory.wf (some 0) Config.fixtureSize (regWrite m a bs) = true := by
  induction bs generalizing m a with
  | nil => exact hm
  | cons b bs ih => exact ih _ (sparseWf_set b hm (Nat.mod_lt _ (by decide)))

end Sys2Proof.Machine
end

