-- ==== Sys2Proof/Laws/State.lean ====
section
/-! SUPPORT. What each update of the state leaves in each field: one lemma per field per update, true by definition. -/

namespace Sys2Proof.Machine

variable (s : State)

/-! `State.respond` -/

@[simp] theorem State.respond_platform (w : Quad) : (s.respond w).platform = s.platform := rfl
@[simp] theorem State.respond_prog (w : Quad) : (s.respond w).prog = s.prog := rfl
@[simp] theorem State.respond_cp (w : Quad) : (s.respond w).cp = s.cp := rfl
@[simp] theorem State.respond_agenda (w : Quad) : (s.respond w).agenda = s.agenda := rfl
@[simp] theorem State.respond_hostLog (w : Quad) : (s.respond w).hostLog = s.hostLog := rfl
@[simp] theorem State.respond_rspSeen (w : Quad) : (s.respond w).rspSeen = s.rspSeen := rfl
@[simp] theorem State.respond_evtSeen (w : Quad) : (s.respond w).evtSeen = s.evtSeen := rfl
@[simp] theorem State.respond_txbuf (w : Quad) : (s.respond w).txbuf = s.txbuf := rfl
@[simp] theorem State.respond_rxbuf (w : Quad) : (s.respond w).rxbuf = s.rxbuf := rfl
@[simp] theorem State.respond_rxlen (w : Quad) : (s.respond w).rxlen = s.rxlen := rfl
@[simp] theorem State.respond_pins (w : Quad) : (s.respond w).pins = s.pins := rfl
@[simp] theorem State.respond_level (w : Quad) : (s.respond w).level = s.level := rfl
@[simp] theorem State.respond_cbq (w : Quad) : (s.respond w).cbq = s.cbq := rfl
@[simp] theorem State.respond_evq (w : Quad) : (s.respond w).evq = s.evq := rfl
@[simp] theorem State.respond_trace (w : Quad) : (s.respond w).trace = s.trace := rfl
@[simp] theorem State.respond_rspq (w : Quad) : (s.respond w).rspq = s.rspq ++ [w] := rfl
@[simp] theorem State.respond_bus (w : Quad) : (s.respond w).bus = s.bus := rfl
@[simp] theorem State.respond_requests (w : Quad) : (s.respond w).requests = s.requests := rfl
@[simp] theorem State.respond_draws (w : Quad) : (s.respond w).draws = s.draws := rfl
@[simp] theorem State.respond_pin (w : Quad) (q : Byte) : (s.respond w).pin q = s.pin q := rfl
@[simp] theorem State.respond_levelOf (w : Quad) (q : Byte) : (s.respond w).levelOf q = s.levelOf q := rfl
@[simp] theorem State.respond_pinValid (w : Quad) (q : Byte) : (s.respond w).pinValid q = s.pinValid q := rfl
@[simp] theorem State.respond_txByte (w : Quad) (j : Nat) : (s.respond w).txByte j = s.txByte j := rfl
@[simp] theorem State.respond_rxByte (w : Quad) (j : Nat) : (s.respond w).rxByte j = s.rxByte j := rfl

/-! `State.raise` -/

@[simp] theorem State.raise_platform (e : Status) : (s.raise e).platform = s.platform := rfl
@[simp] theorem State.raise_prog (e : Status) : (s.raise e).prog = s.prog := rfl
@[simp] theorem State.raise_cp (e : Status) : (s.raise e).cp = s.cp := rfl
@[simp] theorem State.raise_agenda (e : Status) : (s.raise e).agenda = s.agenda := rfl
@[simp] theorem State.raise_hostLog (e : Status) : (s.raise e).hostLog = s.hostLog := rfl
@[simp] theorem State.raise_rspSeen (e : Status) : (s.raise e).rspSeen = s.rspSeen := rfl
@[simp] theorem State.raise_evtSeen (e : Status) : (s.raise e).evtSeen = s.evtSeen := rfl
@[simp] theorem State.raise_txbuf (e : Status) : (s.raise e).txbuf = s.txbuf := rfl
@[simp] theorem State.raise_rxbuf (e : Status) : (s.raise e).rxbuf = s.rxbuf := rfl
@[simp] theorem State.raise_rxlen (e : Status) : (s.raise e).rxlen = s.rxlen := rfl
@[simp] theorem State.raise_pins (e : Status) : (s.raise e).pins = s.pins := rfl
@[simp] theorem State.raise_level (e : Status) : (s.raise e).level = s.level := rfl
@[simp] theorem State.raise_cbq (e : Status) : (s.raise e).cbq = s.cbq := rfl
@[simp] theorem State.raise_evq (e : Status) : (s.raise e).evq = s.evq := rfl
@[simp] theorem State.raise_trace (e : Status) : (s.raise e).trace = s.trace := rfl
@[simp] theorem State.raise_rspq (e : Status) : (s.raise e).rspq = s.rspq ++ [errorResponse e] := rfl
@[simp] theorem State.raise_bus (e : Status) : (s.raise e).bus = s.bus := rfl
@[simp] theorem State.raise_requests (e : Status) : (s.raise e).requests = s.requests := rfl
@[simp] theorem State.raise_draws (e : Status) : (s.raise e).draws = s.draws := rfl
@[simp] theorem State.raise_pin (e : Status) (q : Byte) : (s.raise e).pin q = s.pin q := rfl
@[simp] theorem State.raise_levelOf (e : Status) (q : Byte) : (s.raise e).levelOf q = s.levelOf q := rfl
@[simp] theorem State.raise_pinValid (e : Status) (q : Byte) : (s.raise e).pinValid q = s.pinValid q := rfl
@[simp] theorem State.raise_txByte (e : Status) (j : Nat) : (s.raise e).txByte j = s.txByte j := rfl
@[simp] theorem State.raise_rxByte (e : Status) (j : Nat) : (s.raise e).rxByte j = s.rxByte j := rfl

/-! `State.traced` -/

@[simp] theorem State.traced_platform (r : TraceRec) : (s.traced r).platform = s.platform := rfl
@[simp] theorem State.traced_prog (r : TraceRec) : (s.traced r).prog = s.prog := rfl
@[simp] theorem State.traced_cp (r : TraceRec) : (s.traced r).cp = s.cp := rfl
@[simp] theorem State.traced_agenda (r : TraceRec) : (s.traced r).agenda = s.agenda := rfl
@[simp] theorem State.traced_hostLog (r : TraceRec) : (s.traced r).hostLog = s.hostLog := rfl
@[simp] theorem State.traced_rspSeen (r : TraceRec) : (s.traced r).rspSeen = s.rspSeen := rfl
@[simp] theorem State.traced_evtSeen (r : TraceRec) : (s.traced r).evtSeen = s.evtSeen := rfl
@[simp] theorem State.traced_txbuf (r : TraceRec) : (s.traced r).txbuf = s.txbuf := rfl
@[simp] theorem State.traced_rxbuf (r : TraceRec) : (s.traced r).rxbuf = s.rxbuf := rfl
@[simp] theorem State.traced_rxlen (r : TraceRec) : (s.traced r).rxlen = s.rxlen := rfl
@[simp] theorem State.traced_pins (r : TraceRec) : (s.traced r).pins = s.pins := rfl
@[simp] theorem State.traced_level (r : TraceRec) : (s.traced r).level = s.level := rfl
@[simp] theorem State.traced_cbq (r : TraceRec) : (s.traced r).cbq = s.cbq := rfl
@[simp] theorem State.traced_evq (r : TraceRec) : (s.traced r).evq = s.evq := rfl
@[simp] theorem State.traced_trace (r : TraceRec) : (s.traced r).trace = s.trace ++ [r] := rfl
@[simp] theorem State.traced_rspq (r : TraceRec) : (s.traced r).rspq = s.rspq := rfl
@[simp] theorem State.traced_bus (r : TraceRec) : (s.traced r).bus = s.bus := rfl
@[simp] theorem State.traced_requests (r : TraceRec) : (s.traced r).requests = s.requests := rfl
@[simp] theorem State.traced_draws (r : TraceRec) : (s.traced r).draws = s.draws := rfl
@[simp] theorem State.traced_pin (r : TraceRec) (q : Byte) : (s.traced r).pin q = s.pin q := rfl
@[simp] theorem State.traced_levelOf (r : TraceRec) (q : Byte) : (s.traced r).levelOf q = s.levelOf q := rfl
@[simp] theorem State.traced_pinValid (r : TraceRec) (q : Byte) : (s.traced r).pinValid q = s.pinValid q := rfl
@[simp] theorem State.traced_txByte (r : TraceRec) (j : Nat) : (s.traced r).txByte j = s.txByte j := rfl
@[simp] theorem State.traced_rxByte (r : TraceRec) (j : Nat) : (s.traced r).rxByte j = s.rxByte j := rfl

/-! `State.sent` -/

@[simp] theorem State.sent_platform (r : Request) : (s.sent r).platform = s.platform := rfl
@[simp] theorem State.sent_prog (r : Request) : (s.sent r).prog = s.prog := rfl
@[simp] theorem State.sent_cp (r : Request) : (s.sent r).cp = s.cp := rfl
@[simp] theorem State.sent_agenda (r : Request) : (s.sent r).agenda = s.agenda := rfl
@[simp] theorem State.sent_hostLog (r : Request) : (s.sent r).hostLog = s.hostLog := rfl
@[simp] theorem State.sent_rspSeen (r : Request) : (s.sent r).rspSeen = s.rspSeen := rfl
@[simp] theorem State.sent_evtSeen (r : Request) : (s.sent r).evtSeen = s.evtSeen := rfl
@[simp] theorem State.sent_txbuf (r : Request) : (s.sent r).txbuf = s.txbuf := rfl
@[simp] theorem State.sent_rxbuf (r : Request) : (s.sent r).rxbuf = s.rxbuf := rfl
@[simp] theorem State.sent_rxlen (r : Request) : (s.sent r).rxlen = s.rxlen := rfl
@[simp] theorem State.sent_pins (r : Request) : (s.sent r).pins = s.pins := rfl
@[simp] theorem State.sent_level (r : Request) : (s.sent r).level = s.level := rfl
@[simp] theorem State.sent_cbq (r : Request) : (s.sent r).cbq = s.cbq := rfl
@[simp] theorem State.sent_evq (r : Request) : (s.sent r).evq = s.evq := rfl
@[simp] theorem State.sent_trace (r : Request) : (s.sent r).trace = s.trace := rfl
@[simp] theorem State.sent_rspq (r : Request) : (s.sent r).rspq = s.rspq := rfl
@[simp] theorem State.sent_bus (r : Request) : (s.sent r).bus = s.bus.after s.platform.nativeLE r := rfl
@[simp] theorem State.sent_requests (r : Request) : (s.sent r).requests = s.requests ++ [r] := rfl
@[simp] theorem State.sent_draws (r : Request) : (s.sent r).draws = s.draws + 1 := rfl
@[simp] theorem State.sent_pin (r : Request) (q : Byte) : (s.sent r).pin q = s.pin q := rfl
@[simp] theorem State.sent_levelOf (r : Request) (q : Byte) : (s.sent r).levelOf q = s.levelOf q := rfl
@[simp] theorem State.sent_pinValid (r : Request) (q : Byte) : (s.sent r).pinValid q = s.pinValid q := rfl
@[simp] theorem State.sent_txByte (r : Request) (j : Nat) : (s.sent r).txByte j = s.txByte j := rfl
@[simp] theorem State.sent_rxByte (r : Request) (j : Nat) : (s.sent r).rxByte j = s.rxByte j := rfl

/-! `State.setPin` -/

@[simp] theorem State.setPin_platform (p : Byte) (r : Pin) : (s.setPin p r).platform = s.platform := rfl
@[simp] theorem State.setPin_prog (p : Byte) (r : Pin) : (s.setPin p r).prog = s.prog := rfl
@[simp] theorem State.setPin_cp (p : Byte) (r : Pin) : (s.setPin p r).cp = s.cp := rfl
@[simp] theorem State.setPin_agenda (p : Byte) (r : Pin) : (s.setPin p r).agenda = s.agenda := rfl
@[simp] theorem State.setPin_hostLog (p : Byte) (r : Pin) : (s.setPin p r).hostLog = s.hostLog := rfl
@[simp] theorem State.setPin_rspSeen (p : Byte) (r : Pin) : (s.setPin p r).rspSeen = s.rspSeen := rfl
@[simp] theorem State.setPin_evtSeen (p : Byte) (r : Pin) : (s.setPin p r).evtSeen = s.evtSeen := rfl
@[simp] theorem State.setPin_txbuf (p : Byte) (r : Pin) : (s.setPin p r).txbuf = s.txbuf := rfl
@[simp] theorem State.setPin_rxbuf (p : Byte) (r : Pin) : (s.setPin p r).rxbuf = s.rxbuf := rfl
@[simp] theorem State.setPin_rxlen (p : Byte) (r : Pin) : (s.setPin p r).rxlen = s.rxlen := rfl
@[simp] theorem State.setPin_pins (p : Byte) (r : Pin) : (s.setPin p r).pins = sparseSet Pin.atReset s.pins p.toNat r := rfl
@[simp] theorem State.setPin_level (p : Byte) (r : Pin) : (s.setPin p r).level = s.level := rfl
@[simp] theorem State.setPin_cbq (p : Byte) (r : Pin) : (s.setPin p r).cbq = s.cbq := rfl
@[simp] theorem State.setPin_evq (p : Byte) (r : Pin) : (s.setPin p r).evq = s.evq := rfl
@[simp] theorem State.setPin_trace (p : Byte) (r : Pin) : (s.setPin p r).trace = s.trace := rfl
@[simp] theorem State.setPin_rspq (p : Byte) (r : Pin) : (s.setPin p r).rspq = s.rspq := rfl
@[simp] theorem State.setPin_bus (p : Byte) (r : Pin) : (s.setPin p r).bus = s.bus := rfl
@[simp] theorem State.setPin_requests (p : Byte) (r : Pin) : (s.setPin p r).requests = s.requests := rfl
@[simp] theorem State.setPin_draws (p : Byte) (r : Pin) : (s.setPin p r).draws = s.draws := rfl
@[simp] theorem State.setPin_levelOf (p : Byte) (r : Pin) (q : Byte) : (s.setPin p r).levelOf q = s.levelOf q := rfl
@[simp] theorem State.setPin_pinValid (p : Byte) (r : Pin) (q : Byte) : (s.setPin p r).pinValid q = s.pinValid q := rfl
@[simp] theorem State.setPin_txByte (p : Byte) (r : Pin) (j : Nat) : (s.setPin p r).txByte j = s.txByte j := rfl
@[simp] theorem State.setPin_rxByte (p : Byte) (r : Pin) (j : Nat) : (s.setPin p r).rxByte j = s.rxByte j := rfl

/-! `State.setLevel` -/

@[simp] theorem State.setLevel_platform (p : Byte) (v : Bool) : (s.setLevel p v).platform = s.platform := rfl
@[simp] theorem State.setLevel_prog (p : Byte) (v : Bool) : (s.setLevel p v).prog = s.prog := rfl
@[simp] theorem State.setLevel_cp (p : Byte) (v : Bool) : (s.setLevel p v).cp = s.cp := rfl
@[simp] theorem State.setLevel_agenda (p : Byte) (v : Bool) : (s.setLevel p v).agenda = s.agenda := rfl
@[simp] theorem State.setLevel_hostLog (p : Byte) (v : Bool) : (s.setLevel p v).hostLog = s.hostLog := rfl
@[simp] theorem State.setLevel_rspSeen (p : Byte) (v : Bool) : (s.setLevel p v).rspSeen = s.rspSeen := rfl
@[simp] theorem State.setLevel_evtSeen (p : Byte) (v : Bool) : (s.setLevel p v).evtSeen = s.evtSeen := rfl
@[simp] theorem State.setLevel_txbuf (p : Byte) (v : Bool) : (s.setLevel p v).txbuf = s.txbuf := rfl
@[simp] theorem State.setLevel_rxbuf (p : Byte) (v : Bool) : (s.setLevel p v).rxbuf = s.rxbuf := rfl
@[simp] theorem State.setLevel_rxlen (p : Byte) (v : Bool) : (s.setLevel p v).rxlen = s.rxlen := rfl
@[simp] theorem State.setLevel_pins (p : Byte) (v : Bool) : (s.setLevel p v).pins = s.pins := rfl
@[simp] theorem State.setLevel_cbq (p : Byte) (v : Bool) : (s.setLevel p v).cbq = s.cbq := rfl
@[simp] theorem State.setLevel_evq (p : Byte) (v : Bool) : (s.setLevel p v).evq = s.evq := rfl
@[simp] theorem State.setLevel_trace (p : Byte) (v : Bool) : (s.setLevel p v).trace = s.trace := rfl
@[simp] theorem State.setLevel_rspq (p : Byte) (v : Bool) : (s.setLevel p v).rspq = s.rspq := rfl
@[simp] theorem State.setLevel_bus (p : Byte) (v : Bool) : (s.setLevel p v).bus = s.bus := rfl
@[simp] theorem State.setLevel_requests (p : Byte) (v : Bool) : (s.setLevel p v).requests = s.requests := rfl
@[simp] theorem State.setLevel_draws (p : Byte) (v : Bool) : (s.setLevel p v).draws = s.draws := rfl
@[simp] theorem State.setLevel_pin (p : Byte) (v : Bool) (q : Byte) : (s.setLevel p v).pin q = s.pin q := rfl
@[simp] theorem State.setLevel_pinValid (p : Byte) (v : Bool) (q : Byte) : (s.setLevel p v).pinValid q = s.pinValid q := rfl
@[simp] theorem State.setLevel_txByte (p : Byte) (v : Bool) (j : Nat) : (s.setLevel p v).txByte j = s.txByte j := rfl
@[simp] theorem State.setLevel_rxByte (p : Byte) (v : Bool) (j : Nat) : (s.setLevel p v).rxByte j = s.rxByte j := rfl

/-! `State.setRx` -/

@[simp] theorem State.setRx_platform (bs : List Byte) : (s.setRx bs).platform = s.platform := rfl
@[simp] theorem State.setRx_prog (bs : List Byte) : (s.setRx bs).prog = s.prog := rfl
@[simp] theorem State.setRx_cp (bs : List Byte) : (s.setRx bs).cp = s.cp := rfl
@[simp] theorem State.setRx_agenda (bs : List Byte) : (s.setRx bs).agenda = s.agenda := rfl
@[simp] theorem State.setRx_hostLog (bs : List Byte) : (s.setRx bs).hostLog = s.hostLog := rfl
@[simp] theorem State.setRx_rspSeen (bs : List Byte) : (s.setRx bs).rspSeen = s.rspSeen := rfl
@[simp] theorem State.setRx_evtSeen (bs : List Byte) : (s.setRx bs).evtSeen = s.evtSeen := rfl
@[simp] theorem State.setRx_txbuf (bs : List Byte) : (s.setRx bs).txbuf = s.txbuf := rfl
@[simp] theorem State.setRx_rxbuf (bs : List Byte) : (s.setRx bs).rxbuf = cellsFrom 0 bs := rfl
@[simp] theorem State.setRx_rxlen (bs : List Byte) : (s.setRx bs).rxlen = BitVec.ofNat 8 bs.length := rfl
@[simp] theorem State.setRx_pins (bs : List Byte) : (s.setRx bs).pins = s.pins := rfl
@[simp] theorem State.setRx_level (bs : List Byte) : (s.setRx bs).level = s.level := rfl
@[simp] theorem State.setRx_cbq (bs : List Byte) : (s.setRx bs).cbq = s.cbq := rfl
@[simp] theorem State.setRx_evq (bs : List Byte) : (s.setRx bs).evq = s.evq := rfl
@[simp] theorem State.setRx_trace (bs : List Byte) : (s.setRx bs).trace = s.trace := rfl
@[simp] theorem State.setRx_rspq (bs : List Byte) : (s.setRx bs).rspq = s.rspq := rfl
@[simp] theorem State.setRx_bus (bs : List Byte) : (s.setRx bs).bus = s.bus := rfl
@[simp] theorem State.setRx_requests (bs : List Byte) : (s.setRx bs).requests = s.requests := rfl
@[simp] theorem State.setRx_draws (bs : List Byte) : (s.setRx bs).draws = s.draws := rfl
@[simp] theorem State.setRx_pin (bs : List Byte) (q : Byte) : (s.setRx bs).pin q = s.pin q := rfl
@[simp] theorem State.setRx_levelOf (bs : List Byte) (q : Byte) : (s.setRx bs).levelOf q = s.levelOf q := rfl
@[simp] theorem State.setRx_pinValid (bs : List Byte) (q : Byte) : (s.setRx bs).pinValid q = s.pinValid q := rfl
@[simp] theorem State.setRx_txByte (bs : List Byte) (j : Nat) : (s.setRx bs).txByte j = s.txByte j := rfl

/-! `State.clearRx` -/

@[simp] theorem State.clearRx_platform : (s.clearRx).platform = s.platform := rfl
@[simp] theorem State.clearRx_prog : (s.clearRx).prog = s.prog := rfl
@[simp] theorem State.clearRx_cp : (s.clearRx).cp = s.cp := rfl
@[simp] theorem State.clearRx_agenda : (s.clearRx).agenda = s.agenda := rfl
@[simp] theorem State.clearRx_hostLog : (s.clearRx).hostLog = s.hostLog := rfl
@[simp] theorem State.clearRx_rspSeen : (s.clearRx).rspSeen = s.rspSeen := rfl
@[simp] theorem State.clearRx_evtSeen : (s.clearRx).evtSeen = s.evtSeen := rfl
@[simp] theorem State.clearRx_txbuf : (s.clearRx).txbuf = s.txbuf := rfl
@[simp] theorem State.clearRx_rxbuf : (s.clearRx).rxbuf = [] := rfl
@[simp] theorem State.clearRx_rxlen : (s.clearRx).rxlen = 0 := rfl
@[simp] theorem State.clearRx_pins : (s.clearRx).pins = s.pins := rfl
@[simp] theorem State.clearRx_level : (s.clearRx).level = s.level := rfl
@[simp] theorem State.clearRx_cbq : (s.clearRx).cbq = s.cbq := rfl
@[simp] theorem State.clearRx_evq : (s.clearRx).evq = s.evq := rfl
@[simp] theorem State.clearRx_trace : (s.clearRx).trace = s.trace := rfl
@[simp] theorem State.clearRx_rspq : (s.clearRx).rspq = s.rspq := rfl
@[simp] theorem State.clearRx_bus : (s.clearRx).bus = s.bus := rfl
@[simp] theorem State.clearRx_requests : (s.clearRx).requests = s.requests := rfl
@[simp] theorem State.clearRx_draws : (s.clearRx).draws = s.draws := rfl
@[simp] theorem State.clearRx_pin (q : Byte) : (s.clearRx).pin q = s.pin q := rfl
@[simp] theorem State.clearRx_levelOf (q : Byte) : (s.clearRx).levelOf q = s.levelOf q := rfl
@[simp] theorem State.clearRx_pinValid (q : Byte) : (s.clearRx).pinValid q = s.pinValid q := rfl
@[simp] theorem State.clearRx_txByte (j : Nat) : (s.clearRx).txByte j = s.txByte j := rfl

/-! `State.writeTx` -/

@[simp] theorem State.writeTx_platform (i : Nat) (bs : List Byte) : (s.writeTx i bs).platform = s.platform := rfl
@[simp] theorem State.writeTx_prog (i : Nat) (bs : List Byte) : (s.writeTx i bs).prog = s.prog := rfl
@[simp] theorem State.writeTx_cp (i : Nat) (bs : List Byte) : (s.writeTx i bs).cp = s.cp := rfl
@[simp] theorem State.writeTx_agenda (i : Nat) (bs : List Byte) : (s.writeTx i bs).agenda = s.agenda := rfl
@[simp] theorem State.writeTx_hostLog (i : Nat) (bs : List Byte) : (s.writeTx i bs).hostLog = s.hostLog := rfl
@[simp] theorem State.writeTx_rspSeen (i : Nat) (bs : List Byte) : (s.writeTx i bs).rspSeen = s.rspSeen := rfl
@[simp] theorem State.writeTx_evtSeen (i : Nat) (bs : List Byte) : (s.writeTx i bs).evtSeen = s.evtSeen := rfl
@[simp] theorem State.writeTx_txbuf (i : Nat) (bs : List Byte) : (s.writeTx i bs).txbuf = bufferWrite s.txbuf i bs := rfl
@[simp] theorem State.writeTx_rxbuf (i : Nat) (bs : List Byte) : (s.writeTx i bs).rxbuf = s.rxbuf := rfl
@[simp] theorem State.writeTx_rxlen (i : Nat) (bs : List Byte) : (s.writeTx i bs).rxlen = s.rxlen := rfl
@[simp] theorem State.writeTx_pins (i : Nat) (bs : List Byte) : (s.writeTx i bs).pins = s.pins := rfl
@[simp] theorem State.writeTx_level (i : Nat) (bs : List Byte) : (s.writeTx i bs).level = s.level := rfl
@[simp] theorem State.writeTx_cbq (i : Nat) (bs : List Byte) : (s.writeTx i bs).cbq = s.cbq := rfl
@[simp] theorem State.writeTx_evq (i : Nat) (bs : List Byte) : (s.writeTx i bs).evq = s.evq := rfl
@[simp] theorem State.writeTx_trace (i : Nat) (bs : List Byte) : (s.writeTx i bs).trace = s.trace := rfl
@[simp] theorem State.writeTx_rspq (i : Nat) (bs : List Byte) : (s.writeTx i bs).rspq = s.rspq := rfl
@[simp] theorem State.writeTx_bus (i : Nat) (bs : List Byte) : (s.writeTx i bs).bus = s.bus := rfl
@[simp] theorem State.writeTx_requests (i : Nat) (bs : List Byte) : (s.writeTx i bs).requests = s.requests := rfl
@[simp] theorem State.writeTx_draws (i : Nat) (bs : List Byte) : (s.writeTx i bs).draws = s.draws := rfl
@[simp] theorem State.writeTx_pin (i : Nat) (bs : List Byte) (q : Byte) : (s.writeTx i bs).pin q = s.pin q := rfl
@[simp] theorem State.writeTx_levelOf (i : Nat) (bs : List Byte) (q : Byte) : (s.writeTx i bs).levelOf q = s.levelOf q := rfl
@[simp] theorem State.writeTx_pinValid (i : Nat) (bs : List Byte) (q : Byte) : (s.writeTx i bs).pinValid q = s.pinValid q := rfl
@[simp] theorem State.writeTx_rxByte (i : Nat) (bs : List Byte) (j : Nat) : (s.writeTx i bs).rxByte j = s.rxByte j := rfl

/-! `State.dropCallbacks` -/

@[simp] theorem State.dropCallbacks_platform (p : Byte) : (s.dropCallbacks p).platform = s.platform := rfl
@[simp] theorem State.dropCallbacks_prog (p : Byte) : (s.dropCallbacks p).prog = s.prog := rfl
@[simp] theorem State.dropCallbacks_cp (p : Byte) : (s.dropCallbacks p).cp = s.cp := rfl
@[simp] theorem State.dropCallbacks_agenda (p : Byte) : (s.dropCallbacks p).agenda = s.agenda := rfl
@[simp] theorem State.dropCallbacks_hostLog (p : Byte) : (s.dropCallbacks p).hostLog = s.hostLog := rfl
@[simp] theorem State.dropCallbacks_rspSeen (p : Byte) : (s.dropCallbacks p).rspSeen = s.rspSeen := rfl
@[simp] theorem State.dropCallbacks_evtSeen (p : Byte) : (s.dropCallbacks p).evtSeen = s.evtSeen := rfl
@[simp] theorem State.dropCallbacks_txbuf (p : Byte) : (s.dropCallbacks p).txbuf = s.txbuf := rfl
@[simp] theorem State.dropCallbacks_rxbuf (p : Byte) : (s.dropCallbacks p).rxbuf = s.rxbuf := rfl
@[simp] theorem State.dropCallbacks_rxlen (p : Byte) : (s.dropCallbacks p).rxlen = s.rxlen := rfl
@[simp] theorem State.dropCallbacks_pins (p : Byte) : (s.dropCallbacks p).pins = s.pins := rfl
@[simp] theorem State.dropCallbacks_level (p : Byte) : (s.dropCallbacks p).level = s.level := rfl
@[simp] theorem State.dropCallbacks_cbq (p : Byte) : (s.dropCallbacks p).cbq = s.cbq.filter fun q => q != p := rfl
@[simp] theorem State.dropCallbacks_evq (p : Byte) : (s.dropCallbacks p).evq = s.evq := rfl
@[simp] theorem State.dropCallbacks_trace (p : Byte) : (s.dropCallbacks p).trace = s.trace := rfl
@[simp] theorem State.dropCallbacks_rspq (p : Byte) : (s.dropCallbacks p).rspq = s.rspq := rfl
@[simp] theorem State.dropCallbacks_bus (p : Byte) : (s.dropCallbacks p).bus = s.bus := rfl
@[simp] theorem State.dropCallbacks_requests (p : Byte) : (s.dropCallbacks p).requests = s.requests := rfl
@[simp] theorem State.dropCallbacks_draws (p : Byte) : (s.dropCallbacks p).draws = s.draws := rfl
@[simp] theorem State.dropCallbacks_pin (p : Byte) (q : Byte) : (s.dropCallbacks p).pin q = s.pin q := rfl
@[simp] theorem State.dropCallbacks_levelOf (p : Byte) (q : Byte) : (s.dropCallbacks p).levelOf q = s.levelOf q := rfl
@[simp] theorem State.dropCallbacks_pinValid (p : Byte) (q : Byte) : (s.dropCallbacks p).pinValid q = s.pinValid q := rfl
@[simp] theorem State.dropCallbacks_txByte (p : Byte) (j : Nat) : (s.dropCallbacks p).txByte j = s.txByte j := rfl
@[simp] theorem State.dropCallbacks_rxByte (p : Byte) (j : Nat) : (s.dropCallbacks p).rxByte j = s.rxByte j := rfl

/-! `State.heard` -/

@[simp] theorem State.heard_platform (v : HostRead) : (s.heard v).platform = s.platform := rfl
@[simp] theorem State.heard_prog (v : HostRead) : (s.heard v).prog = s.prog := rfl
@[simp] theorem State.heard_cp (v : HostRead) : (s.heard v).cp = s.cp := rfl
@[simp] theorem State.heard_agenda (v : HostRead) : (s.heard v).agenda = s.agenda := rfl
@[simp] theorem State.heard_hostLog (v : HostRead) : (s.heard v).hostLog = s.hostLog ++ [v] := rfl
@[simp] theorem State.heard_rspSeen (v : HostRead) : (s.heard v).rspSeen = s.rspSeen := rfl
@[simp] theorem State.heard_evtSeen (v : HostRead) : (s.heard v).evtSeen = s.evtSeen := rfl
@[simp] theorem State.heard_txbuf (v : HostRead) : (s.heard v).txbuf = s.txbuf := rfl
@[simp] theorem State.heard_rxbuf (v : HostRead) : (s.heard v).rxbuf = s.rxbuf := rfl
@[simp] theorem State.heard_rxlen (v : HostRead) : (s.heard v).rxlen = s.rxlen := rfl
@[simp] theorem State.heard_pins (v : HostRead) : (s.heard v).pins = s.pins := rfl
@[simp] theorem State.heard_level (v : HostRead) : (s.heard v).level = s.level := rfl
@[simp] theorem State.heard_cbq (v : HostRead) : (s.heard v).cbq = s.cbq := rfl
@[simp] theorem State.heard_evq (v : HostRead) : (s.heard v).evq = s.evq := rfl
@[simp] theorem State.heard_trace (v : HostRead) : (s.heard v).trace = s.trace := rfl
@[simp] theorem State.heard_rspq (v : HostRead) : (s.heard v).rspq = s.rspq := rfl
@[simp] theorem State.heard_bus (v : HostRead) : (s.heard v).bus = s.bus := rfl
@[simp] theorem State.heard_requests (v : HostRead) : (s.heard v).requests = s.requests := rfl
@[simp] theorem State.heard_draws (v : HostRead) : (s.heard v).draws = s.draws := rfl
@[simp] theorem State.heard_pin (v : HostRead) (q : Byte) : (s.heard v).pin q = s.pin q := rfl
@[simp] theorem State.heard_levelOf (v : HostRead) (q : Byte) : (s.heard v).levelOf q = s.levelOf q := rfl
@[simp] theorem State.heard_pinValid (v : HostRead) (q : Byte) : (s.heard v).pinValid q = s.pinValid q := rfl
@[simp] theorem State.heard_txByte (v : HostRead) (j : Nat) : (s.heard v).txByte j = s.txByte j := rfl
@[simp] theorem State.heard_rxByte (v : HostRead) (j : Nat) : (s.heard v).rxByte j = s.rxByte j := rfl

/-! `State.fetched` -/

@[simp] theorem State.fetched_platform (c : Command) : (s.fetched c).platform = s.platform := rfl
@[simp] theorem State.fetched_prog (c : Command) : (s.fetched c).prog = s.prog := rfl
@[simp] theorem State.fetched_cp (c : Command) : (s.fetched c).cp = s.cp + 1 := rfl
@[simp] theorem State.fetched_agenda (c : Command) : (s.fetched c).agenda = s.agenda := rfl
@[simp] theorem State.fetched_hostLog (c : Command) : (s.fetched c).hostLog = s.hostLog := rfl
@[simp] theorem State.fetched_rspSeen (c : Command) : (s.fetched c).rspSeen = s.rspSeen := rfl
@[simp] theorem State.fetched_evtSeen (c : Command) : (s.fetched c).evtSeen = s.evtSeen := rfl
@[simp] theorem State.fetched_txbuf (c : Command) : (s.fetched c).txbuf = bufferWrite s.txbuf 0 c.payload := rfl
@[simp] theorem State.fetched_rxbuf (c : Command) : (s.fetched c).rxbuf = s.rxbuf := rfl
@[simp] theorem State.fetched_rxlen (c : Command) : (s.fetched c).rxlen = s.rxlen := rfl
@[simp] theorem State.fetched_pins (c : Command) : (s.fetched c).pins = s.pins := rfl
@[simp] theorem State.fetched_level (c : Command) : (s.fetched c).level = s.level := rfl
@[simp] theorem State.fetched_cbq (c : Command) : (s.fetched c).cbq = s.cbq := rfl
@[simp] theorem State.fetched_evq (c : Command) : (s.fetched c).evq = s.evq := rfl
@[simp] theorem State.fetched_trace (c : Command) : (s.fetched c).trace = s.trace := rfl
@[simp] theorem State.fetched_rspq (c : Command) : (s.fetched c).rspq = s.rspq := rfl
@[simp] theorem State.fetched_bus (c : Command) : (s.fetched c).bus = s.bus := rfl
@[simp] theorem State.fetched_requests (c : Command) : (s.fetched c).requests = s.requests := rfl
@[simp] theorem State.fetched_draws (c : Command) : (s.fetched c).draws = s.draws := rfl
@[simp] theorem State.fetched_pin (c : Command) (q : Byte) : (s.fetched c).pin q = s.pin q := rfl
@[simp] theorem State.fetched_levelOf (c : Command) (q : Byte) : (s.fetched c).levelOf q = s.levelOf q := rfl
@[simp] theorem State.fetched_pinValid (c : Command) (q : Byte) : (s.fetched c).pinValid q = s.pinValid q := rfl
@[simp] theorem State.fetched_rxByte (c : Command) (j : Nat) : (s.fetched c).rxByte j = s.rxByte j := rfl

end Sys2Proof.Machine
end

