-- ==== Sys2Proof/Laws/Ops.lean ====
section
/-! SUPPORT. One lemma per shared operation: what it does to pins, levels and buffers, and everything a command's common
shape can do. -/

namespace Sys2Proof.Machine

variable (s : State)

/-! ### Pins and levels -/

theorem byte_toNat_ne {p q : Byte} (h : q ≠ p) : q.toNat ≠ p.toNat := fun e => h (BitVec.eq_of_toNat_eq e)

@[simp] theorem State.pin_setPin_same (p : Byte) (r : Pin) : (s.setPin p r).pin p = r := by
  simp only [State.pin, State.setPin, sparseFind_set_same]

theorem State.pin_setPin_other {p q : Byte} (r : Pin) (h : q ≠ p) : (s.setPin p r).pin q = s.pin q := by
  simp only [State.pin, State.setPin, sparseFind_set_other _ _ _ (byte_toNat_ne h)]

theorem State.pin_setPin (p q : Byte) (r : Pin) : (s.setPin p r).pin q = if q = p then r else s.pin q := by
  split
  · rename_i h; rw [h]; exact s.pin_setPin_same p r
  · rename_i h; exact s.pin_setPin_other r h

theorem State.levelOf_setLevel (p q : Byte) (v : Bool) :
    (s.setLevel p v).levelOf q = if q = p then v else s.levelOf q := by
  have hq : q.toNat < 256 := q.isLt
  simp only [State.levelOf, State.setLevel]
  by_cases h : q = p
  · subst h
    cases v <;> simp [hq]
  · have hn : q.toNat ≠ p.toNat := byte_toNat_ne h
    cases v <;> simp [h, hn, hq]

/-! ### Buffers -/

@[simp] theorem State.rxByte_setRx (bs : List Byte) (j : Nat) : (s.setRx bs).rxByte j = bs[j]? := by
  simp [State.rxByte, State.setRx, sparseFind_cellsFrom]

@[simp] theorem State.rxByte_clearRx (j : Nat) : s.clearRx.rxByte j = none := by simp [State.clearRx]

theorem State.txByte_writeTx (i j : Nat) (bs : List Byte) :
    (s.writeTx i bs).txByte j = if i ≤ j ∧ j < i + bs.length then bs[j - i]? else s.txByte j := by
  simp only [State.txByte, State.writeTx, sparseFind_bufferWrite]

/-- The payload, when every byte of it holds a value. -/
theorem State.txBytes_eq {n : Nat} {bs : List Byte} (hl : bs.length = n) (h : ∀ j, j < n → s.txByte j = bs[j]?) :
    s.txMissing n = none ∧ s.txBytes n = bs := by
  constructor
  · rw [State.txMissing, List.find?_eq_none]
    intro j hj
    rw [List.mem_range] at hj
    rw [h j hj, List.getElem?_eq_getElem (by omega)]
    simp
  · subst hl
    unfold State.txBytes
    induction bs using List.reverseRecOn with
    | nil => rfl
    | append_singleton bs b ih =>
      rw [List.length_append, List.length_singleton, List.range_succ, List.filterMap_append, ih]
      · have := h bs.length (by simp)
        simp [this]
      · intro j hj
        rw [h j (by simp; omega), List.getElem?_append_left hj]

/-- A command on a full payload runs on exactly it. -/
theorem State.onPayload_of_bytes {n : Nat} {bs : List Byte} (k : List Byte → State) (hl : bs.length = n)
    (h : ∀ j, j < n → s.txByte j = bs[j]?) : s.onPayload n k = .next (k bs) := by
  obtain ⟨h1, h2⟩ := s.txBytes_eq hl h
  simp only [State.onPayload, h1, h2]

/-- A payload with a byte missing is refused, at the first such byte. -/
theorem State.onPayload_of_missing {n i : Nat} (k : List Byte → State) (hi : i < n) (h : s.txByte i = none)
    (hf : ∀ j, j < i → s.txByte j ≠ none) : s.onPayload n k = .refused (.txbufNoValue i) := by
  have : s.txMissing n = some i := by
    rw [State.txMissing, List.find?_range_eq_some]
    exact ⟨by simp [h], by simpa using hi, fun j hj => by simpa [Option.isSome_iff_ne_none] using hf j hj⟩
  simp only [State.onPayload, this]

/-- Everything a command on a payload can do when it goes on. -/
theorem State.onPayload_next {n : Nat} {k : List Byte → State} {t : State} (h : s.onPayload n k = .next t) :
    t = k (s.txBytes n) ∧ s.txMissing n = none := by
  unfold State.onPayload at h
  split at h
  · cases h
  · rename_i e; cases h; exact ⟨rfl, e⟩

theorem State.txBytes_length_le (n : Nat) : (s.txBytes n).length ≤ n := by
  simpa [State.txBytes] using List.length_filterMap_le s.txByte (List.range n)

theorem State.txBytes_length {n : Nat} (h : s.txMissing n = none) : (s.txBytes n).length = n := by
  rw [State.txMissing, List.find?_eq_none] at h
  unfold State.txBytes
  induction n with
  | zero => rfl
  | succ n ih =>
    rw [List.range_succ, List.filterMap_append, List.length_append,
      ih fun j hj => h j (by rw [List.mem_range] at *; omega)]
    have hn := h n (by simp)
    cases e : s.txByte n with
    | none => simp [e] at hn
    | some b => simp [e]

/-! ### The shapes of an I2C command -/

theorem State.i2cWrite_eq (r : Request) (dev : Byte) (reg : Option Byte) (val : TraceVal) :
    s.i2cWrite r dev reg val = { s.sent r with
      trace := s.trace ++ [⟨dev, reg, .write, if s.acks r then .ok else .busError, if s.acks r then val else .none⟩]
      rspq := s.rspq ++ [if s.acks r then okResponse else errorResponse .busError] } := by
  cases h : s.acks r <;> simp [State.i2cWrite, State.nacked, h, State.raise, State.respond, State.traced, State.sent]

theorem State.i2cRead_eq (r : Request) (dev : Byte) (reg : Option Byte) (v : Int) :
    s.i2cRead r dev reg v = { s.sent r with
      trace := s.trace ++
        [⟨dev, reg, .read, if s.acks r then .ok else .busError, if s.acks r then .int v else .none⟩]
      rspq := s.rspq ++ [if s.acks r then valueResponse v else errorResponse .busError] } := by
  cases h : s.acks r <;> simp [State.i2cRead, State.nacked, h, State.raise, State.respond, State.traced, State.sent]

/-! ### Cancelling and agents' steps -/

@[simp] theorem State.pin_cancelWait (p q : Byte) : (s.cancelWait p).pin q =
    if q = p ∧ (s.pin p).waiting = true then { s.pin p with waiting := false, waitLeft := 0 } else s.pin q := by
  unfold State.cancelWait
  by_cases h : (s.pin p).waiting = true
  · rw [if_pos h, State.respond_pin, State.pin_setPin]; simp [h]
  · rw [if_neg h, if_neg (by simp [h])]

/-! `State.cancelWait` -/

@[simp] theorem State.cancelWait_platform (p : Byte) : (s.cancelWait p).platform = s.platform := by
  unfold State.cancelWait; split <;> rfl
@[simp] theorem State.cancelWait_prog (p : Byte) : (s.cancelWait p).prog = s.prog := by
  unfold State.cancelWait; split <;> rfl
@[simp] theorem State.cancelWait_cp (p : Byte) : (s.cancelWait p).cp = s.cp := by
  unfold State.cancelWait; split <;> rfl
@[simp] theorem State.cancelWait_agenda (p : Byte) : (s.cancelWait p).agenda = s.agenda := by
  unfold State.cancelWait; split <;> rfl
@[simp] theorem State.cancelWait_hostLog (p : Byte) : (s.cancelWait p).hostLog = s.hostLog := by
  unfold State.cancelWait; split <;> rfl
@[simp] theorem State.cancelWait_rspSeen (p : Byte) : (s.cancelWait p).rspSeen = s.rspSeen := by
  unfold State.cancelWait; split <;> rfl
@[simp] theorem State.cancelWait_evtSeen (p : Byte) : (s.cancelWait p).evtSeen = s.evtSeen := by
  unfold State.cancelWait; split <;> rfl
@[simp] theorem State.cancelWait_txbuf (p : Byte) : (s.cancelWait p).txbuf = s.txbuf := by
  unfold State.cancelWait; split <;> rfl
@[simp] theorem State.cancelWait_rxbuf (p : Byte) : (s.cancelWait p).rxbuf = s.rxbuf := by
  unfold State.cancelWait; split <;> rfl
@[simp] theorem State.cancelWait_rxlen (p : Byte) : (s.cancelWait p).rxlen = s.rxlen := by
  unfold State.cancelWait; split <;> rfl
@[simp] theorem State.cancelWait_level (p : Byte) : (s.cancelWait p).level = s.level := by
  unfold State.cancelWait; split <;> rfl
@[simp] theorem State.cancelWait_cbq (p : Byte) : (s.cancelWait p).cbq = s.cbq := by
  unfold State.cancelWait; split <;> rfl
@[simp] theorem State.cancelWait_evq (p : Byte) : (s.cancelWait p).evq = s.evq := by
  unfold State.cancelWait; split <;> rfl
@[simp] theorem State.cancelWait_trace (p : Byte) : (s.cancelWait p).trace = s.trace := by
  unfold State.cancelWait; split <;> rfl
@[simp] theorem State.cancelWait_bus (p : Byte) : (s.cancelWait p).bus = s.bus := by
  unfold State.cancelWait; split <;> rfl
@[simp] theorem State.cancelWait_requests (p : Byte) : (s.cancelWait p).requests = s.requests := by
  unfold State.cancelWait; split <;> rfl
@[simp] theorem State.cancelWait_draws (p : Byte) : (s.cancelWait p).draws = s.draws := by
  unfold State.cancelWait; split <;> rfl
@[simp] theorem State.cancelWait_rspq (p : Byte) : (s.cancelWait p).rspq =
    s.rspq ++ if (s.pin p).waiting then [lateResponse .cancelled p] else [] := by
  unfold State.cancelWait; split <;> simp [*]

/-- A change of one pin record keeps the pin array canonical. -/
theorem State.pinsWf_setPin (p : Byte) (r : Pin) (h : sparseWf (some Pin.atReset) 256 s.pins = true) :
    sparseWf (some Pin.atReset) 256 (s.setPin p r).pins = true := sparseWf_set r h p.isLt

theorem State.pinsWf_cancelWait (p : Byte) (h : sparseWf (some Pin.atReset) 256 s.pins = true) :
    sparseWf (some Pin.atReset) 256 (s.cancelWait p).pins = true := by
  unfold State.cancelWait
  split
  · exact s.pinsWf_setPin p _ h
  · exact h

theorem whenEnabled_next {a : AgentStep} {e : Bool} {s' t : State} (h : whenEnabled a e s' = .next t) :
    e = true ∧ t = s' := by
  unfold whenEnabled at h
  split at h
  · cases h; exact ⟨‹_›, rfl⟩
  · cases h

end Sys2Proof.Machine
end

