-- ==== Sys2Proof/Laws/Step.lean ====
section
/-! SUPPORT. Everything a step can do, said once: which agent moves, what issuing a command runs, and the common shape of
what an instruction leaves behind. Later proofs take these apart and never unfold the step. -/

namespace Sys2Proof.Machine

variable (s : State)

/-! ### Which agent moves -/

/-- Every step is one agent's step, from the state with the entry taken off the agenda, or leaves everything as it is. -/
theorem step_cases {s t : State} (h : step s = .next t) :
    (∃ a rest, s.agenda = a :: rest ∧ mover s = some a ∧ runAgent a { s with agenda := rest } = .next t) ∨
    (∃ a, s.agenda = [] ∧ mover s = some a ∧ runAgent a s = .next t) ∨
    (s.agenda = [] ∧ mover s = none ∧ t = s) := by
  unfold step runNext at h
  split at h
  · rename_i a rest ha
    exact .inl ⟨a, rest, ha, by simp [mover, ha], h⟩
  · rename_i ha
    split at h
    · rename_i a hd
      exact .inr (.inl ⟨a, ha, by simp [mover, ha, hd], h⟩)
    · rename_i hd
      cases h
      exact .inr (.inr ⟨ha, by simp [mover, ha, hd], rfl⟩)

/-- The same, for a property that the agenda does not matter to: it is enough to look at one agent's step. -/
theorem step_induction {P : State → State → Prop} (hrefl : ∀ s, P s s)
    (hagent : ∀ a s t, mover s = some a → ∀ rest, runAgent a { s with agenda := rest } = .next t → P s t)
    {s t : State} (h : step s = .next t) : P s t := by
  rcases step_cases h with ⟨a, rest, -, hm, h⟩ | ⟨a, -, hm, h⟩ | ⟨-, -, rfl⟩
  · exact hagent a s t hm rest h
  · exact hagent a s t hm s.agenda h
  · exact hrefl t

/-! ### Issuing a command -/

/-- Everything issuing a command can do when it goes on. -/
theorem issue_next {s t : State} (h : issue s = .next t) :
    ∃ c, s.prog[s.cp]? = some c ∧ c.payload.length ≤ Config.bufferSize ∧
      ((∃ i, decodeWord c.word = some i ∧ exec i (s.fetched c) = .next t) ∨
        decodeWord c.word = none ∧ t = (s.fetched c).raise .illegalCommand) := by
  unfold issue at h
  split at h
  · cases h
  · rename_i c hc
    split at h
    · rename_i hl
      refine ⟨c, hc, hl, ?_⟩
      unfold accept at h
      split at h
      · rename_i i hi; exact .inl ⟨i, hi, h⟩
      · rename_i hi; cases h; exact .inr ⟨hi, rfl⟩
    · cases h

/-- The word an issue step issues, whatever the rest of the agenda. -/
theorem issuedWord_of_mover {s : State} (h : mover s = some .issue) : issuedWord s = (s.prog[s.cp]?).map (·.word) :=
  if_pos h

theorem issuedInstr_of_mover {s : State} {c : Command} {i : Instr} (h : mover s = some .issue)
    (hc : s.prog[s.cp]? = some c) (hi : decodeWord c.word = some i) : issuedInstr s = some i := by
  simp [issuedInstr, issuedWord_of_mover h, hc, hi]

theorem issuedInstr_eq_none {s : State} (h : mover s ≠ some .issue) : issuedInstr s = none := by
  simp [issuedInstr, issuedWord, h]

/-! ### Response words are well formed -/

theorem responseOk_ok : ResponseOk okResponse := by simp [ResponseOk, okResponse, Status.code]

theorem responseOk_value (r : Int) : ResponseOk (valueResponse r) := by
  simp [ResponseOk, valueResponse, Status.code]

theorem responseOk_bytes (n : Byte) : ResponseOk (bytesResponse n) := by
  simp [ResponseOk, bytesResponse, Status.code]

theorem responseOk_error (e : Status) : ResponseOk (errorResponse e) := by
  cases e <;> simp [ResponseOk, errorResponse, Status.code]

theorem responseOk_late (e : Status) (p : Byte) : ResponseOk (lateResponse e p) := by
  cases e <;> simp [ResponseOk, lateResponse, Status.code]

/-! ### What a command leaves behind -/

theorem opOf_encode (i : Instr) : (opOf (encode i)).toNat < 0x20 ↔ i.row ∈ rowsI2c := by
  cases i <;> simp [encode, Instr.row, rowsI2c] <;> decide

theorem State.answerBlock_length (r : Request) (n : Nat) : (s.answerBlock r n).length = n := by
  simp [State.answerBlock]

/-- An I2C command sends one request, adds one trace record and one response, and may write a block of at most 255 bytes
to RXBUF; it writes nothing else. -/
theorem exec_i2c_next {i : Instr} {s t : State} (hi : (opOf (encode i)).toNat < 0x20) (h : exec i s = .next t) :
    ∃ (r : Request) (tr : TraceRec) (w : Quad) (u : State),
      (u = s ∨ ∃ bs : List Byte, bs.length ≤ 255 ∧ u = s.setRx bs) ∧ ResponseOk w ∧
        t = ((u.sent r).traced tr).respond w := by
  have write : ∀ r dev reg val, t = s.i2cWrite r dev reg val → ∃ (r : Request) (tr : TraceRec) (w : Quad) (u : State),
      (u = s ∨ ∃ bs : List Byte, bs.length ≤ 255 ∧ u = s.setRx bs) ∧ ResponseOk w ∧
        t = ((u.sent r).traced tr).respond w := by
    rintro r dev reg val rfl
    unfold State.i2cWrite
    split
    · exact ⟨r, _, _, s, .inl rfl, responseOk_ok, rfl⟩
    · exact ⟨r, _, _, s, .inl rfl, responseOk_error _, rfl⟩
  have read : ∀ r dev reg v, t = s.i2cRead r dev reg v → ∃ (r : Request) (tr : TraceRec) (w : Quad) (u : State),
      (u = s ∨ ∃ bs : List Byte, bs.length ≤ 255 ∧ u = s.setRx bs) ∧ ResponseOk w ∧
        t = ((u.sent r).traced tr).respond w := by
    rintro r dev reg val rfl
    unfold State.i2cRead
    split
    · exact ⟨r, _, _, s, .inl rfl, responseOk_value _, rfl⟩
    · exact ⟨r, _, _, s, .inl rfl, responseOk_error _, rfl⟩
  cases i with
  | i2cWraw dev v => cases h; exact write _ _ _ _ rfl
  | i2cWb dev reg v => cases h; exact write _ _ _ _ rfl
  | i2cWw dev reg v => cases h; exact write _ _ _ _ rfl
  | i2cWblk dev reg len => exact write _ _ _ _ (State.onPayload_next s (by simpa only [exec, execI2cWblk] using h)).1
  | i2cRraw dev => cases h; exact read _ _ _ _ rfl
  | i2cRub dev reg => cases h; exact read _ _ _ _ rfl
  | i2cRsb dev reg => cases h; exact read _ _ _ _ rfl
  | i2cRuw le dev reg => cases h; exact read _ _ _ _ rfl
  | i2cRsw le dev reg => cases h; exact read _ _ _ _ rfl
  | i2cRblk dev reg len =>
    have hl := len.isLt
    simp only [exec, execI2cRblk, Host.Outcome.next.injEq] at h
    subst h
    split
    · exact ⟨_, _, _, s.setRx (s.answerBlock (.readBlock dev reg len) len.toNat),
        .inr ⟨_, by rw [State.answerBlock_length]; omega, rfl⟩, responseOk_bytes _, rfl⟩
    · exact ⟨_, _, _, s.clearRx, .inr ⟨[], by simp, rfl⟩, responseOk_error _, rfl⟩
  | i2cRcrc dev reg =>
    simp only [exec, execI2cRcrc, Host.Outcome.next.injEq] at h
    subst h
    split
    · split
      · exact ⟨_, _, _, s, .inl rfl, responseOk_value _, rfl⟩
      · exact ⟨_, _, _, s, .inl rfl, responseOk_error _, rfl⟩
    · exact ⟨_, _, _, s, .inl rfl, responseOk_error _, rfl⟩
  | _ => exact absurd hi (by simp [encode])

/-- A GPIO command writes the record of one pin, may drop the queued callbacks of that pin, may write a block of at most
255 bytes to RXBUF, and adds well-formed responses; it writes nothing else. -/
theorem exec_gpio_next {i : Instr} {s t : State} (hi : 0x20 ≤ (opOf (encode i)).toNat) (h : exec i s = .next t) :
    t = { s with pins := t.pins, cbq := t.cbq, rxbuf := t.rxbuf, rxlen := t.rxlen, rspq := t.rspq } ∧
    (∃ p, SameOtherPins p s t ∧ (t.cbq = s.cbq ∨ t.cbq = s.cbq.filter (· ≠ p))) ∧
    (sparseWf (some Pin.atReset) 256 s.pins = true → sparseWf (some Pin.atReset) 256 t.pins = true) ∧
    (t.rxbuf = s.rxbuf ∧ t.rxlen = s.rxlen ∨
      ∃ bs : List Byte, bs.length ≤ 255 ∧ t.rxbuf = cellsFrom 0 bs ∧ t.rxlen = BitVec.ofNat 8 bs.length) ∧
    ∃ ws, t.rspq = s.rspq ++ ws ∧ ∀ w ∈ ws, ResponseOk w := by
  cases i with
  | gpioSetup pin mode pull init =>
    simp only [exec, execGpioSetup, Host.Outcome.next.injEq] at h
    subst h
    split
    · refine ⟨by simp [State.respond, State.setPin, State.dropCallbacks], ⟨pin, fun q hq => by simp [State.pin_setPin, hq], .inr ?_⟩, fun hw => ?_, .inl ⟨?_, ?_⟩, ?_⟩
      · simp; rfl
      · exact State.pinsWf_setPin _ _ _ (s.pinsWf_cancelWait pin hw)
      · simp
      · simp
      · exact ⟨_, by simp; rfl, by split <;> simp [responseOk_ok, responseOk_late]⟩
    · exact ⟨rfl, ⟨pin, fun _ _ => rfl, .inl rfl⟩, id, .inl ⟨rfl, rfl⟩, _, rfl, by simp [responseOk_error]⟩
  | gpioOut pin value =>
    simp only [exec, execGpioOut, Host.Outcome.next.injEq] at h
    subst h
    split
    · exact ⟨rfl, ⟨pin, fun q hq => by simp [State.pin_setPin, hq], .inl rfl⟩, State.pinsWf_setPin _ _ _,
        .inl ⟨rfl, rfl⟩, _, rfl, by simp [responseOk_ok]⟩
    · exact ⟨rfl, ⟨pin, fun _ _ => rfl, .inl rfl⟩, id, .inl ⟨rfl, rfl⟩, _, rfl, by simp [responseOk_error]⟩
  | gpioIn pin =>
    simp only [exec, execGpioIn, Host.Outcome.next.injEq] at h
    subst h
    split
    · exact ⟨rfl, ⟨pin, fun _ _ => rfl, .inl rfl⟩, id, .inl ⟨rfl, rfl⟩, _, rfl, by simp [responseOk_value]⟩
    · exact ⟨rfl, ⟨pin, fun _ _ => rfl, .inl rfl⟩, id, .inl ⟨rfl, rfl⟩, _, rfl, by simp [responseOk_error]⟩
  | gpioInm len =>
    have hl := len.isLt
    have hb := s.txBytes_length_le len.toNat
    simp only [exec, execGpioInm] at h
    obtain ⟨rfl, -⟩ := State.onPayload_next s h
    split
    · exact ⟨rfl, ⟨0, fun _ _ => rfl, .inl rfl⟩, id, .inr ⟨_, by rw [List.length_map]; omega, rfl, rfl⟩, _, rfl,
        by simp [responseOk_bytes]⟩
    · exact ⟨rfl, ⟨0, fun _ _ => rfl, .inl rfl⟩, id, .inr ⟨[], by simp, rfl, rfl⟩, _, rfl, by simp [responseOk_error]⟩
  | gpioArm pin edge cb =>
    simp only [exec, execGpioArm, Host.Outcome.next.injEq] at h
    subst h
    split
    · exact ⟨rfl, ⟨pin, fun q hq => by simp [State.pin_setPin, hq], .inl rfl⟩, State.pinsWf_setPin _ _ _,
        .inl ⟨rfl, rfl⟩, _, rfl, by simp [responseOk_ok]⟩
    · exact ⟨rfl, ⟨pin, fun _ _ => rfl, .inl rfl⟩, id, .inl ⟨rfl, rfl⟩, _, rfl, by simp [responseOk_error]⟩
  | gpioDisarm pin =>
    simp only [exec, execGpioDisarm, Host.Outcome.next.injEq] at h
    subst h
    refine ⟨by simp [State.respond, State.setPin, State.dropCallbacks], ⟨pin, fun q hq => by simp [State.pin_setPin, hq], .inr ?_⟩, fun hw => ?_, .inl ⟨?_, ?_⟩, ?_⟩
    · simp; rfl
    · exact State.pinsWf_setPin _ _ _ (s.pinsWf_cancelWait pin hw)
    · simp
    · simp
    · exact ⟨_, by simp; rfl, by split <;> simp [responseOk_ok, responseOk_late]⟩
  | gpioSetcb pin tag =>
    simp only [exec, execGpioSetcb, Host.Outcome.next.injEq] at h
    subst h
    split
    · exact ⟨rfl, ⟨pin, fun q hq => by simp [State.pin_setPin, hq], .inl rfl⟩, State.pinsWf_setPin _ _ _,
        .inl ⟨rfl, rfl⟩, _, rfl, by simp [responseOk_ok]⟩
    · exact ⟨rfl, ⟨pin, fun _ _ => rfl, .inl rfl⟩, id, .inl ⟨rfl, rfl⟩, _, rfl, by simp [responseOk_error]⟩
  | gpioPoll pin =>
    simp only [exec, execGpioPoll, Host.Outcome.next.injEq] at h
    subst h
    exact ⟨rfl, ⟨pin, fun q hq => by simp [State.pin_setPin, hq], .inl rfl⟩, State.pinsWf_setPin _ _ _,
        .inl ⟨rfl, rfl⟩, _, rfl, by simp [responseOk_value]⟩
  | gpioWait pin edge timeout =>
    simp only [exec, execGpioWait, Host.Outcome.next.injEq] at h
    subst h
    split
    · exact ⟨rfl, ⟨pin, fun q hq => by simp [State.pin_setPin, hq], .inl rfl⟩, State.pinsWf_setPin _ _ _,
        .inl ⟨rfl, rfl⟩, [], by simp [State.setPin], by simp⟩
    · exact ⟨rfl, ⟨pin, fun _ _ => rfl, .inl rfl⟩, id, .inl ⟨rfl, rfl⟩, _, rfl, by simp [responseOk_error]⟩
  | _ => exact absurd hi (by simp [encode])

/-- Everything an instruction can do to the record of pin `p` when it goes on. -/
theorem exec_pin_next {i : Instr} {s t : State} (h : exec i s = .next t) (p : Byte) :
    t.pin p = s.pin p ∨
    (∃ mode pull init, i = .gpioSetup p mode pull init ∧ t.pin p = freshPin mode pull init) ∨
    (∃ value, i = .gpioOut p value ∧ t.pin p = { s.pin p with out := value }) ∨
    (∃ edge cb, i = .gpioArm p edge cb ∧ (s.pin p).mode = .input ∧ (s.pin p).armed = false ∧
      t.pin p = { s.pin p with armed := true, edge := edge.code, cbv := cb.isSome, cbtag := cb.getD 0, pending := false }) ∨
    (i = .gpioDisarm p ∧ t.pin p = { (s.cancelWait p).pin p with
      armed := false, edge := 0, pending := false, cbv := false, cbtag := 0 }) ∨
    (∃ tag, i = .gpioSetcb p tag ∧ (s.pin p).armed = true ∧ t.pin p = { s.pin p with cbv := true, cbtag := tag }) ∨
    (i = .gpioPoll p ∧ t.pin p = { s.pin p with pending := false }) ∨
    (∃ edge timeout, i = .gpioWait p edge timeout ∧ (s.pin p).armed = true ∧ (s.pin p).waiting = false ∧
      t.pin p = { s.pin p with waiting := true, waitLeft := timeout }) := by
  by_cases hi : (opOf (encode i)).toNat < 0x20
  · obtain ⟨r, tr, w, u, hu, -, rfl⟩ := exec_i2c_next hi h
    rcases hu with rfl | ⟨bs, -, rfl⟩ <;> exact .inl (by simp)
  cases i with
  | gpioSetup pin mode pull init =>
    simp only [exec, execGpioSetup, Host.Outcome.next.injEq] at h
    subst h
    by_cases hp : p = pin
    · subst hp; split
      · exact .inr (.inl ⟨_, _, _, rfl, by simp⟩)
      · exact .inl rfl
    · refine .inl ?_
      split
      · simp [State.pin_setPin, hp]
      · rfl
  | gpioOut pin value =>
    simp only [exec, execGpioOut, Host.Outcome.next.injEq] at h
    subst h
    by_cases hp : p = pin
    · subst hp; split
      · exact .inr (.inr (.inl ⟨_, rfl, by simp⟩))
      · exact .inl rfl
    · refine .inl ?_
      split
      · simp [State.pin_setPin, hp]
      · rfl
  | gpioIn pin =>
    simp only [exec, execGpioIn, Host.Outcome.next.injEq] at h
    subst h
    exact .inl (by split <;> rfl)
  | gpioInm len =>
    simp only [exec, execGpioInm] at h
    obtain ⟨rfl, -⟩ := State.onPayload_next s h
    exact .inl (by split <;> rfl)
  | gpioArm pin edge cb =>
    simp only [exec, execGpioArm, Host.Outcome.next.injEq] at h
    subst h
    by_cases hp : p = pin
    · subst hp; split
      · rename_i hc
        exact .inr (.inr (.inr (.inl ⟨_, _, rfl, hc.1, hc.2, by simp⟩)))
      · exact .inl rfl
    · refine .inl ?_
      split
      · simp [State.pin_setPin, hp]
      · rfl
  | gpioDisarm pin =>
    simp only [exec, execGpioDisarm, Host.Outcome.next.injEq] at h
    subst h
    by_cases hp : p = pin
    · subst hp; exact .inr (.inr (.inr (.inr (.inl ⟨rfl, by simp⟩))))
    · exact .inl (by simp [State.pin_setPin, hp])
  | gpioSetcb pin tag =>
    simp only [exec, execGpioSetcb, Host.Outcome.next.injEq] at h
    subst h
    by_cases hp : p = pin
    · subst hp; split
      · rename_i hc
        exact .inr (.inr (.inr (.inr (.inr (.inl ⟨_, rfl, hc, by simp⟩)))))
      · exact .inl rfl
    · refine .inl ?_
      split
      · simp [State.pin_setPin, hp]
      · rfl
  | gpioPoll pin =>
    simp only [exec, execGpioPoll, Host.Outcome.next.injEq] at h
    subst h
    by_cases hp : p = pin
    · subst hp; exact .inr (.inr (.inr (.inr (.inr (.inr (.inl ⟨rfl, by simp⟩))))))
    · exact .inl (by simp [State.pin_setPin, hp])
  | gpioWait pin edge timeout =>
    simp only [exec, execGpioWait, Host.Outcome.next.injEq] at h
    subst h
    by_cases hp : p = pin
    · subst hp; split
      · rename_i hc
        exact .inr (.inr (.inr (.inr (.inr (.inr (.inr ⟨_, _, rfl, hc.2.1, hc.2.2.2, by simp⟩))))))
      · exact .inl rfl
    · refine .inl ?_
      split
      · simp [State.pin_setPin, hp]
      · rfl
  | _ => exact absurd (by simp [encode]) hi

/-- The bytes of TXBUF once the command `c` is issued: its payload, then what stood there. -/
theorem State.txByte_fetched (c : Command) (j : Nat) :
    (s.fetched c).txByte j = if j < c.payload.length then c.payload[j]? else s.txByte j := by
  have h : (s.fetched c).txByte j = (s.writeTx 0 c.payload).txByte j := rfl
  rw [h, State.txByte_writeTx]
  simp

end Sys2Proof.Machine
end

