-- ==== Sys2Proof/Laws/Agents.lean ====
section
/-! SUPPORT. Everything a step of the environment, the callback delivery, the Timer or a wait completion can do, and what
the search over the pin array finds. -/

namespace Sys2Proof.Machine

variable (s : State)

/-! ### The pin array as a map -/

theorem sparseFind_map {α β : Type} (f : α → β) (m : List (Nat × α)) (a : Nat) :
    sparseFind (m.map fun c => (c.1, f c.2)) a = (sparseFind m a).map f := by
  induction m with
  | nil => rfl
  | cons c m ih => simp only [List.map_cons, sparseFind]; split <;> simp [ih]

theorem mem_of_sparseFind {α : Type} {m : List (Nat × α)} {a : Nat} {v : α} (h : sparseFind m a = some v) : (a, v) ∈ m := by
  induction m with
  | nil => cases h
  | cons c m ih =>
    obtain ⟨k, w⟩ := c
    simp only [sparseFind] at h
    split at h
    · rename_i e; cases h; simp [e]
    · exact List.mem_cons_of_mem _ (ih h)

/-- A record that is not the reset record is listed. -/
theorem State.mem_pins_of_ne {p : Byte} (h : s.pin p ≠ Pin.atReset) : (p.toNat, s.pin p) ∈ s.pins := by
  unfold State.pin at h ⊢
  cases e : sparseFind s.pins p.toNat with
  | none => simp [e] at h
  | some r => exact mem_of_sparseFind e

/-- A listed record is the record of its pin. -/
theorem State.pin_of_mem (hw : sparseWf (some Pin.atReset) 256 s.pins = true) {c : Nat × Pin} (h : c ∈ s.pins) :
    c.1 < 256 ∧ s.pin (BitVec.ofNat 8 c.1) = c.2 := by
  obtain ⟨hr, ha⟩ := sparseWf_iff.1 hw
  have hc := (ha c h).1
  refine ⟨hc, ?_⟩
  unfold State.pin
  rw [show (BitVec.ofNat 8 c.1).toNat = c.1 by simp; omega, (sparseFind_eq_some_iff hr).2 h]
  rfl

theorem State.findPin_some {f : Pin → Bool} {p : Byte} (h : s.findPin f = some p) : f (s.pin p) = true :=
  List.find?_some (p := fun p => f (s.pin p)) h

/-- The search misses no pin, if the reset record does not satisfy `f`. -/
theorem State.findPin_none {f : Pin → Bool} (hf : f Pin.atReset = false) (h : s.findPin f = none) (p : Byte) :
    f (s.pin p) = false := by
  by_cases he : s.pin p = Pin.atReset
  · rw [he, hf]
  · have := List.find?_eq_none.1 h p (List.mem_map.2 ⟨_, s.mem_pins_of_ne he, by simp⟩)
    simpa using this

/-! ### The Timer -/

/-- The state a tick leads to (R197). -/
abbrev State.afterTick (s : State) : State := { s with pins := s.pins.map fun c => (c.1, c.2.ticked) }

/-- A tick steps every pin. -/
theorem State.pin_afterTick (p : Byte) : s.afterTick.pin p = (s.pin p).ticked := by
  simp only [State.pin, sparseFind_map]
  cases sparseFind s.pins p.toNat <;> rfl

theorem Pin.ticked_eq (r : Pin) : r.ticked =
    { r with waitLeft := if r.waiting = true ∧ r.waitLeft ≠ 0 then r.waitLeft - 1 else r.waitLeft } := by
  obtain ⟨_, _, _, _, _, _, _, _, w, l⟩ := r
  unfold Pin.ticked Pin.running
  cases w
  · rfl
  · by_cases h : l = 0#32 <;> simp [h]

theorem sparseRising_map {α : Type} (f : α → α) (lo : Nat) (m : List (Nat × α)) :
    sparseRising lo (m.map fun c => (c.1, f c.2)) = sparseRising lo m := by
  induction m generalizing lo with
  | nil => rfl
  | cons c m ih => simp [sparseRising, ih]

theorem Pin.ticked_ne_atReset {r : Pin} (h : r ≠ Pin.atReset) : r.ticked ≠ Pin.atReset := by
  unfold Pin.ticked
  split
  · rename_i hr
    intro e
    have := congrArg Pin.waiting e
    simp [Pin.running, Pin.atReset] at this hr
    simp [this] at hr
  · exact h

theorem State.pinsWf_afterTick (h : sparseWf (some Pin.atReset) 256 s.pins = true) :
    sparseWf (some Pin.atReset) 256 s.afterTick.pins = true := by
  rw [sparseWf_iff] at h ⊢
  refine ⟨by rw [sparseRising_map]; exact h.1, fun c hc => ?_⟩
  obtain ⟨d, hd, rfl⟩ := List.mem_map.1 hc
  exact ⟨(h.2 d hd).1, by simpa using Pin.ticked_ne_atReset (by simpa using (h.2 d hd).2)⟩

/-- Some listed counter runs iff some pin's does. -/
theorem State.any_running (hw : sparseWf (some Pin.atReset) 256 s.pins = true) :
    (s.pins.any fun c => c.2.running) = true ↔ ∃ p, (s.pin p).running = true := by
  rw [List.any_eq_true]
  constructor
  · rintro ⟨c, hc, hr⟩
    exact ⟨BitVec.ofNat 8 c.1, by rw [(s.pin_of_mem hw hc).2]; exact hr⟩
  · rintro ⟨p, hp⟩
    exact ⟨_, s.mem_pins_of_ne (p := p) (by rintro e; rw [e] at hp; cases hp), hp⟩

theorem tick_next {s t : State} (h : tick s = .next t) :
    (s.pins.any fun c => c.2.running) = true ∧ t = s.afterTick := by
  exact whenEnabled_next h

/-! ### Edges and callbacks -/

/-- Everything a change of level can do. -/
theorem pinChange_next {s t : State} {p : Byte} {v : Bool} (h : pinChange p v s = .next t) :
    v ≠ s.levelOf p ∧
    ((s.pin p).armed = true ∧ edgeMatches (s.pin p).edge (s.levelOf p) v = true ∧ t = (s.setLevel p v).detect p ∨
      ¬ ((s.pin p).armed = true ∧ edgeMatches (s.pin p).edge (s.levelOf p) v = true) ∧ t = s.setLevel p v) := by
  obtain ⟨he, ht⟩ := whenEnabled_next h
  refine ⟨by simpa using he, ?_⟩
  split at ht
  · rename_i hc
    simp only [Bool.and_eq_true] at hc
    exact .inl ⟨hc.1, hc.2, ht⟩
  · rename_i hc
    simp only [Bool.and_eq_true] at hc
    exact .inr ⟨hc, ht⟩

/-- A detected edge sets PENDING and queues the pin if it has a callback. -/
theorem State.detect_eq (p : Byte) : s.detect p = { s.setPin p { s.pin p with pending := true } with
    cbq := s.cbq ++ if (s.pin p).cbv then [p] else [] } := by
  unfold State.detect
  cases h : (s.pin p).cbv <;> simp [State.setPin, h]

/-- Everything a delivery can do. -/
theorem deliver_next {s t : State} (h : deliver s = .next t) :
    ∃ p rest, s.cbq = p :: rest ∧
      t = { s.setPin p { s.pin p with pending := false } with
        cbq := rest, evq := s.evq ++ [⟨p, (s.pin p).cbtag⟩] } := by
  unfold deliver at h
  split at h
  · cases h
  · rename_i p rest hc
    cases h
    exact ⟨p, rest, hc, rfl⟩

/-! ### Wait completion -/

theorem completeOk_next {s t : State} {p : Byte} (h : completeOk p s = .next t) :
    (s.pin p).waiting = true ∧ (s.pin p).pending = true ∧
      t = (s.setPin p { s.pin p with waiting := false, waitLeft := 0 }).respond (lateResponse .ok p) := by
  obtain ⟨he, rfl⟩ := whenEnabled_next h
  simp only [Pin.okReady, Bool.and_eq_true] at he
  exact ⟨he.1, he.2, rfl⟩

theorem completeTimeout_next {s t : State} {p : Byte} (h : completeTimeout p s = .next t) :
    (s.pin p).waiting = true ∧ (s.pin p).waitLeft = 0 ∧
      t = (s.setPin p { s.pin p with waiting := false }).respond (lateResponse .timeoutError p) := by
  obtain ⟨he, rfl⟩ := whenEnabled_next h
  simp only [Pin.timeoutReady, Bool.and_eq_true, beq_iff_eq] at he
  exact ⟨he.1, he.2, rfl⟩

/-! ### Every agent -/

/-- Everything one agent's step can do when it goes on: issue a command, write one byte of TXBUF, only move what the host
has read, or be one of the five steps above. -/
theorem runAgent_next {a : AgentStep} {s t : State} (h : runAgent a s = .next t) :
    (a = .issue ∧ issue s = .next t) ∨
    (∃ i v, a = .txWrite i v ∧ i < 255 ∧ t = s.writeTx i [v]) ∨
    ((a = .rspRead ∨ (∃ i, a = .rxRead i) ∨ a = .rxlenRead ∨ a = .evtRead ∨ a = .trcRead) ∧
      ∃ v m n, t = { s.heard v with rspSeen := m, evtSeen := n }) ∨
    (∃ p v, a = .pinChange p v ∧ pinChange p v s = .next t) ∨
    (a = .deliver ∧ deliver s = .next t) ∨
    (a = .tick ∧ tick s = .next t) ∨
    (∃ p, a = .completeOk p ∧ completeOk p s = .next t) ∨
    (∃ p, a = .completeTimeout p ∧ completeTimeout p s = .next t) := by
  cases a with
  | issue => exact .inl ⟨rfl, h⟩
  | txWrite i v =>
    simp only [runAgent, portTxWrite] at h
    split at h
    · rename_i hi; cases h; exact .inr (.inl ⟨i, v, rfl, hi, rfl⟩)
    · cases h
  | rspRead =>
    simp only [runAgent, portRspRead] at h
    split at h
    · cases h; exact .inr (.inr (.inl ⟨by simp, _, _, _, rfl⟩))
    · cases h
  | rxRead i =>
    simp only [runAgent, portRxRead] at h
    split at h
    · split at h
      · cases h; exact .inr (.inr (.inl ⟨by simp, _, _, _, rfl⟩))
      · cases h
    · cases h
  | rxlenRead => cases h; exact .inr (.inr (.inl ⟨by simp, _, _, _, rfl⟩))
  | evtRead =>
    simp only [runAgent, portEvtRead] at h
    split at h
    · cases h; exact .inr (.inr (.inl ⟨by simp, _, _, _, rfl⟩))
    · cases h
  | trcRead => cases h; exact .inr (.inr (.inl ⟨by simp, _, _, _, rfl⟩))
  | pinChange p v => exact .inr (.inr (.inr (.inl ⟨p, v, rfl, h⟩)))
  | deliver => exact .inr (.inr (.inr (.inr (.inl ⟨rfl, h⟩))))
  | tick => exact .inr (.inr (.inr (.inr (.inr (.inl ⟨rfl, h⟩)))))
  | completeOk p => exact .inr (.inr (.inr (.inr (.inr (.inr (.inl ⟨p, rfl, h⟩))))))
  | completeTimeout p => exact .inr (.inr (.inr (.inr (.inr (.inr (.inr ⟨p, rfl, h⟩))))))

/-! ### The record of one pin -/

theorem State.pin_detect (p q : Byte) :
    (s.detect p).pin q = if q = p then { s.pin p with pending := true } else s.pin q := by
  rw [State.detect_eq]
  exact State.pin_setPin s p q _

/-- Everything one agent's step can do to the record of pin `p` when it goes on. -/
theorem runAgent_pin_next {a : AgentStep} {s t : State} (h : runAgent a s = .next t) (p : Byte) :
    t.pin p = s.pin p ∨
    (∃ c i, a = .issue ∧ s.prog[s.cp]? = some c ∧ decodeWord c.word = some i ∧ exec i (s.fetched c) = .next t) ∨
    (∃ v, a = .pinChange p v ∧ v ≠ s.levelOf p ∧ (s.pin p).armed = true ∧
      edgeMatches (s.pin p).edge (s.levelOf p) v = true ∧ t.pin p = { s.pin p with pending := true }) ∨
    (a = .deliver ∧ s.cbq.head? = some p ∧ t.pin p = { s.pin p with pending := false }) ∨
    (a = .tick ∧ t.pin p = (s.pin p).ticked) ∨
    (a = .completeOk p ∧ t.pin p = { s.pin p with waiting := false, waitLeft := 0 }) ∨
    (a = .completeTimeout p ∧ t.pin p = { s.pin p with waiting := false }) := by
  rcases runAgent_next h with ⟨rfl, h⟩ | ⟨i, v, rfl, -, rfl⟩ | ⟨-, v, m, n, rfl⟩ | ⟨q, v, rfl, h⟩ | ⟨rfl, h⟩ |
    ⟨rfl, h⟩ | ⟨q, rfl, h⟩ | ⟨q, rfl, h⟩
  · obtain ⟨c, hc, -, ⟨i, hi, h⟩ | ⟨-, rfl⟩⟩ := issue_next h
    · exact .inr (.inl ⟨c, i, rfl, hc, hi, h⟩)
    · exact .inl rfl
  · exact .inl rfl
  · exact .inl rfl
  · obtain ⟨hv, ⟨ha, he, rfl⟩ | ⟨-, rfl⟩⟩ := pinChange_next h
    · by_cases hp : p = q
      · subst hp
        exact .inr (.inr (.inl ⟨v, rfl, hv, ha, he, by simp [State.pin_detect]⟩))
      · exact .inl (by simp [State.pin_detect, hp])
    · exact .inl rfl
  · obtain ⟨q, l, hc, rfl⟩ := deliver_next h
    by_cases hp : p = q
    · subst hp
      exact .inr (.inr (.inr (.inl ⟨rfl, by simp [hc], (State.pin_setPin s p p _).trans (if_pos rfl)⟩)))
    · exact .inl ((State.pin_setPin s q p _).trans (if_neg hp))
  · obtain ⟨-, rfl⟩ := tick_next h
    exact .inr (.inr (.inr (.inr (.inl ⟨rfl, s.pin_afterTick p⟩))))
  · obtain ⟨-, -, rfl⟩ := completeOk_next h
    by_cases hp : p = q
    · subst hp
      exact .inr (.inr (.inr (.inr (.inr (.inl ⟨rfl, by simp⟩)))))
    · exact .inl (by simp [State.pin_setPin, hp])
  · obtain ⟨-, -, rfl⟩ := completeTimeout_next h
    by_cases hp : p = q
    · subst hp
      exact .inr (.inr (.inr (.inr (.inr (.inr ⟨rfl, by simp⟩)))))
    · exact .inl (by simp [State.pin_setPin, hp])

/-- Everything a step can do to the record of pin `p`: leave it, execute an instruction from a state with the same records,
or be one of the other agents' five steps. -/
theorem step_pin_next {s t : State} (h : step s = .next t) (p : Byte) :
    t.pin p = s.pin p ∨
    (∃ i u, issuedInstr s = some i ∧ (∀ q, u.pin q = s.pin q) ∧ exec i u = .next t) ∨
    (detects p s ∧ t.pin p = { s.pin p with pending := true }) ∨
    (mover s = some .deliver ∧ s.cbq.head? = some p ∧ t.pin p = { s.pin p with pending := false }) ∨
    (mover s = some .tick ∧ t.pin p = (s.pin p).ticked) ∨
    (mover s = some (.completeOk p) ∧ t.pin p = { s.pin p with waiting := false, waitLeft := 0 }) ∨
    (mover s = some (.completeTimeout p) ∧ t.pin p = { s.pin p with waiting := false }) := by
  suffices agent : ∀ a rest, mover s = some a → runAgent a { s with agenda := rest } = .next t → _ by
    rcases step_cases h with ⟨a, rest, -, hm, h⟩ | ⟨a, -, hm, h⟩ | ⟨-, -, rfl⟩
    · exact agent a rest hm h
    · exact agent a s.agenda hm h
    · exact .inl rfl
  intro a rest hm h
  rcases runAgent_pin_next h p with hr | ⟨c, i, rfl, hc, hi, hr⟩ | ⟨v, rfl, hv, ha, he, hr⟩ | ⟨rfl, hh, hr⟩ |
    ⟨rfl, hr⟩ | ⟨rfl, hr⟩ | ⟨rfl, hr⟩
  · exact .inl hr
  · exact .inr (.inl ⟨i, State.fetched { s with agenda := rest } c, issuedInstr_of_mover hm hc hi, fun _ => rfl, hr⟩)
  · exact .inr (.inr (.inl ⟨⟨v, hm, hv, ha, he⟩, hr⟩))
  · exact .inr (.inr (.inr (.inl ⟨hm, hh, hr⟩)))
  · exact .inr (.inr (.inr (.inr (.inl ⟨hm, hr⟩))))
  · exact .inr (.inr (.inr (.inr (.inr (.inl ⟨hm, hr⟩)))))
  · exact .inr (.inr (.inr (.inr (.inr (.inr ⟨hm, hr⟩)))))

end Sys2Proof.Machine
end

