-- ==== Sys2Proof/Laws/Assembler.lean ====
section
/-! SUPPORT. What the assembler's operand readers accept and what an accepted line is (`30_encoding.md` R92, R104). -/

namespace Sys2Proof.Machine

theorem asmByte_eq_some {n : Nat} {b : Byte} : asmByte n = some b ↔ b.toNat = n := by
  unfold asmByte
  split
  · rw [Option.some.injEq, ← BitVec.toNat_inj, BitVec.toNat_ofNat]
    omega
  · have := b.isLt
    simp only [reduceCtorEq, false_iff]
    omega

theorem asmTimeout_eq_some {n : Nat} {w : Word} : asmTimeout n = some w ↔ w.toNat = n := by
  unfold asmTimeout
  split
  · rw [Option.some.injEq, ← BitVec.toNat_inj, BitVec.toNat_ofNat]
    omega
  · have := w.isLt
    simp only [reduceCtorEq, false_iff]
    omega

theorem asmValue_eq_some {v : Int} {w : Word} :
    asmValue v = some w ↔ -2147483648 ≤ v ∧ v < 4294967296 ∧ (w.toNat : Int) = v % 4294967296 := by
  unfold asmValue
  split
  · rw [Option.some.injEq, ← BitVec.toNat_inj, BitVec.toNat_ofInt]
    omega
  · simp only [reduceCtorEq, false_iff]
    omega

theorem asmBytes_eq_some {ns : List Nat} {bs : List Byte} : asmBytes ns = some bs ↔ bs.map (·.toNat) = ns := by
  unfold asmBytes
  induction ns generalizing bs with
  | nil => cases bs <;> simp
  | cons n ns ih =>
    cases bs with
    | nil => simp [List.mapM_cons, Option.bind_eq_some_iff]
    | cons b bs => simp [List.mapM_cons, Option.bind_eq_some_iff, asmByte_eq_some, ih]

theorem asmTag_eq_some {n : Nat} {cb : Option Byte} : asmTag (some n) = some cb ↔ ∃ b, b.toNat = n ∧ some b = cb := by
  simp [asmTag, Option.map_eq_some_iff, asmByte_eq_some]

/-- An accepted line is its instruction's encoding with the payload it names. -/
theorem assemble_eq_some {line : Asm} {c : Command} :
    assemble line = some c ↔ ∃ i, asmInstr line = some (i, c.payload) ∧ i.wf = true ∧ c.word = encode i := by
  unfold assemble
  cases asmInstr line with
  | none => simp
  | some p =>
    obtain ⟨i, pl⟩ := p
    obtain ⟨w, d⟩ := c
    simp only [Option.bind_some, Option.some.injEq, Prod.mk.injEq]
    constructor
    · intro h
      split at h
      · rename_i hw; cases h; exact ⟨i, ⟨rfl, rfl⟩, hw, rfl⟩
      · cases h
    · rintro ⟨j, ⟨rfl, rfl⟩, hw, rfl⟩
      rw [if_pos hw]

/-! The fields of an encoding as numbers (R98, R99). -/

theorem toNat_flagsLe (le : Bool) : (flagsLe le).toNat = if le then 1 else 0 := by cases le <;> decide

theorem toNat_flagsSetup (mode : PinMode) (pull : Pull) (init : Bool) :
    (flagsSetup mode pull init).toNat = modeNumber mode + 4 * pullNumber pull + if init then 16 else 0 := by
  cases mode <;> cases pull <;> cases init <;> decide

theorem toNat_flagsArm_none (edge : Edge) : (flagsArm edge none).toNat = edgeNumber edge := by cases edge <;> decide

theorem toNat_flagsArm_some (edge : Edge) (tag : Byte) : (flagsArm edge (some tag)).toNat = edgeNumber edge + 4 := by
  rw [show flagsArm edge (some tag) = 0#5 ++ BitVec.ofBool true ++ edge.code from rfl]
  cases edge <;> decide

theorem toNat_flagsWait (edge : Edge) : (flagsWait edge).toNat = edgeNumber edge := by cases edge <;> decide

theorem toNat_immLen (len : Byte) : (immLen len).toNat = len.toNat := by
  revert len
  decide +kernel

theorem toNat_immBit (value : Bool) : (immBit value).toNat = if value then 1 else 0 := by cases value <;> decide

end Sys2Proof.Machine
end

