-- ==== Sys2Proof/Laws/PerInstr.lean ====
section
/-! SUPPORT. The facts about the encoding of every instruction, one lemma per constructor. -/

namespace Sys2Proof.Laws

/-! ### Masked fields -/

@[simp] theorem flagsLe_masked (le : Bool) : flagsLe le &&& 254#8 = 0#8 := by revert le; decide

@[simp] theorem flagsSetup_masked (mode : PinMode) (pull : Pull) (init : Bool) : flagsSetup mode pull init &&& 224#8 = 0#8 := by
  cases mode <;> cases pull <;> revert init <;> decide

@[simp] theorem flagsArm_masked (edge : Edge) (cb : Option Byte) : flagsArm edge cb &&& 248#8 = 0#8 := by
  unfold flagsArm; generalize cb.isSome = v; cases edge <;> revert v <;> decide

@[simp] theorem flagsWait_masked (edge : Edge) : flagsWait edge &&& 252#8 = 0#8 := by cases edge <;> decide

@[simp] theorem flagsLe_le (le : Bool) : (flagsLe le).getLsbD 0 = le := by revert le; decide

@[simp] theorem flagsSetup_mode (mode : PinMode) (pull : Pull) (init : Bool) :
    PinMode.ofCode ((flagsSetup mode pull init).extractLsb' 0 2) = mode := by
  cases mode <;> cases pull <;> revert init <;> decide

@[simp] theorem flagsSetup_pull (mode : PinMode) (pull : Pull) (init : Bool) :
    Pull.ofCode ((flagsSetup mode pull init).extractLsb' 2 2) = some pull := by
  cases mode <;> cases pull <;> revert init <;> decide

@[simp] theorem flagsSetup_init (mode : PinMode) (pull : Pull) (init : Bool) :
    (flagsSetup mode pull init).getLsbD 4 = init := by
  cases mode <;> cases pull <;> revert init <;> decide

@[simp] theorem flagsArm_edge (edge : Edge) (cb : Option Byte) :
    Edge.ofCode ((flagsArm edge cb).extractLsb' 0 2) = some edge := by
  unfold flagsArm; generalize cb.isSome = v; cases edge <;> revert v <;> decide

@[simp] theorem flagsArm_cbv (edge : Edge) (cb : Option Byte) : (flagsArm edge cb).getLsbD 2 = cb.isSome := by
  unfold flagsArm; generalize cb.isSome = v; cases edge <;> revert v <;> decide

@[simp] theorem flagsWait_edge (edge : Edge) : Edge.ofCode ((flagsWait edge).extractLsb' 0 2) = some edge := by
  cases edge <;> decide

@[simp] theorem immLen_len (len : Byte) : (immLen len).setWidth 8 = len := by revert len; decide

@[simp] theorem immBit_value (value : Bool) : (immBit value).getLsbD 0 = value := by revert value; decide

@[simp] theorem callbackOf_encoded (cb : Option Byte) : callbackOf cb.isSome (cb.getD 0#8) = some cb := by
  cases cb <;> rfl

@[simp] theorem immLen_masked (len : Byte) : immLen len &&& 4294967040#32 = 0#32 := by revert len; decide

@[simp] theorem immBit_masked (value : Bool) : immBit value &&& 4294967294#32 = 0#32 := by revert value; decide

/-! ### Fields that pass their mask are the encoder's -/

theorem flagsLe_of_masked : ∀ flg : Byte, flg &&& 254#8 = 0#8 → flagsLe (flg.getLsbD 0) = flg := by decide

theorem immLen_of_masked {imm : Word} (h : imm &&& 4294967040#32 = 0#32) : immLen (imm.setWidth 8) = imm := by
  have hm : ∀ i, i < 32 → (4294967040#32).getLsbD i = decide (8 ≤ i) := by decide
  refine BitVec.eq_of_getLsbD_eq fun i hi => ?_
  have hi' := congrArg (BitVec.getLsbD · i) h
  simp only [BitVec.getLsbD_and, hm i hi, BitVec.getLsbD_zero] at hi'
  simp only [immLen, BitVec.getLsbD_append, BitVec.getLsbD_setWidth, BitVec.getLsbD_zero]
  by_cases h8 : i < 8
  · simp [h8]
  · simp_all

theorem immBit_of_masked {imm : Word} (h : imm &&& 4294967294#32 = 0#32) : immBit (imm.getLsbD 0) = imm := by
  have hm : ∀ i, i < 32 → (4294967294#32).getLsbD i = decide (1 ≤ i) := by decide
  refine BitVec.eq_of_getLsbD_eq fun i hi => ?_
  have hi' := congrArg (BitVec.getLsbD · i) h
  simp only [BitVec.getLsbD_and, hm i hi, BitVec.getLsbD_zero] at hi'
  simp only [immBit, BitVec.getLsbD_append, BitVec.getLsbD_ofBool, BitVec.getLsbD_zero]
  by_cases h1 : i < 1
  · obtain rfl : i = 0 := by omega
    simp
  · simp_all

/-- The OP field of an instruction's word is its row's (`30_encoding.md` R97). -/
def Opcode.Statement (i : Instr) : Prop := opOf (encode i) = opOf i.row.pattern

/-- An instruction's word is of its row's form (R93). -/
def FitsRow.Statement (i : Instr) : Prop := i.row.fits (encode i) = true

theorem Opcode.i2cWraw (dev : Byte) (value : Word) : Opcode.Statement (.i2cWraw dev value) := by
  simp only [Opcode.Statement, encode, opOf_ofFields, Instr.row]; decide

theorem FitsRow.i2cWraw (dev : Byte) (value : Word) : FitsRow.Statement (.i2cWraw dev value) := by
  refine (Row.fits_ofFields (po := 0x10) (pf := 0) (pa := 0) (pb := 0) (pi := 0) (mo := 0xff) (mf := 0xff) (ma := 0x0)
    (mb := 0xff) (mi := 0x0) rfl rfl _ _ _ _ _).2 ⟨by decide, by decide, BitVec.and_zero, by decide,
      BitVec.and_zero⟩

theorem Opcode.i2cWb (dev : Byte) (reg : Byte) (value : Word) : Opcode.Statement (.i2cWb dev reg value) := by
  simp only [Opcode.Statement, encode, opOf_ofFields, Instr.row]; decide

theorem FitsRow.i2cWb (dev : Byte) (reg : Byte) (value : Word) : FitsRow.Statement (.i2cWb dev reg value) := by
  refine (Row.fits_ofFields (po := 0x11) (pf := 0) (pa := 0) (pb := 0) (pi := 0) (mo := 0xff) (mf := 0xff) (ma := 0x0)
    (mb := 0x0) (mi := 0x0) rfl rfl _ _ _ _ _).2 ⟨by decide, by decide, BitVec.and_zero, BitVec.and_zero,
      BitVec.and_zero⟩

theorem Opcode.i2cWw (dev : Byte) (reg : Byte) (value : Word) : Opcode.Statement (.i2cWw dev reg value) := by
  simp only [Opcode.Statement, encode, opOf_ofFields, Instr.row]; decide

theorem FitsRow.i2cWw (dev : Byte) (reg : Byte) (value : Word) : FitsRow.Statement (.i2cWw dev reg value) := by
  refine (Row.fits_ofFields (po := 0x12) (pf := 0) (pa := 0) (pb := 0) (pi := 0) (mo := 0xff) (mf := 0xff) (ma := 0x0)
    (mb := 0x0) (mi := 0x0) rfl rfl _ _ _ _ _).2 ⟨by decide, by decide, BitVec.and_zero, BitVec.and_zero,
      BitVec.and_zero⟩

theorem Opcode.i2cWblk (dev : Byte) (reg : Byte) (len : Byte) : Opcode.Statement (.i2cWblk dev reg len) := by
  simp only [Opcode.Statement, encode, opOf_ofFields, Instr.row]; decide

theorem FitsRow.i2cWblk (dev : Byte) (reg : Byte) (len : Byte) : FitsRow.Statement (.i2cWblk dev reg len) := by
  refine (Row.fits_ofFields (po := 0x13) (pf := 0) (pa := 0) (pb := 0) (pi := 0) (mo := 0xff) (mf := 0xff) (ma := 0x0)
    (mb := 0x0) (mi := 0xffffff00) rfl rfl _ _ _ _ _).2 ⟨by decide, by decide, BitVec.and_zero, BitVec.and_zero,
      immLen_masked _⟩

theorem Opcode.i2cRraw (dev : Byte) : Opcode.Statement (.i2cRraw dev) := by
  simp only [Opcode.Statement, encode, opOf_ofFields, Instr.row]; decide

theorem FitsRow.i2cRraw (dev : Byte) : FitsRow.Statement (.i2cRraw dev) := by
  refine (Row.fits_ofFields (po := 0x14) (pf := 0) (pa := 0) (pb := 0) (pi := 0) (mo := 0xff) (mf := 0xff) (ma := 0x0)
    (mb := 0xff) (mi := 0xffffffff) rfl rfl _ _ _ _ _).2 ⟨by decide, by decide, BitVec.and_zero, by decide,
      by decide⟩

theorem Opcode.i2cRub (dev : Byte) (reg : Byte) : Opcode.Statement (.i2cRub dev reg) := by
  simp only [Opcode.Statement, encode, opOf_ofFields, Instr.row]; decide

theorem FitsRow.i2cRub (dev : Byte) (reg : Byte) : FitsRow.Statement (.i2cRub dev reg) := by
  refine (Row.fits_ofFields (po := 0x15) (pf := 0) (pa := 0) (pb := 0) (pi := 0) (mo := 0xff) (mf := 0xff) (ma := 0x0)
    (mb := 0x0) (mi := 0xffffffff) rfl rfl _ _ _ _ _).2 ⟨by decide, by decide, BitVec.and_zero, BitVec.and_zero,
      by decide⟩

theorem Opcode.i2cRsb (dev : Byte) (reg : Byte) : Opcode.Statement (.i2cRsb dev reg) := by
  simp only [Opcode.Statement, encode, opOf_ofFields, Instr.row]; decide

theorem FitsRow.i2cRsb (dev : Byte) (reg : Byte) : FitsRow.Statement (.i2cRsb dev reg) := by
  refine (Row.fits_ofFields (po := 0x16) (pf := 0) (pa := 0) (pb := 0) (pi := 0) (mo := 0xff) (mf := 0xff) (ma := 0x0)
    (mb := 0x0) (mi := 0xffffffff) rfl rfl _ _ _ _ _).2 ⟨by decide, by decide, BitVec.and_zero, BitVec.and_zero,
      by decide⟩

theorem Opcode.i2cRuw (le : Bool) (dev : Byte) (reg : Byte) : Opcode.Statement (.i2cRuw le dev reg) := by
  simp only [Opcode.Statement, encode, opOf_ofFields, Instr.row]; decide

theorem FitsRow.i2cRuw (le : Bool) (dev : Byte) (reg : Byte) : FitsRow.Statement (.i2cRuw le dev reg) := by
  refine (Row.fits_ofFields (po := 0x17) (pf := 0) (pa := 0) (pb := 0) (pi := 0) (mo := 0xff) (mf := 0xfe) (ma := 0x0)
    (mb := 0x0) (mi := 0xffffffff) rfl rfl _ _ _ _ _).2 ⟨by decide, flagsLe_masked _, BitVec.and_zero, BitVec.and_zero,
      by decide⟩

theorem Opcode.i2cRsw (le : Bool) (dev : Byte) (reg : Byte) : Opcode.Statement (.i2cRsw le dev reg) := by
  simp only [Opcode.Statement, encode, opOf_ofFields, Instr.row]; decide

theorem FitsRow.i2cRsw (le : Bool) (dev : Byte) (reg : Byte) : FitsRow.Statement (.i2cRsw le dev reg) := by
  refine (Row.fits_ofFields (po := 0x18) (pf := 0) (pa := 0) (pb := 0) (pi := 0) (mo := 0xff) (mf := 0xfe) (ma := 0x0)
    (mb := 0x0) (mi := 0xffffffff) rfl rfl _ _ _ _ _).2 ⟨by decide, flagsLe_masked _, BitVec.and_zero, BitVec.and_zero,
      by decide⟩

theorem Opcode.i2cRblk (dev : Byte) (reg : Byte) (len : Byte) : Opcode.Statement (.i2cRblk dev reg len) := by
  simp only [Opcode.Statement, encode, opOf_ofFields, Instr.row]; decide

theorem FitsRow.i2cRblk (dev : Byte) (reg : Byte) (len : Byte) : FitsRow.Statement (.i2cRblk dev reg len) := by
  refine (Row.fits_ofFields (po := 0x19) (pf := 0) (pa := 0) (pb := 0) (pi := 0) (mo := 0xff) (mf := 0xff) (ma := 0x0)
    (mb := 0x0) (mi := 0xffffff00) rfl rfl _ _ _ _ _).2 ⟨by decide, by decide, BitVec.and_zero, BitVec.and_zero,
      immLen_masked _⟩

theorem Opcode.i2cRcrc (dev : Byte) (reg : Byte) : Opcode.Statement (.i2cRcrc dev reg) := by
  simp only [Opcode.Statement, encode, opOf_ofFields, Instr.row]; decide

theorem FitsRow.i2cRcrc (dev : Byte) (reg : Byte) : FitsRow.Statement (.i2cRcrc dev reg) := by
  refine (Row.fits_ofFields (po := 0x1a) (pf := 0) (pa := 0) (pb := 0) (pi := 0) (mo := 0xff) (mf := 0xff) (ma := 0x0)
    (mb := 0x0) (mi := 0xffffffff) rfl rfl _ _ _ _ _).2 ⟨by decide, by decide, BitVec.and_zero, BitVec.and_zero,
      by decide⟩

theorem Opcode.gpioSetup (pin : Byte) (mode : PinMode) (pull : Pull) (init : Bool) : Opcode.Statement (.gpioSetup pin mode pull init) := by
  simp only [Opcode.Statement, encode, opOf_ofFields, Instr.row]; decide

theorem FitsRow.gpioSetup (pin : Byte) (mode : PinMode) (pull : Pull) (init : Bool) : FitsRow.Statement (.gpioSetup pin mode pull init) := by
  refine (Row.fits_ofFields (po := 0x20) (pf := 0) (pa := 0) (pb := 0) (pi := 0) (mo := 0xff) (mf := 0xe0) (ma := 0x0)
    (mb := 0xff) (mi := 0xffffffff) rfl rfl _ _ _ _ _).2 ⟨by decide, flagsSetup_masked _ _ _, BitVec.and_zero, by decide,
      by decide⟩

theorem Opcode.gpioOut (pin : Byte) (value : Bool) : Opcode.Statement (.gpioOut pin value) := by
  simp only [Opcode.Statement, encode, opOf_ofFields, Instr.row]; decide

theorem FitsRow.gpioOut (pin : Byte) (value : Bool) : FitsRow.Statement (.gpioOut pin value) := by
  refine (Row.fits_ofFields (po := 0x21) (pf := 0) (pa := 0) (pb := 0) (pi := 0) (mo := 0xff) (mf := 0xff) (ma := 0x0)
    (mb := 0xff) (mi := 0xfffffffe) rfl rfl _ _ _ _ _).2 ⟨by decide, by decide, BitVec.and_zero, by decide,
      immBit_masked _⟩

theorem Opcode.gpioIn (pin : Byte) : Opcode.Statement (.gpioIn pin) := by
  simp only [Opcode.Statement, encode, opOf_ofFields, Instr.row]; decide

theorem FitsRow.gpioIn (pin : Byte) : FitsRow.Statement (.gpioIn pin) := by
  refine (Row.fits_ofFields (po := 0x22) (pf := 0) (pa := 0) (pb := 0) (pi := 0) (mo := 0xff) (mf := 0xff) (ma := 0x0)
    (mb := 0xff) (mi := 0xffffffff) rfl rfl _ _ _ _ _).2 ⟨by decide, by decide, BitVec.and_zero, by decide,
      by decide⟩

theorem Opcode.gpioInm (len : Byte) : Opcode.Statement (.gpioInm len) := by
  simp only [Opcode.Statement, encode, opOf_ofFields, Instr.row]; decide

theorem FitsRow.gpioInm (len : Byte) : FitsRow.Statement (.gpioInm len) := by
  refine (Row.fits_ofFields (po := 0x23) (pf := 0) (pa := 0) (pb := 0) (pi := 0) (mo := 0xff) (mf := 0xff) (ma := 0xff)
    (mb := 0xff) (mi := 0xffffff00) rfl rfl _ _ _ _ _).2 ⟨by decide, by decide, by decide, by decide,
      immLen_masked _⟩

theorem Opcode.gpioArm (pin : Byte) (edge : Edge) (cb : Option Byte) : Opcode.Statement (.gpioArm pin edge cb) := by
  simp only [Opcode.Statement, encode, opOf_ofFields, Instr.row]; decide

theorem FitsRow.gpioArm (pin : Byte) (edge : Edge) (cb : Option Byte) : FitsRow.Statement (.gpioArm pin edge cb) := by
  refine (Row.fits_ofFields (po := 0x24) (pf := 0) (pa := 0) (pb := 0) (pi := 0) (mo := 0xff) (mf := 0xf8) (ma := 0x0)
    (mb := 0x0) (mi := 0xffffffff) rfl rfl _ _ _ _ _).2 ⟨by decide, flagsArm_masked _ _, BitVec.and_zero, BitVec.and_zero,
      by decide⟩

theorem Opcode.gpioDisarm (pin : Byte) : Opcode.Statement (.gpioDisarm pin) := by
  simp only [Opcode.Statement, encode, opOf_ofFields, Instr.row]; decide

theorem FitsRow.gpioDisarm (pin : Byte) : FitsRow.Statement (.gpioDisarm pin) := by
  refine (Row.fits_ofFields (po := 0x25) (pf := 0) (pa := 0) (pb := 0) (pi := 0) (mo := 0xff) (mf := 0xff) (ma := 0x0)
    (mb := 0xff) (mi := 0xffffffff) rfl rfl _ _ _ _ _).2 ⟨by decide, by decide, BitVec.and_zero, by decide,
      by decide⟩

theorem Opcode.gpioSetcb (pin : Byte) (tag : Byte) : Opcode.Statement (.gpioSetcb pin tag) := by
  simp only [Opcode.Statement, encode, opOf_ofFields, Instr.row]; decide

theorem FitsRow.gpioSetcb (pin : Byte) (tag : Byte) : FitsRow.Statement (.gpioSetcb pin tag) := by
  refine (Row.fits_ofFields (po := 0x26) (pf := 0) (pa := 0) (pb := 0) (pi := 0) (mo := 0xff) (mf := 0xff) (ma := 0x0)
    (mb := 0x0) (mi := 0xffffffff) rfl rfl _ _ _ _ _).2 ⟨by decide, by decide, BitVec.and_zero, BitVec.and_zero,
      by decide⟩

theorem Opcode.gpioPoll (pin : Byte) : Opcode.Statement (.gpioPoll pin) := by
  simp only [Opcode.Statement, encode, opOf_ofFields, Instr.row]; decide

theorem FitsRow.gpioPoll (pin : Byte) : FitsRow.Statement (.gpioPoll pin) := by
  refine (Row.fits_ofFields (po := 0x27) (pf := 0) (pa := 0) (pb := 0) (pi := 0) (mo := 0xff) (mf := 0xff) (ma := 0x0)
    (mb := 0xff) (mi := 0xffffffff) rfl rfl _ _ _ _ _).2 ⟨by decide, by decide, BitVec.and_zero, by decide,
      by decide⟩

theorem Opcode.gpioWait (pin : Byte) (edge : Edge) (timeout : Word) : Opcode.Statement (.gpioWait pin edge timeout) := by
  simp only [Opcode.Statement, encode, opOf_ofFields, Instr.row]; decide

theorem FitsRow.gpioWait (pin : Byte) (edge : Edge) (timeout : Word) : FitsRow.Statement (.gpioWait pin edge timeout) := by
  refine (Row.fits_ofFields (po := 0x28) (pf := 0) (pa := 0) (pb := 0) (pi := 0) (mo := 0xff) (mf := 0xfc) (ma := 0x0)
    (mb := 0xff) (mi := 0x0) rfl rfl _ _ _ _ _).2 ⟨by decide, flagsWait_masked _, BitVec.and_zero, by decide,
      BitVec.and_zero⟩

end Sys2Proof.Laws
end

