-- ==== Sys2Proof/Laws/Rows.lean ====
section
/-! SUPPORT. When a word fits a row of the opcode table, field by field (`30_encoding.md` R93, R98). -/

namespace Sys2Proof

@[simp] theorem and_ones8 (v : Byte) : v &&& 255#8 = v := BitVec.and_allOnes

@[simp] theorem and_ones32 (v : Word) : v &&& 4294967295#32 = v := BitVec.and_allOnes

section Rows

variable (op flg a b : Byte) (imm : Word)

theorem rowI2cWraw_fits : rowI2cWraw.fits (ofFields op flg a b imm) = true ↔
    op = 0x10 ∧ flg = 0 ∧ b = 0 := by
  rw [Row.fits_ofFields (po := 0x10) (pf := 0) (pa := 0) (pb := 0) (pi := 0) (mo := 0xff) (mf := 0xff) (ma := 0x0)
    (mb := 0xff) (mi := 0x0) (by decide) (by decide)]
  simp

theorem rowI2cWb_fits : rowI2cWb.fits (ofFields op flg a b imm) = true ↔
    op = 0x11 ∧ flg = 0 := by
  rw [Row.fits_ofFields (po := 0x11) (pf := 0) (pa := 0) (pb := 0) (pi := 0) (mo := 0xff) (mf := 0xff) (ma := 0x0)
    (mb := 0x0) (mi := 0x0) (by decide) (by decide)]
  simp

theorem rowI2cWw_fits : rowI2cWw.fits (ofFields op flg a b imm) = true ↔
    op = 0x12 ∧ flg = 0 := by
  rw [Row.fits_ofFields (po := 0x12) (pf := 0) (pa := 0) (pb := 0) (pi := 0) (mo := 0xff) (mf := 0xff) (ma := 0x0)
    (mb := 0x0) (mi := 0x0) (by decide) (by decide)]
  simp

theorem rowI2cWblk_fits : rowI2cWblk.fits (ofFields op flg a b imm) = true ↔
    op = 0x13 ∧ flg = 0 ∧ imm &&& 0xffffff00 = 0 := by
  rw [Row.fits_ofFields (po := 0x13) (pf := 0) (pa := 0) (pb := 0) (pi := 0) (mo := 0xff) (mf := 0xff) (ma := 0x0)
    (mb := 0x0) (mi := 0xffffff00) (by decide) (by decide)]
  simp

theorem rowI2cRraw_fits : rowI2cRraw.fits (ofFields op flg a b imm) = true ↔
    op = 0x14 ∧ flg = 0 ∧ b = 0 ∧ imm = 0 := by
  rw [Row.fits_ofFields (po := 0x14) (pf := 0) (pa := 0) (pb := 0) (pi := 0) (mo := 0xff) (mf := 0xff) (ma := 0x0)
    (mb := 0xff) (mi := 0xffffffff) (by decide) (by decide)]
  simp

theorem rowI2cRub_fits : rowI2cRub.fits (ofFields op flg a b imm) = true ↔
    op = 0x15 ∧ flg = 0 ∧ imm = 0 := by
  rw [Row.fits_ofFields (po := 0x15) (pf := 0) (pa := 0) (pb := 0) (pi := 0) (mo := 0xff) (mf := 0xff) (ma := 0x0)
    (mb := 0x0) (mi := 0xffffffff) (by decide) (by decide)]
  simp

theorem rowI2cRsb_fits : rowI2cRsb.fits (ofFields op flg a b imm) = true ↔
    op = 0x16 ∧ flg = 0 ∧ imm = 0 := by
  rw [Row.fits_ofFields (po := 0x16) (pf := 0) (pa := 0) (pb := 0) (pi := 0) (mo := 0xff) (mf := 0xff) (ma := 0x0)
    (mb := 0x0) (mi := 0xffffffff) (by decide) (by decide)]
  simp

theorem rowI2cRuw_fits : rowI2cRuw.fits (ofFields op flg a b imm) = true ↔
    op = 0x17 ∧ flg &&& 0xfe = 0 ∧ imm = 0 := by
  rw [Row.fits_ofFields (po := 0x17) (pf := 0) (pa := 0) (pb := 0) (pi := 0) (mo := 0xff) (mf := 0xfe) (ma := 0x0)
    (mb := 0x0) (mi := 0xffffffff) (by decide) (by decide)]
  simp

theorem rowI2cRsw_fits : rowI2cRsw.fits (ofFields op flg a b imm) = true ↔
    op = 0x18 ∧ flg &&& 0xfe = 0 ∧ imm = 0 := by
  rw [Row.fits_ofFields (po := 0x18) (pf := 0) (pa := 0) (pb := 0) (pi := 0) (mo := 0xff) (mf := 0xfe) (ma := 0x0)
    (mb := 0x0) (mi := 0xffffffff) (by decide) (by decide)]
  simp

theorem rowI2cRblk_fits : rowI2cRblk.fits (ofFields op flg a b imm) = true ↔
    op = 0x19 ∧ flg = 0 ∧ imm &&& 0xffffff00 = 0 := by
  rw [Row.fits_ofFields (po := 0x19) (pf := 0) (pa := 0) (pb := 0) (pi := 0) (mo := 0xff) (mf := 0xff) (ma := 0x0)
    (mb := 0x0) (mi := 0xffffff00) (by decide) (by decide)]
  simp

theorem rowI2cRcrc_fits : rowI2cRcrc.fits (ofFields op flg a b imm) = true ↔
    op = 0x1a ∧ flg = 0 ∧ imm = 0 := by
  rw [Row.fits_ofFields (po := 0x1a) (pf := 0) (pa := 0) (pb := 0) (pi := 0) (mo := 0xff) (mf := 0xff) (ma := 0x0)
    (mb := 0x0) (mi := 0xffffffff) (by decide) (by decide)]
  simp

theorem rowGpioSetup_fits : rowGpioSetup.fits (ofFields op flg a b imm) = true ↔
    op = 0x20 ∧ flg &&& 0xe0 = 0 ∧ b = 0 ∧ imm = 0 := by
  rw [Row.fits_ofFields (po := 0x20) (pf := 0) (pa := 0) (pb := 0) (pi := 0) (mo := 0xff) (mf := 0xe0) (ma := 0x0)
    (mb := 0xff) (mi := 0xffffffff) (by decide) (by decide)]
  simp

theorem rowGpioOut_fits : rowGpioOut.fits (ofFields op flg a b imm) = true ↔
    op = 0x21 ∧ flg = 0 ∧ b = 0 ∧ imm &&& 0xfffffffe = 0 := by
  rw [Row.fits_ofFields (po := 0x21) (pf := 0) (pa := 0) (pb := 0) (pi := 0) (mo := 0xff) (mf := 0xff) (ma := 0x0)
    (mb := 0xff) (mi := 0xfffffffe) (by decide) (by decide)]
  simp

theorem rowGpioIn_fits : rowGpioIn.fits (ofFields op flg a b imm) = true ↔
    op = 0x22 ∧ flg = 0 ∧ b = 0 ∧ imm = 0 := by
  rw [Row.fits_ofFields (po := 0x22) (pf := 0) (pa := 0) (pb := 0) (pi := 0) (mo := 0xff) (mf := 0xff) (ma := 0x0)
    (mb := 0xff) (mi := 0xffffffff) (by decide) (by decide)]
  simp

theorem rowGpioInm_fits : rowGpioInm.fits (ofFields op flg a b imm) = true ↔
    op = 0x23 ∧ flg = 0 ∧ a = 0 ∧ b = 0 ∧ imm &&& 0xffffff00 = 0 := by
  rw [Row.fits_ofFields (po := 0x23) (pf := 0) (pa := 0) (pb := 0) (pi := 0) (mo := 0xff) (mf := 0xff) (ma := 0xff)
    (mb := 0xff) (mi := 0xffffff00) (by decide) (by decide)]
  simp

theorem rowGpioArm_fits : rowGpioArm.fits (ofFields op flg a b imm) = true ↔
    op = 0x24 ∧ flg &&& 0xf8 = 0 ∧ imm = 0 := by
  rw [Row.fits_ofFields (po := 0x24) (pf := 0) (pa := 0) (pb := 0) (pi := 0) (mo := 0xff) (mf := 0xf8) (ma := 0x0)
    (mb := 0x0) (mi := 0xffffffff) (by decide) (by decide)]
  simp

theorem rowGpioDisarm_fits : rowGpioDisarm.fits (ofFields op flg a b imm) = true ↔
    op = 0x25 ∧ flg = 0 ∧ b = 0 ∧ imm = 0 := by
  rw [Row.fits_ofFields (po := 0x25) (pf := 0) (pa := 0) (pb := 0) (pi := 0) (mo := 0xff) (mf := 0xff) (ma := 0x0)
    (mb := 0xff) (mi := 0xffffffff) (by decide) (by decide)]
  simp

theorem rowGpioSetcb_fits : rowGpioSetcb.fits (ofFields op flg a b imm) = true ↔
    op = 0x26 ∧ flg = 0 ∧ imm = 0 := by
  rw [Row.fits_ofFields (po := 0x26) (pf := 0) (pa := 0) (pb := 0) (pi := 0) (mo := 0xff) (mf := 0xff) (ma := 0x0)
    (mb := 0x0) (mi := 0xffffffff) (by decide) (by decide)]
  simp

theorem rowGpioPoll_fits : rowGpioPoll.fits (ofFields op flg a b imm) = true ↔
    op = 0x27 ∧ flg = 0 ∧ b = 0 ∧ imm = 0 := by
  rw [Row.fits_ofFields (po := 0x27) (pf := 0) (pa := 0) (pb := 0) (pi := 0) (mo := 0xff) (mf := 0xff) (ma := 0x0)
    (mb := 0xff) (mi := 0xffffffff) (by decide) (by decide)]
  simp

theorem rowGpioWait_fits : rowGpioWait.fits (ofFields op flg a b imm) = true ↔
    op = 0x28 ∧ flg &&& 0xfc = 0 ∧ b = 0 := by
  rw [Row.fits_ofFields (po := 0x28) (pf := 0) (pa := 0) (pb := 0) (pi := 0) (mo := 0xff) (mf := 0xfc) (ma := 0x0)
    (mb := 0xff) (mi := 0x0) (by decide) (by decide)]
  simp

/-- The decoder, field by field. -/
theorem decodeWord_ofFields : decodeWord (ofFields op flg a b imm) =
  if op = 0x10 then (if flg = 0 ∧ b = 0 then some (.i2cWraw a imm) else none)
  else if op = 0x11 then (if flg = 0 then some (.i2cWb a b imm) else none)
  else if op = 0x12 then (if flg = 0 then some (.i2cWw a b imm) else none)
  else if op = 0x13 then (if flg = 0 ∧ imm &&& 0xffffff00 = 0 ∧ imm.setWidth 8 ≠ 0#8 then some (.i2cWblk a b (imm.setWidth 8)) else none)
  else if op = 0x14 then (if flg = 0 ∧ b = 0 ∧ imm = 0 then some (.i2cRraw a) else none)
  else if op = 0x15 then (if flg = 0 ∧ imm = 0 then some (.i2cRub a b) else none)
  else if op = 0x16 then (if flg = 0 ∧ imm = 0 then some (.i2cRsb a b) else none)
  else if op = 0x17 then (if flg &&& 0xfe = 0 ∧ imm = 0 then some (.i2cRuw (flg.getLsbD 0) a b) else none)
  else if op = 0x18 then (if flg &&& 0xfe = 0 ∧ imm = 0 then some (.i2cRsw (flg.getLsbD 0) a b) else none)
  else if op = 0x19 then (if flg = 0 ∧ imm &&& 0xffffff00 = 0 ∧ imm.setWidth 8 ≠ 0#8 then some (.i2cRblk a b (imm.setWidth 8)) else none)
  else if op = 0x1A then (if flg = 0 ∧ imm = 0 then some (.i2cRcrc a b) else none)
  else if op = 0x20 then (if flg &&& 0xe0 = 0 ∧ b = 0 ∧ imm = 0 then decodeSetup (ofFields op flg a b imm) else none)
  else if op = 0x21 then (if flg = 0 ∧ b = 0 ∧ imm &&& 0xfffffffe = 0 then some (.gpioOut a (imm.getLsbD 0)) else none)
  else if op = 0x22 then (if flg = 0 ∧ b = 0 ∧ imm = 0 then some (.gpioIn a) else none)
  else if op = 0x23 then (if flg = 0 ∧ a = 0 ∧ b = 0 ∧ imm &&& 0xffffff00 = 0 ∧ imm.setWidth 8 ≠ 0#8 then some (.gpioInm (imm.setWidth 8)) else none)
  else if op = 0x24 then (if flg &&& 0xf8 = 0 ∧ imm = 0 then decodeArm (ofFields op flg a b imm) else none)
  else if op = 0x25 then (if flg = 0 ∧ b = 0 ∧ imm = 0 then some (.gpioDisarm a) else none)
  else if op = 0x26 then (if flg = 0 ∧ imm = 0 then some (.gpioSetcb a b) else none)
  else if op = 0x27 then (if flg = 0 ∧ b = 0 ∧ imm = 0 then some (.gpioPoll a) else none)
  else if op = 0x28 then (if flg &&& 0xfc = 0 ∧ b = 0 then decodeWait (ofFields op flg a b imm) else none)
  else none := by
  unfold decodeWord
  simp only [rowI2cWraw_fits, rowI2cWb_fits, rowI2cWw_fits, rowI2cWblk_fits, rowI2cRraw_fits, rowI2cRub_fits,
    rowI2cRsb_fits, rowI2cRuw_fits, rowI2cRsw_fits, rowI2cRblk_fits, rowI2cRcrc_fits, rowGpioSetup_fits,
    rowGpioOut_fits, rowGpioIn_fits, rowGpioInm_fits, rowGpioArm_fits, rowGpioDisarm_fits, rowGpioSetcb_fits,
    rowGpioPoll_fits, rowGpioWait_fits, decodeLen, aOf_ofFields, bOf_ofFields, immOf_ofFields, flgOf_ofFields, lenOf_ofFields]
  have h0 : (ofFields op flg a b imm).getLsbD 0 = imm.getLsbD 0 := by rw [getLsbD_ofFields]; rfl
  rw [h0]
  by_cases h : op = 0x10
  · subst h; simp
  by_cases h : op = 0x11
  · subst h; simp
  by_cases h : op = 0x12
  · subst h; simp
  by_cases h : op = 0x13
  · subst h; simp
    split_ifs <;> simp_all
  by_cases h : op = 0x14
  · subst h; simp
  by_cases h : op = 0x15
  · subst h; simp
  by_cases h : op = 0x16
  · subst h; simp
  by_cases h : op = 0x17
  · subst h; simp
  by_cases h : op = 0x18
  · subst h; simp
  by_cases h : op = 0x19
  · subst h; simp
    split_ifs <;> simp_all
  by_cases h : op = 0x1A
  · subst h; simp
  by_cases h : op = 0x20
  · subst h; simp
  by_cases h : op = 0x21
  · subst h; simp
  by_cases h : op = 0x22
  · subst h; simp
  by_cases h : op = 0x23
  · subst h; simp
    split_ifs <;> simp_all
  by_cases h : op = 0x24
  · subst h; simp
  by_cases h : op = 0x25
  · subst h; simp
  by_cases h : op = 0x26
  · subst h; simp
  by_cases h : op = 0x27
  · subst h; simp
  by_cases h : op = 0x28
  · subst h; simp
  simp_all

end Rows

end Sys2Proof
end

