-- ==== Sys2Proof/Tests/Slice0.lean ====
section
/-! SUPPORT. The model's own tests. Every expected word, response and effect is taken from the spec: `30_encoding.md`
section 8, the examples of the instruction rules, and `95_test_vectors.md` (S1 to S8, V1 to V8, P1 to P5). Each test is one step
on a small state. The last section gives, for every obligation with hypotheses, states and operands that meet them. -/

namespace Sys2Proof.Tests

open Sys2Proof.Machine

/-! ### Small states and what a step leaves -/

/-- The default parameters of the test vectors: `NATIVE_LE = true`, `p < 32`. -/
def plat : Platform := ⟨true, 0xFFFFFFFF, 0⟩

/-- Reset, with every pin low. -/
def low : State := .powerOn plat 0

/-- Reset, with every pin high. -/
def high : State := .powerOn plat (BitVec.allOnes 256)

/-- A transport that gives these answers. -/
def answers (as : List Answer) : State := { low with bus := .oracle as }

/-- The fixture `FIX(d, M)`. -/
def fix (d : Byte) (m : List Host.Cell) : State := { low with bus := .fixture d m }

def inputPin : Pin := { Pin.atReset with mode := .input }
def outputPin : Pin := { Pin.atReset with mode := .output }
def risingPin : Pin := { inputPin with armed := true, edge := 1 }

/-- Pin 4 has this record, every pin is low. -/
def pin4 (r : Pin) : State := { low with pins := [(4, r)] }

/-- Pin 4 has this record, every pin is high. -/
def pin4High (r : Pin) : State := { high with pins := [(4, r)] }

/-- Issue a command word with its payload: one step. -/
def issueOn (s : State) (w : Quad) (payload : List Byte := []) : Host.Outcome State Fault Refusal :=
  step (s.place ⟨w, payload⟩)

/-- One step of another agent, scheduled on the agenda. -/
def agentOn (s : State) (a : AgentStep) : Host.Outcome State Fault Refusal := step { s with agenda := [a] }

/-- The state after a step that goes on. -/
def after : Host.Outcome State Fault Refusal → State
  | .next t => t
  | _ => low

/-- A field of the state after a step, if the step goes on. -/
def seen {α : Type} (f : State → α) : Host.Outcome State Fault Refusal → Option α
  | .next t => some (f t)
  | _ => none

/-- What an I2C step sent and answered. -/
def busView (t : State) : List Request × List Quad := (t.requests, t.rspq)

/-! ### Well-formedness: each check with a term it refuses -/

theorem test_wf_refuses_wblk_len0 : (Instr.i2cWblk 0x50 0x10 0).wf = false := by decide
theorem test_wf_refuses_rblk_len0 : (Instr.i2cRblk 0x50 0x0F 0).wf = false := by decide
theorem test_wf_refuses_inm_len0 : (Instr.gpioInm 0).wf = false := by decide
theorem test_wf_accepts_block_boundaries : (Instr.i2cWblk 0 0 1).wf = true ∧ (Instr.i2cRblk 0 0 255).wf = true ∧
    (Instr.gpioInm 255).wf = true := by decide

/-! ### Decoding and encoding: the spec's words (`30_encoding.md` section 8, V1 to V7) -/

theorem test_word_wraw : decodeWord 0x10004000FFFFFFFF = some (.i2cWraw 0x40 0xFFFFFFFF) ∧
    encode (.i2cWraw 0x40 0xFFFFFFFF) = 0x10004000FFFFFFFF := by decide
theorem test_word_wb : decodeWord 0x110040E6000001C2 = some (.i2cWb 0x40 0xE6 0x1C2) ∧
    encode (.i2cWb 0x40 0xE6 0x1C2) = 0x110040E6000001C2 := by decide
theorem test_word_ww : decodeWord 0x1200480100012345 = some (.i2cWw 0x48 0x01 0x12345) ∧
    encode (.i2cWw 0x48 0x01 0x12345) = 0x1200480100012345 := by decide
theorem test_word_wblk : decodeWord 0x1300501000000003 = some (.i2cWblk 0x50 0x10 3) ∧
    encode (.i2cWblk 0x50 0x10 3) = 0x1300501000000003 := by decide
theorem test_word_rraw : decodeWord 0x1400400000000000 = some (.i2cRraw 0x40) ∧
    encode (.i2cRraw 0x40) = 0x1400400000000000 := by decide
theorem test_word_rub : decodeWord 0x150040E700000000 = some (.i2cRub 0x40 0xE7) ∧
    encode (.i2cRub 0x40 0xE7) = 0x150040E700000000 := by decide
theorem test_word_rsb : decodeWord 0x160040E700000000 = some (.i2cRsb 0x40 0xE7) ∧
    encode (.i2cRsb 0x40 0xE7) = 0x160040E700000000 := by decide
theorem test_word_ruw : decodeWord 0x170140E300000000 = some (.i2cRuw true 0x40 0xE3) ∧
    decodeWord 0x170040E300000000 = some (.i2cRuw false 0x40 0xE3) ∧
    encode (.i2cRuw true 0x40 0xE3) = 0x170140E300000000 := by decide
theorem test_word_rsw : decodeWord 0x1801480000000000 = some (.i2cRsw true 0x48 0x00) ∧
    decodeWord 0x1800480000000000 = some (.i2cRsw false 0x48 0x00) ∧
    encode (.i2cRsw false 0x48 0x00) = 0x1800480000000000 := by decide
theorem test_word_rblk : decodeWord 0x1900500F00000005 = some (.i2cRblk 0x50 0x0F 5) ∧
    encode (.i2cRblk 0x50 0x0F 5) = 0x1900500F00000005 := by decide
theorem test_word_rcrc : decodeWord 0x1A0040E300000000 = some (.i2cRcrc 0x40 0xE3) ∧
    encode (.i2cRcrc 0x40 0xE3) = 0x1A0040E300000000 := by decide
theorem test_word_setup : decodeWord 0x2012110000000000 = some (.gpioSetup 17 .output .none true) ∧
    decodeWord 0x200B060000000000 = some (.gpioSetup 6 .alternate .down false) ∧
    encode (.gpioSetup 5 .input .up false) = 0x2005050000000000 := by decide
theorem test_word_out : decodeWord 0x2100110000000001 = some (.gpioOut 17 true) ∧
    encode (.gpioOut 17 true) = 0x2100110000000001 := by decide
theorem test_word_in : decodeWord 0x2200040000000000 = some (.gpioIn 4) ∧
    encode (.gpioIn 4) = 0x2200040000000000 := by decide
theorem test_word_inm : decodeWord 0x2300000000000003 = some (.gpioInm 3) ∧
    encode (.gpioInm 3) = 0x2300000000000003 := by decide
theorem test_word_arm : decodeWord 0x2405040000000000 = some (.gpioArm 4 .rising (some 0)) ∧
    decodeWord 0x2402040000000000 = some (.gpioArm 4 .falling none) ∧
    encode (.gpioArm 4 .both (some 0x7E)) = 0x2407047E00000000 := by decide
theorem test_word_disarm : decodeWord 0x2500060000000000 = some (.gpioDisarm 6) ∧
    encode (.gpioDisarm 6) = 0x2500060000000000 := by decide
theorem test_word_setcb : decodeWord 0x2600042100000000 = some (.gpioSetcb 4 0x21) ∧
    encode (.gpioSetcb 4 0x21) = 0x2600042100000000 := by decide
theorem test_word_poll : decodeWord 0x2700C80000000000 = some (.gpioPoll 200) ∧
    encode (.gpioPoll 200) = 0x2700C80000000000 := by decide
theorem test_word_wait : decodeWord 0x28010400FFFFFFFF = some (.gpioWait 4 .rising 4294967295) ∧
    encode (.gpioWait 6 .both 1000) = 0x28030600000003E8 := by decide

/-- The illegal words of V1, in its order. -/
theorem test_illegal_words : ([0x1001400000000000, 0x1000400100000000, 0x170240E300000000,
    0x170140E300000001, 0x1900500F00000000, 0x1900500F00000105, 0x1B00000000000000, 0x2B00000000000000,
    0x0000000000000000, 0xFFFFFFFFFFFFFFFF, 0x200D040000000000, 0x2021040000000000, 0x2100110000000002,
    0x2200040000000001, 0x2300040000000003, 0x2400040000000000, 0x2401042100000000, 0x2404040000000000,
    0x2800040000000064, 0x2801040100000064] : List Quad).all (fun w => (decodeWord w).isNone) =
    true := by decide +kernel

/-- No two rows of the opcode table overlap in OP (R106). -/
theorem test_rows_differ_in_op : (rows.map fun r => opOf r.pattern).Nodup := by decide

/-- The table word of a row, as the host numbers it. -/
theorem test_decode_table_word : decodeTableWord 64 0x2801040000000064 = some (.gpioWait 4 .rising 100) := by decide

/-! ### The assembler (R104, R105) -/

theorem test_assemble_payload : assemble (.i2cWblk 0x50 0x10 [0xDE, 0xAD, 0xBE]) =
    some ⟨0x1300501000000003, [0xDE, 0xAD, 0xBE]⟩ := by decide
theorem test_assemble_negative_value : assemble (.i2cWraw 0x40 (-1)) = some ⟨0x10004000FFFFFFFF, []⟩ := by decide
theorem test_assemble_defaults : assemble (.i2cRuw 0x40 0xE3 none) = some ⟨0x170140E300000000, []⟩ ∧
    assemble (.gpioArm 4 .rising none) = some ⟨0x2401040000000000, []⟩ ∧
    assemble (.gpioWait 4 .rising none) = none ∧ assemble (.gpioInm []) = none := by decide

/-! ### I2C writes (V2) -/

theorem test_wraw_truncates : seen busView (issueOn (answers [.ack []]) 0x10004000000001FF) =
    some ([.writeByte 0x40 0xFF], [0x0000000000000000]) := by decide
theorem test_wraw_nack : seen busView (issueOn (answers [.nack]) 0x10004000000000FE) =
    some ([.writeByte 0x40 0xFE], [0x1000000000000000]) := by decide
theorem test_wb : seen busView (issueOn (answers [.ack []]) 0x110040E6000001C2) =
    some ([.writeByteData 0x40 0xE6 0xC2], [0x0000000000000000]) := by decide
theorem test_ww : seen busView (issueOn (answers [.ack []]) 0x1200480100012345) =
    some ([.writeWordData 0x48 0x01 0x2345], [0x0000000000000000]) := by decide
/-- P3: `0xABCD` goes to `M[2]` low byte first. -/
theorem test_ww_wire_order : seen (·.bus) (issueOn (fix 0x48 []) 0x120048020001ABCD) =
    some (.fixture 0x48 [(2, 0xCD), (3, 0xAB)]) := by decide
theorem test_wblk : seen busView (issueOn (answers [.ack []]) 0x1300501000000003 [0xDE, 0xAD, 0xBE]) =
    some ([.writeBlock 0x50 0x10 [0xDE, 0xAD, 0xBE]], [0x0000000000000000]) := by decide
theorem test_wblk_missing_byte : issueOn low 0x1300501000000003 [0xDE] = .refused (.txbufNoValue 1) := by rfl

/-! ### I2C reads (V3, V4) -/

theorem test_rraw : seen busView (issueOn (answers [.ack [0x3A]]) 0x1400400000000000) =
    some ([.readByte 0x40], [0x080000000000003A]) := by decide
theorem test_rub : seen busView (issueOn (answers [.ack [0x82]]) 0x150040E700000000) =
    some ([.readByteData 0x40 0xE7], [0x0800000000000082]) := by decide
theorem test_rsb : seen busView (issueOn (answers [.ack [0x80]]) 0x160040E700000000) =
    some ([.readByteData 0x40 0xE7], [0x08000000FFFFFF80]) := by decide
theorem test_rsb_trace : seen (·.trace) (issueOn (answers [.ack [0x82]]) 0x160040E700000000) =
    some [⟨0x40, some 0xE7, .read, .ok, .int (-126)⟩] := by decide
theorem test_ruw_le : seen busView (issueOn (answers [.ack [0x34, 0x85]]) 0x1701480000000000) =
    some ([.readWordData 0x48 0x00], [0x0800000000008534]) := by decide
theorem test_ruw_be : seen (·.rspq) (issueOn (answers [.ack [0x34, 0x85]]) 0x1700480000000000) =
    some [0x0800000000003485] := by decide
theorem test_rsw_le : seen (·.rspq) (issueOn (answers [.ack [0x34, 0x85]]) 0x1801480000000000) =
    some [0x08000000FFFF8534] := by decide
/-- The sign is taken after the mux: `0x7FFF` read `be` is -129. -/
theorem test_rsw_be : seen (·.rspq) (issueOn (answers [.ack [0xFF, 0x7F]]) 0x1800480000000000) =
    some [0x08000000FFFFFF7F] := by decide
theorem test_rblk : seen (fun t => (t.rspq, t.rxlen, t.rxbuf)) (issueOn (answers [.ack [0x4E, 0x85, 0x6B]])
    0x190040E300000003) = some ([0x0000000300000000], 3, [(0, 0x4E), (1, 0x85), (2, 0x6B)]) := by decide
theorem test_rblk_nack_clears : seen (fun t => (t.rspq, t.rxlen, t.rxbuf))
    (issueOn ((answers [.nack]).setRx [1, 2]) 0x1900510F00000005) = some ([0x1000000000000000], 0, []) := by decide

/-! ### The CRC (S1, V5, R154) and the CRC-checked read -/

theorem test_crc_valid_blocks : ([(0x4E, 0x85, 0x6B), (0x4E, 0x86, 0x38), (0x4E, 0x87, 0x09), (0, 0, 0),
    (0, 1, 0x31), (0xFF, 0xFF, 0x2D), (0x80, 0, 0x23), (0x68, 0x3A, 0x7C), (0, 0xDC, 0x79), (0x12, 0x34, 0xB6),
    (0xBE, 0xEF, 0x13), (0x63, 0x52, 0x64)] : List (Byte × Byte × Byte)).all
    (fun b => crcCheck b.1 b.2.1 b.2.2 && crcGenerate b.1 b.2.1 == b.2.2) = true := by decide +kernel
theorem test_crc_invalid_blocks : ([(0x4E, 0x85, 0x6A), (0x4E, 0x85, 0), (0x4F, 0x85, 0x6B), (0x4E, 0x84, 0x6B),
    (0x85, 0x4E, 0x6B), (0, 0, 1), (0xFF, 0xFF, 0xFF)] : List (Byte × Byte × Byte)).all
    (fun b => !crcCheck b.1 b.2.1 b.2.2) = true := by decide +kernel
/-- R154 after iterations 1 and 8. -/
theorem test_crc_trace : crcLoop 14 0x02C56B 0x262000 = crcLoop 16 0x4E856B 0x988000 ∧
    crcLoop 7 0x003FEB 0x004C40 = crcLoop 16 0x4E856B 0x988000 ∧ crcLoop 16 0x4E856B 0x988000 = 0 := by decide +kernel
theorem test_rcrc : seen busView (issueOn (answers [.ack [0x4E, 0x87, 0x09]]) 0x1A0040E300000000) =
    some ([.readBlock 0x40 0xE3 3], [0x0800000000004E84]) := by decide +kernel
theorem test_rcrc_bad_checksum : seen (fun t => (t.rspq, t.trace)) (issueOn (answers [.ack [0x4E, 0x85, 0x6A]])
    0x1A0040E300000000) = some ([0x2000000000000000], [⟨0x40, some 0xE3, .read, .checksumError, .none⟩]) := by decide +kernel

/-! ### GPIO configuration and level (V6) -/

theorem test_setup_input_ignores_init : seen (fun t => (t.pin 4, t.rspq)) (issueOn low 0x2011040000000000) =
    some (inputPin, [0x0000000000000000]) := by decide
theorem test_setup_range : seen (·.rspq) (issueOn low 0x20011F0000000000) = some [0x0000000000000000] ∧
    seen (fun t => (t.pins, t.rspq)) (issueOn low 0x2001200000000000) = some ([], [0x3000000000000000]) := by decide
theorem test_out : seen (fun t => ((t.pin 4).out, t.rspq)) (issueOn (pin4 outputPin) 0x2100040000000001) =
    some (true, [0x0000000000000000]) := by decide
theorem test_out_on_input : seen (fun t => (t.pin 4, t.rspq)) (issueOn (pin4 inputPin) 0x2100040000000001) =
    some (inputPin, [0x4000000000000000]) := by decide
theorem test_in : seen (·.rspq) (issueOn (pin4High inputPin) 0x2200040000000000) = some [0x0800000000000001] := by decide
theorem test_in_keeps_pending : seen (fun t => ((t.pin 4).pending, t.rspq))
    (issueOn (pin4 { risingPin with pending := true }) 0x2200040000000000) =
      some (true, [0x0800000000000000]) := by decide
/-- `GPIO.INM {5, 4, 5}`, pin 4 high, pin 5 low. -/
theorem test_inm : seen (fun t => (t.rspq, t.rxlen, t.rxbuf)) (issueOn
    { low with pins := [(4, inputPin), (5, inputPin)], level := 0x10 } 0x2300000000000003 [5, 4, 5]) =
      some ([0x0000000300000000], 3, [(0, 0), (1, 1), (2, 0)]) := by decide
theorem test_inm_wrong_mode : seen (fun t => (t.rspq, t.rxlen)) (issueOn
    { low with pins := [(4, inputPin), (17, outputPin)] } 0x2300000000000002 [4, 17]) =
      some ([0x4000000000000000], 0) := by decide

/-! ### GPIO edge commands (V7, V8) -/

theorem test_arm : seen (fun t => (t.pin 4, t.rspq)) (issueOn (pin4 inputPin) 0x2407047E00000000) =
    some ({ inputPin with armed := true, edge := 3, cbv := true, cbtag := 0x7E }, [0x0000000000000000]) := by decide
theorem test_arm_armed : seen (fun t => (t.pin 4, t.rspq)) (issueOn (pin4 risingPin) 0x2402040000000000) =
    some (risingPin, [0x4000000000000000]) := by decide
theorem test_disarm_cancels : seen (fun t => (t.pin 4, t.rspq))
    (issueOn (pin4 { risingPin with waiting := true, waitLeft := 2 }) 0x2500040000000000) =
      some (inputPin, [0x6400040000000000, 0x0000000000000000]) := by decide
theorem test_disarm_drops_callbacks : seen (·.cbq) (issueOn
    { pin4 { risingPin with cbv := true, pending := true } with cbq := [5, 4, 6, 4] } 0x2500040000000000) =
      some [5, 6] := by decide
theorem test_setcb : seen (fun t => (t.pin 4, t.rspq)) (issueOn (pin4 risingPin) 0x2600042100000000) =
    some ({ risingPin with cbv := true, cbtag := 0x21 }, [0x0000000000000000]) := by decide
theorem test_setcb_unarmed : seen (fun t => (t.pin 4, t.rspq)) (issueOn (pin4 inputPin) 0x2600042100000000) =
    some (inputPin, [0x4000000000000000]) := by decide
theorem test_poll : seen (fun t => (t.pin 4, t.rspq)) (issueOn (pin4 { risingPin with pending := true })
    0x2700040000000000) = some (risingPin, [0x0800000000000001]) := by decide
theorem test_poll_invalid_pin : seen (fun t => (t.pins, t.rspq)) (issueOn low 0x2700C80000000000) =
    some ([], [0x0800000000000000]) := by decide
theorem test_wait : seen (fun t => (t.pin 4, t.rspq)) (issueOn (pin4 risingPin) 0x2801040000000064) =
    some ({ risingPin with waiting := true, waitLeft := 100 }, []) := by decide
/-- The edge must be equal, not included. -/
theorem test_wait_other_edge : seen (fun t => (t.pin 4, t.rspq)) (issueOn (pin4 risingPin) 0x2803040000000064) =
    some (risingPin, [0x4000000000000000]) := by decide

/-! ### Illegal words and the other agents (V8) -/

theorem test_illegal_response : seen (fun t => (t.rspq, t.requests, t.trace)) (issueOn low 0x1900500F00000000) =
    some ([0x7000000000000000], [], []) := by decide
theorem test_edge_with_callback : seen (fun t => ((t.pin 4).pending, t.cbq, t.levelOf 4))
    (agentOn (pin4 { risingPin with cbv := true }) (.pinChange 4 true)) = some (true, [4], true) := by decide
theorem test_edge_wrong_direction : seen (fun t => ((t.pin 4).pending, t.cbq, t.levelOf 4))
    (agentOn (pin4High { risingPin with cbv := true }) (.pinChange 4 false)) = some (false, [], false) := by decide
/-- P4: the tag is read at delivery, and the edge is consumed. -/
theorem test_deliver : seen (fun t => (t.evq, t.cbq, (t.pin 4).pending)) (agentOn
    { pin4 { risingPin with cbv := true, cbtag := 0x33, pending := true } with cbq := [4, 6] } .deliver) =
      some ([⟨4, 0x33⟩], [6], false) := by decide
theorem test_tick : seen (fun t => (t.pin 4).waitLeft) (agentOn
    (pin4 { risingPin with waiting := true, waitLeft := 3 }) .tick) = some 2 := by decide
theorem test_complete_ok : seen (fun t => (t.pin 4, t.rspq)) (agentOn
    (pin4 { risingPin with waiting := true, waitLeft := 2, pending := true }) (.completeOk 4)) =
      some ({ risingPin with pending := true }, [0x0400040000000000]) := by decide
theorem test_complete_timeout : seen (fun t => (t.pin 4, t.rspq)) (agentOn
    (pin4 { risingPin with waiting := true, waitLeft := 0 }) (.completeTimeout 4)) =
      some (risingPin, [0x5400040000000000]) := by decide
theorem test_complete_timeout_early : agentOn (pin4 { risingPin with waiting := true, waitLeft := 1 })
    (.completeTimeout 4) = .fault (.notEnabled (.completeTimeout 4)) := by rfl


/-! ### Witnesses: concrete states and operands that meet the hypotheses of each obligation, clause by clause -/

/-- The record of a pin of `pin4 r`. -/
theorem pin_pin4 (r : Pin) (q : Byte) : (pin4 r).pin q = if q = 4 then r else Pin.atReset := by
  have h : (4 = q.toNat) ↔ q = 4 := by rw [eq_comm, ← BitVec.toNat_inj]; rfl
  simp only [State.pin, pin4, sparseFind, h]
  split <;> rfl

theorem test_witness_DecodeOfEncodeIsTheInstruction : (Instr.i2cRblk 0xFF 0 255).wf = true ∧
    (Instr.gpioInm 1).wf = true ∧ (Instr.gpioWait 255 .both 0xFFFFFFFF).wf = true := by decide

theorem test_witness_DecodedWordIsItsEncoding : ∃ w i, decodeWord w = some i :=
  ⟨0x170140E300000000, .i2cRuw true 0x40 0xE3, by decide⟩

/-- R100 item 1 at the ends of its ranges; items 2 to 6; and a word that meets none of them. -/
theorem test_witness_DecoderRejectsExactlyTheIllegalWords :
    opUnassigned 0x0F00000000000000 ∧ opUnassigned 0x1B00000000000000 ∧ opUnassigned 0x1F00000000000000 ∧
    opUnassigned 0x2900000000000000 ∧ ¬ opUnassigned 0x1000000000000000 ∧ ¬ opUnassigned 0x2800000000000000 ∧
    mustBeZeroBroken 0x2020000000000000 ∧ ¬ mustBeZeroBroken 0x201F000000000000 ∧
    mustBeZeroBroken 0x1900500F00000100 ∧ ¬ mustBeZeroBroken 0x1900500F000000FF ∧
    reservedOperand 0x1900500F00000000 ∧ reservedOperand 0x200D040000000000 ∧
    reservedOperand 0x2400040000000000 ∧ reservedOperand 0x2800040000000064 ∧
    reservedOperand 0x2401042100000000 ∧ ¬ reservedOperand 0x2405042100000000 := by
  simp only [opUnassigned, mustBeZeroBroken, reservedOperand]
  refine ⟨?_, ?_, ?_, ?_, ?_, ?_, ?_, ?_, ?_, ?_, ?_, ?_, ?_, ?_, ?_, ?_⟩ <;> decide

/-- A line of every form is accepted, at the ends of its ranges; each line out of a range is not. -/
theorem test_witness_AssembledLineDecodesToItsInstruction :
    ([.i2cWraw 255 (-2147483648), .i2cWb 0 255 4294967295, .i2cWw 1 2 0, .i2cWblk 0x50 0x10 [0xDE, 0xAD, 0xBE],
      .i2cRraw 255, .i2cRub 1 2, .i2cRsb 1 2, .i2cRuw 1 2 (some .be), .i2cRuw 1 2 none, .i2cRsw 1 2 (some .le),
      .i2cRblk 1 2 255, .i2cRcrc 1 2, .gpioSetup 255 .alternate .down true, .gpioOut 1 true, .gpioIn 1,
      .gpioInm [5, 4, 5], .gpioArm 4 .both none, .gpioArm 4 .both (some 255), .gpioDisarm 1, .gpioSetcb 1 2,
      .gpioPoll 1, .gpioWait 4 .both (some 4294967295)] : List Asm).all (fun a => (assemble a).isSome) = true ∧
    ([.i2cWraw 256 0, .i2cWb 0 256 0, .i2cWw 1 2 4294967296, .i2cWblk 1 2 [], .i2cWblk 1 2 [256], .i2cRblk 1 2 0,
      .i2cRblk 1 2 256, .gpioInm [], .gpioArm 4 .both (some 256), .gpioWait 4 .both (some 4294967296),
      .gpioWait 4 .both none] : List Asm).all (fun a => (assemble a).isNone) = true := by decide +kernel

theorem test_witness_StepRunsTheDecodedCommand : ∃ (s u : State) (rest : List AgentStep) (c : Command) (i : Instr),
    s.agenda = .issue :: rest ∧ u.agenda = [] ∧ s.prog[s.cp]? = some c ∧ u.prog[u.cp]? = some c ∧
      c.payload.length ≤ 255 ∧ decodeWord c.word = some i :=
  ⟨{ low with prog := [⟨0x2700040000000000, []⟩], agenda := [.issue, .tick] },
    { low with prog := [⟨0x2700040000000000, []⟩] }, [.tick], ⟨0x2700040000000000, []⟩, .gpioPoll 4, rfl, rfl, rfl, rfl,
    by decide, by decide⟩

/-- Payload bytes, and a byte beyond the payload. -/
theorem test_witness_PayloadGoesToTxbuf : (low.fetched ⟨0, [7, 8]⟩).txByte 1 = some 8 ∧
    ((low.writeTx 2 [9]).fetched ⟨0, [7, 8]⟩).txByte 2 = some 9 := by decide

theorem test_witness_PlacedWordIsExecutedNext : decodeWord 0x2300000000000002 = some (.gpioInm 2) ∧
    (low.writeTx 0 [17]).txByte 0 = some 17 := by decide

/-- The placed word runs as the first step after reset. -/
theorem test_fetch_word_from_reset : seen (·.rspq) (step (State.reset.withFetchWord 64 0x2700040000000000)) =
    some [0x0800000000000000] := by decide

/-- An issue first on the agenda, one by the default order, and a payload byte before and after the payload's end. -/
theorem test_witness_IllegalWordAnswersIllegalCommand : ∃ (s u : State) (rest : List AgentStep) (c : Command),
    s.agenda = .issue :: rest ∧ u.agenda = [] ∧ s.prog[s.cp]? = some c ∧ u.prog[u.cp]? = some c ∧
      1 ≤ c.payload.length ∧ c.payload.length ≤ 255 ∧ decodeWord c.word = none :=
  ⟨{ low with prog := [⟨0x1900500F00000000, [7]⟩], agenda := [.issue, .tick] },
    { low with prog := [⟨0x1900500F00000000, [7]⟩] }, [.tick], ⟨0x1900500F00000000, [7]⟩, rfl, rfl, rfl, rfl,
    by decide, by decide, by decide⟩

/-- Both answers to each of the requests the I2C completion statements name. -/
theorem test_witness_i2c_answers : ∀ r ∈ [Request.writeByte 0x40 0xFE, .writeByteData 0x40 0xE6 0xC2,
    .writeWordData 0x48 1 0x2345, .readByte 0x40, .readByteData 0x40 0xE7, .readWordData 0x48 0,
    .readBlock 0x40 0xE3 3], (answers [.ack [0x4E, 0x85, 0x6B]]).acks r = true ∧ (answers [.nack]).acks r = false := by
  decide

/-- The same for each read and write whose statement's hypotheses only name the request and its answer. -/
theorem test_witness_WriteRawByteCompletes : ∃ r : Request, r = .writeByte 0x40 (BitVec.ofNat 8 (0x1FF % 256)) ∧
    (answers [.ack []]).acks r = true ∧ (answers [.nack]).acks r = false := ⟨_, rfl, by decide, by decide⟩

theorem test_witness_WriteByteCompletes : ∃ r : Request, r = .writeByteData 0x40 0xE6 (BitVec.ofNat 8 (0x1C2 % 256)) ∧
    (answers [.ack []]).acks r = true ∧ (answers [.nack]).acks r = false := ⟨_, rfl, by decide, by decide⟩

theorem test_witness_WriteWordCompletes : ∃ r : Request,
    r = .writeWordData 0x48 1 (BitVec.ofNat 16 (0x12345 % 65536)) ∧
    (answers [.ack []]).acks r = true ∧ (answers [.nack]).acks r = false := ⟨_, rfl, by decide, by decide⟩

theorem test_witness_ReadSignedByteCompletes : ∃ (r : Request) (b c : Byte), r = .readByteData 0x40 0xE7 ∧
    b = (answers [.ack [0x7F]]).answerByte r 0 ∧ b.toNat ≤ 127 ∧ c = (answers [.ack [0x80]]).answerByte r 0 ∧
    ¬ c.toNat ≤ 127 ∧ (answers [.nack]).acks r = false :=
  ⟨_, _, _, rfl, rfl, by decide, rfl, by decide, by decide⟩

theorem test_witness_ReadUnsignedWordCompletes : ∃ (r : Request) (w : Half), r = .readWordData 0x48 0 ∧
    w = (answers [.ack [0x34, 0x85]]).answerWord r ∧ w = 0x8534 ∧ (answers [.nack]).acks r = false :=
  ⟨_, _, rfl, rfl, by decide, by decide⟩

theorem test_witness_ReadSignedWordCompletes : ∃ (r : Request) (w v : Half), r = .readWordData 0x48 0 ∧
    w = (answers [.ack [0xFF, 0x7F]]).answerWord r ∧ w.toNat ≤ 32767 ∧
    v = (answers [.ack [0x00, 0x80]]).answerWord r ∧ ¬ v.toNat ≤ 32767 ∧ (answers [.nack]).acks r = false :=
  ⟨_, _, _, rfl, rfl, by decide, rfl, by decide, by decide⟩

theorem test_witness_ReadBlockCompletes : ∃ (r : Request) (bs : List Byte), r = .readBlock 0x40 0xE3 3 ∧
    bs = (answers [.ack [0x4E, 0x85, 0x6B]]).answerBlock r 3 ∧ bs = [0x4E, 0x85, 0x6B] ∧
    (answers [.nack]).acks r = false := ⟨_, _, rfl, rfl, by decide, by decide⟩

/-- A payload with both answers, and a payload whose second byte is missing. -/
theorem test_witness_WriteBlockCompletes : ∃ (s u v : State) (len : Byte) (bs : List Byte) (r : Request) (i : Nat),
    (bs.length = len.toNat ∧ (∀ j, j < len.toNat → s.txByte j = bs[j]?) ∧
      (∀ j, j < len.toNat → u.txByte j = bs[j]?) ∧ r = .writeBlock 0x50 0x10 bs ∧ s.acks r = true ∧
      u.acks r = false) ∧ i < len.toNat ∧ v.txByte i = none ∧ ∀ j, j < i → v.txByte j ≠ none :=
  ⟨(answers [.ack []]).writeTx 0 [0xDE, 0xAD, 0xBE], (answers [.nack]).writeTx 0 [0xDE, 0xAD, 0xBE],
    low.writeTx 0 [7], 3, [0xDE, 0xAD, 0xBE], _, 1, ⟨by decide, by decide, by decide, rfl, by decide, by decide⟩,
    by decide⟩

theorem test_witness_ReadUnsignedByteCompletes : ∃ (i j : Instr) (w v : Quad) (reg : Option Byte) (r q : Request),
    (i = .i2cRraw 0x40 ∧ w = ofFields 0x14 0 0x40 0 0 ∧ r = .readByte 0x40) ∧
      ∃ rg, j = .i2cRub 0x40 rg ∧ v = ofFields 0x15 0 0x40 rg 0 ∧ reg = some rg ∧ q = .readByteData 0x40 rg :=
  ⟨_, _, _, _, _, _, _, ⟨rfl, rfl, rfl⟩, 0xE7, rfl, rfl, rfl, rfl⟩

theorem test_witness_AssemblerDefaults : ∃ pin : Nat, pin < 256 ∧ 255 ≤ pin := ⟨255, by decide⟩

/-- The sequence of R154's worked trace, as far as the loop of R150 takes it. -/
theorem test_witness_CrcCheckIsTheDivisionLoop : ∃ rem : Nat → BitVec 24, rem 0 = 0x4E#8 ++ 0x85#8 ++ 0x6B#8 ∧
    (∀ i, i < 16 → rem (i + 1) = if (rem i).getLsbD (23 - i) then rem i ^^^ (0x988000#24 >>> i) else rem i) ∧
    rem 16 = 0 :=
  ⟨fun n => n.rec (0x4E856B#24) fun i r => if r.getLsbD (23 - i) then r ^^^ (0x988000#24 >>> i) else r, by decide,
    fun _ _ => rfl, by decide⟩

theorem test_witness_GeneratedChecksumPassesAndFlipsFail : ∃ k : Nat, k < 8 ∧ 7 ≤ k := ⟨7, by decide⟩

/-- A block that passes and one that fails the check, both acknowledged. -/
theorem test_witness_CrcCheckedReadCompletes : ∃ (s u : State) (r : Request), r = .readBlock 0x40 0xE3 3 ∧
    s.acks r = true ∧ u.acks r = true ∧ crcCheck (s.answerByte r 0) (s.answerByte r 1) (s.answerByte r 2) = true ∧
      crcCheck (u.answerByte r 0) (u.answerByte r 1) (u.answerByte r 2) = false :=
  ⟨answers [.ack [0x4E, 0x85, 0x6B]], answers [.ack [0x4E, 0x85, 0x6A]], _, rfl, by decide, by decide,
    by decide +kernel, by decide +kernel⟩

/-- A write that wraps past register 255, to the fixture's device and to another. -/
theorem test_witness_FixtureStoresAWrite : ∃ (s : State) (r q : Request) (d : Byte) (m : List Host.Cell),
    s.bus = .fixture d m ∧ (r.written s.platform.nativeLE).length ≤ 256 ∧
      (q.written s.platform.nativeLE).length ≤ 256 ∧ r.dev = d ∧ q.dev ≠ d :=
  ⟨fix 0x48 [(0, 0x34)], .writeWordData 0x48 0xFF 0xABCD, .writeByte 0x49 1, 0x48, [(0, 0x34)], by decide⟩

theorem test_fixture_wraps : (fix 0x48 []).bus.after true (.writeWordData 0x48 0xFF 0xABCD) =
    .fixture 0x48 [(0, 0xAB), (255, 0xCD)] := by decide

theorem test_witness_FixtureReadsBackAWrittenWord : ∃ (s t : State) (d reg : Byte) (m : List Host.Cell) (v : Word),
    s.bus = .fixture d m ∧ exec (.i2cWw d reg v) s = .next t :=
  ⟨fix 0x48 [], _, 0x48, 0xFF, [], 0x1ABCD, rfl, rfl⟩

/-- The last valid pin with a wait outstanding, and the first invalid one. -/
theorem test_witness_SetupOverwritesThePin : low.pinValid 31 = true ∧ low.pinValid 32 = false ∧
    (pin4 { risingPin with waiting := true }).pinValid 4 = true ∧
    ((pin4 { risingPin with waiting := true }).pin 4).waiting = true := by decide

theorem test_witness_OutputDrivesTheLatch : ((pin4 outputPin).pin 4).mode = .output ∧ (low.pin 4).mode ≠ .output := by
  decide

theorem test_witness_InputReturnsTheLevel : ((pin4 inputPin).pin 4).mode = .input ∧ (low.pin 4).mode ≠ .input := by
  decide

theorem test_witness_InputManyReturnsTheLevelsInOrder : ∃ (s u v : State) (len : Byte) (pins : List Byte) (i : Nat),
    pins.length = len.toNat ∧ (∀ j, j < len.toNat → s.txByte j = pins[j]?) ∧
      (∀ j, j < len.toNat → u.txByte j = pins[j]?) ∧ (∀ p ∈ pins, (s.pin p).mode = .input) ∧
      (∃ p ∈ pins, (u.pin p).mode ≠ .input) ∧ i < len.toNat ∧ v.txByte i = none ∧ ∀ j, j < i → v.txByte j ≠ none :=
  ⟨(pin4 inputPin).writeTx 0 [4, 4], low.writeTx 0 [4, 4], low.writeTx 0 [7], 2, [4, 4], 1, by decide, by decide,
    by decide, by decide, ⟨4, by decide, by decide⟩, by decide⟩

theorem test_witness_ArmStartsDetection :
    ((pin4 inputPin).pin 4).mode = .input ∧ ((pin4 inputPin).pin 4).armed = false ∧
      ((pin4 outputPin).pin 4).mode ≠ .input ∧ ((pin4 risingPin).pin 4).armed = true := by decide

theorem test_witness_SetCallbackKeepsTheEdge :
    ((pin4 risingPin).pin 4).armed = true ∧ ((pin4 inputPin).pin 4).armed = false := by decide

/-- The accepted wait, and each of the four refusals of R190 alone. -/
theorem test_witness_WaitTakesTheSlot :
    (((pin4 risingPin).pin 4).mode = .input ∧ ((pin4 risingPin).pin 4).armed = true ∧
      ((pin4 risingPin).pin 4).edge = 1 ∧ ((pin4 risingPin).pin 4).waiting = false) ∧
    ((pin4 outputPin).pin 4).mode ≠ .input ∧ ((pin4 inputPin).pin 4).armed = false ∧
    ((pin4 risingPin).pin 4).edge ≠ 2 ∧ ((pin4 { risingPin with waiting := true }).pin 4).waiting = true := by decide

/-- A level already present, a detected edge, an edge of the wrong direction, a pin that is not armed. -/
theorem test_witness_PinChangeDetectsEdges : false = (pin4 risingPin).levelOf 4 ∧ true ≠ (pin4 risingPin).levelOf 4 ∧
    ((pin4 risingPin).pin 4).armed = true ∧ ((pin4 risingPin).pin 4).edge.getLsbD 0 = true ∧
    false ≠ (pin4High risingPin).levelOf 4 ∧ ((pin4High risingPin).pin 4).edge.getLsbD 1 = false ∧
    ((pin4 inputPin).pin 4).armed = false := by decide

theorem test_witness_DeliveryEmitsTheHead : low.cbq = [] ∧ ({ low with cbq := [4, 6] } : State).cbq = 4 :: [6] := by decide

theorem test_witness_TickStepsEveryRunningCounter :
    sparseWf (some Pin.atReset) 256 (pin4 { risingPin with waiting := true, waitLeft := 1 }).pins = true ∧
    ((pin4 { risingPin with waiting := true, waitLeft := 1 }).pin 4).waiting = true ∧
    ((pin4 { risingPin with waiting := true, waitLeft := 1 }).pin 4).waitLeft ≠ 0 ∧
    (∀ p, ((pin4 { risingPin with waiting := true }).pin p).waiting = false ∨
      ((pin4 { risingPin with waiting := true }).pin p).waitLeft = 0) := by
  refine ⟨by decide, by decide, by decide, fun p => .inr ?_⟩
  rw [pin_pin4]; split <;> rfl

theorem test_witness_CompleteOkAnswersTheWait :
    ((pin4 { risingPin with waiting := true, pending := true }).pin 4).waiting = true ∧
    ((pin4 { risingPin with waiting := true, pending := true }).pin 4).pending = true ∧
    ((pin4 risingPin).pin 4).waiting = false ∧
    ((pin4 { risingPin with waiting := true }).pin 4).pending = false := by decide

theorem test_witness_CompleteTimeoutAnswersTheWait :
    ((pin4 { risingPin with waiting := true }).pin 4).waiting = true ∧
    ((pin4 { risingPin with waiting := true }).pin 4).waitLeft = 0 ∧ ((pin4 risingPin).pin 4).waiting = false ∧
    ((pin4 { risingPin with waiting := true, waitLeft := 1 }).pin 4).waitLeft ≠ 0 := by decide

theorem test_witness_PortReadsReturnTheOldestUnread :
    ({ low with rspq := [1, 2], rspSeen := 1 } : State).rspq[1]? = some 2 ∧ low.rspq.length ≤ low.rspSeen ∧
    ({ low with evq := [⟨4, 0x7E⟩] } : State).evq[0]? = some ⟨4, 0x7E⟩ ∧ low.evq.length ≤ low.evtSeen := by decide

/-- The last index of the buffers, the first beyond them, and a byte of RXBUF with and without a value. -/
theorem test_witness_BufferPortsReachTheBytes : 254 < 255 ∧ 255 ≤ 255 ∧ (low.setRx [1]).rxByte 0 = some 1 ∧
    (low.setRx [1]).rxByte 1 = none := by decide

/-! ### Witnesses of the statements about every step -/

/-- Pin 4 armed for rising with a callback. -/
def watched : State := pin4 { risingPin with cbv := true, cbtag := 0x7E }

theorem watched_trackersOk : TrackersOk watched := by
  intro p
  unfold PinOk watched
  rw [pin_pin4]
  split
  · rename_i h; subst h; decide
  · refine ⟨by simp [Pin.atReset], fun _ => ⟨rfl, rfl, rfl, rfl, List.not_mem_nil⟩, fun _ => rfl, by simp [Pin.atReset],
      fun h => absurd h List.not_mem_nil, fun _ => rfl⟩

theorem test_witness_EveryStepKeepsTheTrackerInvariants : ∃ s t : State, TrackersOk s ∧ step s = .next t ∧
    (t.pin 4).pending = true :=
  ⟨{ watched with agenda := [.pinChange 4 true] }, _, watched_trackersOk, rfl, by decide⟩

theorem test_witness_EveryStepKeepsMemoryCanonical : ∃ s t : State, MemoryOk s ∧ step s = .next t ∧
    t.pins ≠ s.pins :=
  ⟨(pin4 inputPin).place ⟨0x2401040000000000, []⟩, _, ⟨by decide, by decide, by decide, by decide⟩, rfl, by decide⟩

theorem test_witness_EveryStepKeepsRxlenExact : ∃ s t : State, RxOk s ∧ step s = .next t ∧ t.rxlen ≠ s.rxlen :=
  ⟨((answers [.ack [1, 2, 3]]).setRx [7]).place ⟨0x190040E300000003, []⟩, _, fun i => by
    have : (((answers [.ack [1, 2, 3]]).setRx [7]).place ⟨0x190040E300000003, []⟩).rxByte i = [(7 : Byte)][i]? :=
      State.rxByte_setRx (answers [.ack [1, 2, 3]]) [7] i
    rw [this]
    rcases i with - | i <;> simp [State.place, State.setRx], rfl, by decide⟩

theorem test_witness_EveryStepAppendsWellFormedResponses : ∃ s t : State, ResponsesOk s ∧ step s = .next t ∧
    t.rspq = [0x0800000000000000] :=
  ⟨low.place ⟨0x2700040000000000, []⟩, _, fun w h => absurd h List.not_mem_nil, rfl, by decide⟩

theorem test_witness_PendingIsSetOnlyByADetectedEdge : ∃ s t : State, step s = .next t ∧
    (s.pin 4).pending = false ∧ (t.pin 4).pending = true :=
  ⟨{ watched with agenda := [.pinChange 4 true] }, _, rfl, by decide, by decide⟩

/-- A step that changes mode and pull, one that changes the latch, one that arms, one that disarms. -/
theorem test_witness_PinFieldsHaveTheirWriters :
    (∃ s t : State, step s = .next t ∧ (t.pin 5).mode ≠ (s.pin 5).mode ∧ (t.pin 5).pull ≠ (s.pin 5).pull) ∧
    (∃ s t : State, step s = .next t ∧ (t.pin 4).out ≠ (s.pin 4).out) ∧
    (∃ s t : State, step s = .next t ∧ (s.pin 4).armed = false ∧ (t.pin 4).armed = true ∧
      (t.pin 4).edge ≠ (s.pin 4).edge) ∧
    ∃ s t : State, step s = .next t ∧ (s.pin 4).armed = true ∧ (t.pin 4).armed = false :=
  ⟨⟨low.place ⟨0x2005050000000000, []⟩, _, rfl, by decide, by decide⟩,
    ⟨(pin4 outputPin).place ⟨0x2100040000000001, []⟩, _, rfl, by decide⟩,
    ⟨(pin4 inputPin).place ⟨0x2401040000000000, []⟩, _, rfl, by decide, by decide, by decide⟩,
    ⟨(pin4 risingPin).place ⟨0x2500040000000000, []⟩, _, rfl, by decide, by decide⟩⟩

/-- A step that attaches a callback, one that starts a wait, one that ends it with an edge, one that ends it without, and a
tick. -/
theorem test_witness_PinFieldsHaveTheirWriters_wait :
    (∃ s t : State, step s = .next t ∧ (t.pin 4).cbv ≠ (s.pin 4).cbv ∧ (t.pin 4).cbtag ≠ (s.pin 4).cbtag) ∧
    (∃ s t : State, step s = .next t ∧ (s.pin 4).waiting = false ∧ (t.pin 4).waiting = true ∧
      (t.pin 4).waitLeft ≠ (s.pin 4).waitLeft) ∧
    (∃ s t : State, step s = .next t ∧ (s.pin 4).waiting = true ∧ (t.pin 4).waiting = false ∧
      (t.pin 4).waitLeft ≠ (s.pin 4).waitLeft) ∧
    (∃ s t : State, step s = .next t ∧ (s.pin 4).waiting = true ∧ (t.pin 4).waiting = false) ∧
    ∃ s t : State, step s = .next t ∧ (t.pin 4).waitLeft ≠ (s.pin 4).waitLeft :=
  ⟨⟨(pin4 risingPin).place ⟨0x2600042100000000, []⟩, _, rfl, by decide, by decide⟩,
    ⟨(pin4 risingPin).place ⟨0x2801040000000064, []⟩, _, rfl, by decide, by decide, by decide⟩,
    ⟨{ pin4 { risingPin with waiting := true, waitLeft := 2, pending := true } with agenda := [.completeOk 4] }, _, rfl,
      by decide, by decide, by decide⟩,
    ⟨{ pin4 { risingPin with waiting := true } with agenda := [.completeTimeout 4] }, _, rfl, by decide, by decide⟩,
    ⟨{ pin4 { risingPin with waiting := true, waitLeft := 3 } with agenda := [.tick] }, _, rfl, by decide⟩⟩

/-- A poll and a delivery that clear PENDING, from states that meet the invariants of the pin. -/
theorem test_witness_PinFieldsHaveTheirWriters_pending :
    (∃ s t : State, step s = .next t ∧ PinOk s 4 ∧ (s.pin 4).pending = true ∧ (t.pin 4).pending = false) ∧
    ∃ s t : State, step s = .next t ∧ PinOk s 4 ∧ s.cbq.head? = some 4 ∧ (s.pin 4).pending = true ∧
      (t.pin 4).pending = false :=
  ⟨⟨(pin4 { risingPin with pending := true }).place ⟨0x2700040000000000, []⟩, _, rfl, by unfold PinOk; decide,
      by decide, by decide⟩,
    ⟨{ pin4 { risingPin with cbv := true, pending := true } with cbq := [4], agenda := [.deliver] }, _, rfl,
      by unfold PinOk; decide, by decide, by decide, by decide⟩⟩

theorem test_witness_LevelChangesOnlyByTheEnvironment : ∃ s t : State, step s = .next t ∧
    t.levelOf 255 ≠ s.levelOf 255 :=
  ⟨{ low with agenda := [.pinChange 255 true] }, _, rfl, by decide⟩

theorem test_witness_LogsOnlyGrow : ∃ s t : State, step s = .next t ∧ t.requests.length = s.requests.length + 1 :=
  ⟨(answers [.ack []]).place ⟨0x10004000000000FE, []⟩, _, rfl, by decide⟩

theorem test_witness_TheTwoUnitsShareNoState : ∃ (i j : Instr) (s t u : State), exec i s = .next t ∧
    exec j s = .next u ∧ (opOf (encode i)).toNat < 0x20 ∧ 0x20 ≤ (opOf (encode j)).toNat :=
  ⟨.i2cRcrc 0x40 0xE3, .gpioPoll 4, low, _, _, rfl, rfl, by decide, by decide⟩

/-- A detected edge on a pin with a callback, and a delivery. -/
theorem test_witness_CallbacksComeOncePerEdgeInOrder :
    (∃ s t : State, step s = .next t ∧ (∀ p, ¬ clearsTracker p s) ∧ detects 4 s ∧ (s.pin 4).cbv = true) ∧
    ∃ s t : State, step s = .next t ∧ (∀ p, ¬ clearsTracker p s) ∧ t.evq ≠ s.evq := by
  have hno : ∀ (s : State) (a : AgentStep), mover s = some a → a ≠ .issue → ∀ p, ¬ clearsTracker p s := by
    intro s a hm ha p h
    have : issuedInstr s = none := by simp [issuedInstr, issuedWord, hm, ha]
    simp [clearsTracker, this] at h
  exact ⟨⟨{ watched with agenda := [.pinChange 4 true] }, _, rfl, hno _ _ rfl (by decide),
      ⟨true, rfl, by decide, by decide, by decide⟩, by decide⟩,
    ⟨{ watched with cbq := [4], agenda := [.deliver] }, _, rfl, hno _ _ rfl (by decide), by decide⟩⟩

/-- Two ticks of an outstanding wait, after which it can time out. -/
theorem test_witness_NoTimeoutBeforeItsTicks : ∃ (n : Nat) (s t u : State), Sys2Proof.core.run n s = .next t ∧
    waitsThrough 4 n s = true ∧ runAgent (.completeTimeout 4) t = .next u :=
  ⟨2, { pin4 { risingPin with waiting := true, waitLeft := 2 } with agenda := [.tick, .tick] }, _, _, rfl, by decide, rfl⟩

theorem test_witness_DefaultScheduleEndsTheRun : ∃ s : State, sparseWf (some Pin.atReset) 256 s.pins = true ∧
    s.agenda = [] ∧ s.prog.length ≤ s.cp ∧ (s.pin 4).waiting = true ∧ s.cbq = [4] :=
  ⟨{ pin4 { risingPin with cbv := true, waiting := true, waitLeft := 9 } with cbq := [4] }, by decide⟩

end Sys2Proof.Tests
end

namespace Sys2Proof.Machine

/-! ### O10: the step that issues a command -/

/-- The first entry of the agenda moves. -/
theorem step_of_agenda_cons {s : State} {a : AgentStep} {rest : List AgentStep} (h : s.agenda = a :: rest) :
    step s = runAgent a { s with agenda := rest } := by
  simp only [step, runNext, h]

/-- With nothing on the agenda the default order's agent moves. -/
theorem step_of_defaultAgent {s : State} {a : AgentStep} (h : s.agenda = []) (ha : s.defaultAgent = some a) :
    step s = runAgent a s := by
  simp only [step, runNext, h, ha]

/-- In the default order the host comes first, as long as it has a command left. -/
theorem State.defaultAgent_of_command {s : State} {c : Command} (h : s.prog[s.cp]? = some c) :
    s.defaultAgent = some .issue :=
  if_pos (List.getElem?_eq_some_iff.1 h).1

/-- Issuing a command whose word decodes to `i` is `i`, from the state with the command fetched. -/
theorem issue_of_decodeWord {s : State} {c : Command} {i : Instr} (hc : s.prog[s.cp]? = some c)
    (hl : c.payload.length ≤ Config.bufferSize) (hi : decodeWord c.word = some i) :
    issue s = exec i (s.fetched c) := by
  simp only [issue, hc, if_pos hl, accept, hi]

/-- Settles O10: the agenda's entry or the default order picks the host's issue, which is `exec` once fetched. -/
theorem stepRunsTheDecodedCommand : Obligations.StepRunsTheDecodedCommand := by
  intro s rest c i hnext hc hl hi
  refine ⟨?_, s.fetched_cp c⟩
  rcases hnext with ha | ⟨ha, rfl⟩
  · calc step s = issue { s with agenda := rest } := step_of_agenda_cons ha
      _ = exec i (({ s with agenda := rest } : State).fetched c) := issue_of_decodeWord hc hl hi
  · have hs : ({ s with agenda := [] } : State) = s := by rw [← ha]
    calc step s = issue s := step_of_defaultAgent ha (State.defaultAgent_of_command hc)
      _ = exec i (s.fetched c) := issue_of_decodeWord hc hl hi
      _ = exec i (({ s with agenda := [] } : State).fetched c) := by rw [hs]

/-! ### O57: exchanging the other unit's state

`withGpioOf` and `withTransportOf` put another state's fields of one unit into a state. Every operation of the other unit
commutes with the exchange, hence every command does. -/

/-- The state `s` with the GPIO unit's fields of `g`. -/
def State.withGpioOf (s g : State) : State :=
  { s with pins := g.pins, level := g.level, cbq := g.cbq, evq := g.evq }

/-- The state `s` with the transport and the trace of `g`. -/
def State.withTransportOf (s g : State) : State :=
  { s with bus := g.bus, requests := g.requests, draws := g.draws, trace := g.trace }

section Exchange

variable {s t u : State} (g : State)

theorem State.withGpioOf_ite (c : Prop) [Decidable c] (a b : State) :
    (if c then a else b).withGpioOf g = if c then a.withGpioOf g else b.withGpioOf g :=
  apply_ite (State.withGpioOf · g) c a b

theorem State.withTransportOf_ite (c : Prop) [Decidable c] (a b : State) :
    (if c then a else b).withTransportOf g = if c then a.withTransportOf g else b.withTransportOf g :=
  apply_ite (State.withTransportOf · g) c a b

theorem State.withGpioOf_i2cWrite (r : Request) (dev : Byte) (reg : Option Byte) (val : TraceVal) :
    (s.withGpioOf g).i2cWrite r dev reg val = (s.i2cWrite r dev reg val).withGpioOf g := by
  unfold State.i2cWrite
  rw [State.withGpioOf_ite]
  rfl

theorem State.withGpioOf_i2cRead (r : Request) (dev : Byte) (reg : Option Byte) (result : Int) :
    (s.withGpioOf g).i2cRead r dev reg result = (s.i2cRead r dev reg result).withGpioOf g := by
  unfold State.i2cRead
  rw [State.withGpioOf_ite]
  rfl

theorem State.withTransportOf_cancelWait (p : Byte) :
    (s.withTransportOf g).cancelWait p = (s.cancelWait p).withTransportOf g := by
  unfold State.cancelWait
  rw [State.withTransportOf_ite]
  rfl

/-- A command on a payload that goes on does so from every state with the same TXBUF, on the same payload. -/
theorem State.onPayload_of_txbuf_eq {n : Nat} {k : List Byte → State} (k' : List Byte → State)
    (h : s.onPayload n k = .next t) (hu : u.txbuf = s.txbuf) : u.onPayload n k' = .next (k' (s.txBytes n)) := by
  have hbyte : u.txByte = s.txByte := by funext i; rw [State.txByte, hu, State.txByte]
  have hmissing : u.txMissing n = none := by
    rw [← (s.onPayload_next h).2, State.txMissing, hbyte, State.txMissing]
  have hbytes : u.txBytes n = s.txBytes n := by rw [State.txBytes, hbyte, State.txBytes]
  simp only [State.onPayload, hmissing, hbytes]

/-- An I2C command that goes on does the same whatever the GPIO unit's state is, and leaves it alone. -/
theorem exec_withGpioOf {i : Instr} (hi : (opOf (encode i)).toNat < 0x20) (h : exec i s = .next t) :
    exec i (s.withGpioOf g) = .next (t.withGpioOf g) := by
  cases i with
  | i2cWraw | i2cWb | i2cWw => cases h; exact congrArg _ (State.withGpioOf_i2cWrite g ..)
  | i2cWblk =>
    simp only [exec, execI2cWblk] at h ⊢
    obtain ⟨rfl, -⟩ := s.onPayload_next h
    rw [State.onPayload_of_txbuf_eq (u := s.withGpioOf g) _ h rfl, State.withGpioOf_i2cWrite]
  | i2cRraw | i2cRub | i2cRsb | i2cRuw | i2cRsw => cases h; exact congrArg _ (State.withGpioOf_i2cRead g ..)
  | i2cRblk => cases h; rw [State.withGpioOf_ite]; rfl
  | i2cRcrc => cases h; rw [State.withGpioOf_ite, State.withGpioOf_ite]; rfl
  | _ => exact absurd hi (by simp [encode])

/-- A GPIO command that goes on does the same whatever the transport and the trace hold, and leaves them alone. -/
theorem exec_withTransportOf {i : Instr} (hi : 0x20 ≤ (opOf (encode i)).toNat) (h : exec i s = .next t) :
    exec i (s.withTransportOf g) = .next (t.withTransportOf g) := by
  cases i with
  | gpioOut | gpioIn | gpioArm | gpioSetcb | gpioWait => cases h; rw [State.withTransportOf_ite]; rfl
  | gpioPoll => cases h; rfl
  | gpioSetup =>
    cases h
    simp only [exec, execGpioSetup, State.withTransportOf_cancelWait, State.withTransportOf_ite]
    rfl
  | gpioDisarm =>
    cases h
    simp only [exec, execGpioDisarm, State.withTransportOf_cancelWait]
    rfl
  | gpioInm =>
    simp only [exec, execGpioInm] at h ⊢
    obtain ⟨rfl, -⟩ := s.onPayload_next h
    rw [State.onPayload_of_txbuf_eq (u := s.withTransportOf g) _ h rfl, State.withTransportOf_ite]
    rfl
  | _ => exact absurd hi (by simp [encode])

end Exchange

/-- Settles O57: each command commutes with the exchange of the other unit's state. -/
theorem theTwoUnitsShareNoState : Obligations.TheTwoUnitsShareNoState :=
  fun _ _ _ g h => ⟨fun hi => exec_withGpioOf g hi h, fun hi => exec_withTransportOf g hi h⟩

end Sys2Proof.Machine

namespace Sys2Proof.Machine

/-! ### O49: the invariants of a pin record (`10_state.md` R32)

`RecordOk` is `PinOk` as a predicate of the record alone, so that each way a record is written is one short lemma; the
updates of the state then keep `TrackersOk`, and every command and every agent is made of such updates. -/

/-- R32's invariants of a record `r`, for a pin that is valid or not and queued for a callback or not. -/
structure RecordOk (valid : Bool) (queued : Prop) (r : Pin) : Prop where
  armed : r.armed = true → r.mode = .input ∧ r.edge ≠ 0
  unarmed : r.armed = false → r.edge = 0 ∧ r.pending = false ∧ r.cbv = false ∧ r.waiting = false ∧ ¬ queued
  tag : r.cbv = false → r.cbtag = 0
  waiting : r.waiting = true → r.armed = true
  queued : queued → r.cbv = true
  invalid : valid = false → r = Pin.atReset

theorem pinOk_iff_recordOk {s : State} {p : Byte} :
    PinOk s p ↔ RecordOk (s.pinValid p) (p ∈ s.cbq) (s.pin p) :=
  ⟨fun ⟨ha, hu, ht, hw, hq, hv⟩ => ⟨ha, hu, ht, hw, hq, hv⟩, fun ⟨ha, hu, ht, hw, hq, hv⟩ => ⟨ha, hu, ht, hw, hq, hv⟩⟩

theorem edge_code_ne_zero (e : Edge) : e.code ≠ 0 := by cases e <;> decide

section Record

variable {valid : Bool} {queued : Prop} {r : Pin}

/-- The record GPIO.SETUP writes for a valid pin tracks nothing (R160). -/
theorem RecordOk.freshPin (hq : ¬ queued) (hv : valid = true) (mode : PinMode) (pull : Pull) (init : Bool) :
    RecordOk valid queued (freshPin mode pull init) where
  armed h := nomatch h
  unarmed _ := ⟨rfl, rfl, rfl, rfl, hq⟩
  tag _ := rfl
  waiting h := nomatch h
  queued h := absurd h hq
  invalid h := by simp [hv] at h

theorem RecordOk.atReset (hq : ¬ queued) : RecordOk valid queued Pin.atReset :=
  { RecordOk.freshPin hq (valid := true) rfl .unconfigured .none false with invalid := fun _ => rfl }

/-- A pin that is out of the reset mode is valid. -/
theorem RecordOk.valid_of_mode (h : RecordOk valid queued r) (hm : r.mode ≠ .unconfigured) : valid ≠ false :=
  fun hv => hm (by rw [h.invalid hv]; rfl)

theorem RecordOk.valid_of_armed (h : RecordOk valid queued r) (ha : r.armed = true) : valid ≠ false :=
  h.valid_of_mode (by rw [(h.armed ha).1]; decide)

theorem RecordOk.armed_of_cbv (h : RecordOk valid queued r) (hc : r.cbv = true) : r.armed = true := by
  by_contra ha
  obtain ⟨-, -, hcbv, -⟩ := h.unarmed (by simpa using ha)
  simp [hc] at hcbv

/-- Leaving CBQ keeps the invariants. -/
theorem RecordOk.of_queued {queued' : Prop} (h : RecordOk valid queued r) (hq : queued' → queued) :
    RecordOk valid queued' r :=
  { h with
    unarmed := fun ha => (h.unarmed ha).imp_right (.imp_right (.imp_right (.imp_right (mt hq))))
    queued := h.queued ∘ hq }

/-- A pin with a callback may be queued. -/
theorem RecordOk.enqueue (h : RecordOk valid queued r) (hc : r.cbv = true) : RecordOk valid True r :=
  { h with
    unarmed := fun ha => by simp [h.armed_of_cbv hc] at ha
    queued := fun _ => hc }

theorem RecordOk.setOut (h : RecordOk valid queued r) (hm : r.mode = .output) (out : Bool) :
    RecordOk valid queued { r with out := out } :=
  { h with invalid := fun hv => absurd hv (h.valid_of_mode (by rw [hm]; decide)) }

theorem RecordOk.arm (h : RecordOk valid queued r) (hm : r.mode = .input) (ha : r.armed = false) (edge : Edge)
    (cb : Option Byte) : RecordOk valid queued { r with
      armed := true, edge := edge.code, cbv := cb.isSome, cbtag := cb.getD 0, pending := false } where
  armed _ := ⟨hm, edge_code_ne_zero edge⟩
  unarmed ha' := nomatch ha'
  tag hc := by cases cb with
    | none => rfl
    | some tag => cases hc
  waiting _ := rfl
  queued hq := absurd hq (h.unarmed ha).2.2.2.2
  invalid hv := absurd hv (h.valid_of_mode (by rw [hm]; decide))

/-- Ending a wait, with any count left, keeps the invariants: a pin that waits is armed, hence valid. -/
theorem RecordOk.endWait (h : RecordOk valid queued r) (hw : r.waiting = true) (left : Word) :
    RecordOk valid queued { r with waiting := false, waitLeft := left } :=
  { h with
    unarmed := fun ha => by simp [h.waiting hw] at ha
    waiting := fun hw' => nomatch hw'
    invalid := fun hv => absurd hv (h.valid_of_armed (h.waiting hw)) }

theorem RecordOk.disarm (h : RecordOk valid queued r) (hq : ¬ queued) (hw : r.waiting = false) :
    RecordOk valid queued { r with armed := false, edge := 0, pending := false, cbv := false, cbtag := 0 } where
  armed ha := nomatch ha
  unarmed _ := ⟨rfl, rfl, rfl, hw, hq⟩
  tag _ := rfl
  waiting hw' := by simp [hw] at hw'
  queued h := absurd h hq
  invalid hv := by rw [h.invalid hv]; rfl

theorem RecordOk.attach (h : RecordOk valid queued r) (ha : r.armed = true) (tag : Byte) :
    RecordOk valid queued { r with cbv := true, cbtag := tag } :=
  { h with
    unarmed := fun ha' => by simp [ha] at ha'
    tag := fun hc => nomatch hc
    queued := fun _ => rfl
    invalid := fun hv => absurd hv (h.valid_of_armed ha) }

theorem RecordOk.clearPending (h : RecordOk valid queued r) : RecordOk valid queued { r with pending := false } :=
  { h with
    unarmed := fun ha => (h.unarmed ha).imp_right fun ⟨_, hrest⟩ => ⟨rfl, hrest⟩
    invalid := fun hv => by rw [h.invalid hv]; rfl }

theorem RecordOk.setPending (h : RecordOk valid queued r) (ha : r.armed = true) :
    RecordOk valid queued { r with pending := true } :=
  { h with
    unarmed := fun ha' => by simp [ha] at ha'
    invalid := fun hv => absurd hv (h.valid_of_armed ha) }

theorem RecordOk.startWait (h : RecordOk valid queued r) (ha : r.armed = true) (left : Word) :
    RecordOk valid queued { r with waiting := true, waitLeft := left } :=
  { h with
    unarmed := fun ha' => by simp [ha] at ha'
    waiting := fun _ => ha
    invalid := fun hv => absurd hv (h.valid_of_armed ha) }

theorem RecordOk.ticked (h : RecordOk valid queued r) : RecordOk valid queued r.ticked := by
  rw [Pin.ticked_eq]
  exact { h with invalid := fun hv => by rw [h.invalid hv]; rfl }

end Record

section Trackers

variable {s t : State} {p : Byte} {r : Pin}

theorem trackersOk_iff : TrackersOk s ↔ ∀ p, RecordOk (s.pinValid p) (p ∈ s.cbq) (s.pin p) :=
  forall_congr' fun _ => pinOk_iff_recordOk

theorem TrackersOk.record (h : TrackersOk s) (p : Byte) : RecordOk (s.pinValid p) (p ∈ s.cbq) (s.pin p) :=
  trackersOk_iff.1 h p

theorem trackersOk_powerOn (platform : Platform) (level : BitVec 256) : TrackersOk (.powerOn platform level) :=
  trackersOk_iff.2 fun _ => .atReset List.not_mem_nil

/-- Writing one record keeps the invariants if the new record meets them. -/
theorem TrackersOk.setPin (h : TrackersOk s) (hr : RecordOk (s.pinValid p) (p ∈ s.cbq) r) :
    TrackersOk (s.setPin p r) := by
  refine trackersOk_iff.2 fun q => ?_
  rw [State.pin_setPin]
  split
  · rename_i hq; subst hq; exact hr
  · exact h.record q

/-- A queue with no further pin keeps the invariants. -/
theorem TrackersOk.setCbq (h : TrackersOk s) {q : List Byte} (hq : q ⊆ s.cbq) : TrackersOk { s with cbq := q } :=
  trackersOk_iff.2 fun p => (h.record p).of_queued (@hq p)

theorem TrackersOk.dropCallbacks (h : TrackersOk s) (p : Byte) : TrackersOk (s.dropCallbacks p) :=
  h.setCbq (List.filter_subset_self _)

theorem TrackersOk.enqueue (h : TrackersOk s) (hc : (s.pin p).cbv = true) :
    TrackersOk { s with cbq := s.cbq ++ [p] } := by
  refine trackersOk_iff.2 fun q => ?_
  by_cases hq : q = p
  · subst hq; exact ((h.record q).enqueue hc).of_queued fun _ => trivial
  · exact (h.record q).of_queued fun hmem => by simpa [hq] using hmem

theorem TrackersOk.cancelWait (h : TrackersOk s) (p : Byte) : TrackersOk (s.cancelWait p) := by
  unfold State.cancelWait
  split
  · rename_i hw; exact h.setPin ((h.record p).endWait hw 0)
  · exact h

theorem State.waiting_cancelWait (s : State) (p : Byte) : ((s.cancelWait p).pin p).waiting = false := by
  rw [State.pin_cancelWait]
  split
  · rfl
  · rename_i hw; simpa using hw

theorem TrackersOk.detect (h : TrackersOk s) (ha : (s.pin p).armed = true) : TrackersOk (s.detect p) := by
  have hset : TrackersOk (s.setPin p { s.pin p with pending := true }) := h.setPin ((h.record p).setPending ha)
  unfold State.detect
  dsimp only
  split
  · rename_i hc; exact hset.enqueue (by simpa using hc)
  · exact hset

theorem TrackersOk.afterTick (h : TrackersOk s) : TrackersOk s.afterTick :=
  trackersOk_iff.2 fun p => by rw [State.pin_afterTick]; exact (h.record p).ticked

/-- Every command keeps the invariants. -/
theorem TrackersOk.of_exec {i : Instr} (hs : TrackersOk s) (h : exec i s = .next t) : TrackersOk t := by
  by_cases hi : (opOf (encode i)).toNat < 0x20
  · obtain ⟨r, tr, w, u, rfl | ⟨bs, -, rfl⟩, -, rfl⟩ := exec_i2c_next hi h <;> exact hs
  cases i with
  | gpioSetup pin mode pull init =>
    cases h
    split
    · rename_i hv
      exact ((hs.cancelWait pin).dropCallbacks pin).setPin
        (.freshPin (by simp) (by simpa [State.pinValid] using hv) mode pull init)
    · exact hs
  | gpioOut pin value =>
    cases h
    split
    · rename_i hm; exact hs.setPin ((hs.record pin).setOut hm value)
    · exact hs
  | gpioIn => cases h; split <;> exact hs
  | gpioInm =>
    simp only [exec, execGpioInm] at h
    obtain ⟨rfl, -⟩ := State.onPayload_next s h
    split <;> exact hs
  | gpioArm pin edge cb =>
    cases h
    split
    · rename_i hc; exact hs.setPin ((hs.record pin).arm hc.1 hc.2 edge cb)
    · exact hs
  | gpioDisarm pin =>
    cases h
    have hdropped := (hs.cancelWait pin).dropCallbacks pin
    exact hdropped.setPin ((hdropped.record pin).disarm (by simp) (s.waiting_cancelWait pin))
  | gpioSetcb pin tag =>
    cases h
    split
    · rename_i ha; exact hs.setPin ((hs.record pin).attach ha tag)
    · exact hs
  | gpioPoll pin => cases h; exact hs.setPin (hs.record pin).clearPending
  | gpioWait pin edge timeout =>
    cases h
    split
    · rename_i hc; exact hs.setPin ((hs.record pin).startWait hc.2.1 timeout)
    · exact hs
  | _ => exact absurd (by simp [encode]) hi

/-- Every agent's step keeps the invariants. -/
theorem TrackersOk.of_runAgent {a : AgentStep} (hs : TrackersOk s) (h : runAgent a s = .next t) : TrackersOk t := by
  rcases runAgent_next h with ⟨-, h⟩ | ⟨i, v, -, -, rfl⟩ | ⟨-, v, m, n, rfl⟩ | ⟨p, v, -, h⟩ | ⟨-, h⟩ | ⟨-, h⟩ |
    ⟨p, -, h⟩ | ⟨p, -, h⟩
  · obtain ⟨c, -, -, ⟨i, -, h⟩ | ⟨-, rfl⟩⟩ := issue_next h
    · exact TrackersOk.of_exec (s := s.fetched c) hs h
    · exact hs
  · exact hs
  · exact hs
  · obtain ⟨-, ⟨ha, -, rfl⟩ | ⟨-, rfl⟩⟩ := pinChange_next h
    · exact TrackersOk.detect (s := s.setLevel p v) hs ha
    · exact hs
  · obtain ⟨p, rest, hc, rfl⟩ := deliver_next h
    exact (hs.setPin (hs.record p).clearPending).setCbq (q := rest) (by simp [hc])
  · obtain ⟨-, rfl⟩ := tick_next h
    exact hs.afterTick
  · obtain ⟨hw, -, rfl⟩ := completeOk_next h
    exact hs.setPin ((hs.record p).endWait hw 0)
  · obtain ⟨hw, -, rfl⟩ := completeTimeout_next h
    exact hs.setPin ((hs.record p).endWait hw _)

end Trackers

/-- Settles O49: the reset records meet the invariants, and every agent's step keeps them. -/
theorem everyStepKeepsTheTrackerInvariants : Obligations.EveryStepKeepsTheTrackerInvariants :=
  ⟨trackersOk_powerOn, fun _ _ hs h =>
    step_induction (P := fun s t => TrackersOk s → TrackersOk t) (fun _ => id)
      (fun _ s _ _ rest h hs => TrackersOk.of_runAgent (s := { s with agenda := rest }) hs h) h hs⟩

/-! ### O58: the line of triggered callbacks (`10_state.md` R42, R43) -/

section Callbacks

variable {s t : State} {p q : Byte} {a : AgentStep} {rest : List AgentStep}

/-- A step either has nothing to do or is one agent's step, whatever is left of the agenda. -/
theorem step_next_cases (h : step s = .next t) :
    (mover s = none ∧ t = s) ∨ ∃ a rest, mover s = some a ∧ runAgent a { s with agenda := rest } = .next t := by
  rcases step_cases h with ⟨a, rest, -, hm, h⟩ | ⟨a, -, hm, h⟩ | ⟨-, hm, rfl⟩
  · exact .inr ⟨a, rest, hm, h⟩
  · exact .inr ⟨a, s.agenda, hm, h⟩
  · exact .inl ⟨hm, rfl⟩

theorem callbackLine_eq (hevq : t.evq = s.evq) (hcbq : t.cbq = s.cbq) : callbackLine t = callbackLine s := by
  simp only [callbackLine, hevq, hcbq]

/-- No command delivers a callback, and only GPIO.SETUP and GPIO.DISARM drop queued ones. -/
theorem exec_callbacks {i : Instr} (h : exec i s = .next t) :
    t.evq = s.evq ∧
      (t.cbq = s.cbq ∨ ∃ p, i = .gpioDisarm p ∨ ∃ mode pull init, i = .gpioSetup p mode pull init) := by
  by_cases hi : (opOf (encode i)).toNat < 0x20
  · obtain ⟨r, tr, w, u, rfl | ⟨bs, -, rfl⟩, -, rfl⟩ := exec_i2c_next hi h <;> exact ⟨rfl, .inl rfl⟩
  obtain ⟨ht, -⟩ := exec_gpio_next (Nat.le_of_not_lt hi) h
  refine ⟨by rw [ht], ?_⟩
  cases i with
  | gpioSetup pin mode pull init => exact .inr ⟨pin, .inr ⟨mode, pull, init, rfl⟩⟩
  | gpioDisarm pin => exact .inr ⟨pin, .inl rfl⟩
  | gpioInm =>
    simp only [exec, execGpioInm] at h
    obtain ⟨rfl, -⟩ := State.onPayload_next s h
    exact .inl (by split <;> rfl)
  | gpioOut | gpioIn | gpioArm | gpioSetcb | gpioWait => cases h; exact .inl (by split <;> rfl)
  | gpioPoll => cases h; exact .inl rfl
  | _ => exact absurd (by simp [encode]) hi

theorem not_detects_of_mover (hm : ∀ v, mover s ≠ some (.pinChange p v)) : ¬ detects p s :=
  fun ⟨v, hv, _⟩ => hm v hv

/-- Only the pin whose level changes can detect an edge, and then it is armed for that edge. -/
theorem detects_of_pinChange {v : Bool} (hm : mover s = some (.pinChange p v)) (hq : detects q s) :
    q = p ∧ (s.pin p).armed = true ∧ edgeMatches (s.pin p).edge (s.levelOf p) v = true := by
  obtain ⟨w, hw, -, ha, he⟩ := hq
  obtain ⟨rfl, rfl⟩ : p = q ∧ v = w := by simpa [hm] using hw
  exact ⟨rfl, ha, he⟩

/-- A delivery moves the head of CBQ to the end of the events delivered. -/
theorem callbackLine_deliver (h : deliver s = .next t) : callbackLine t = callbackLine s := by
  obtain ⟨p, rest, hc, rfl⟩ := deliver_next h
  simp [callbackLine, hc]

/-- Issuing a command that clears no tracker keeps the line. -/
theorem callbackLine_issue (hm : mover s = some .issue) (h : issue { s with agenda := rest } = .next t)
    (hno : ∀ p, ¬ clearsTracker p s) : callbackLine t = callbackLine s := by
  obtain ⟨c, hc, -, ⟨i, hi, h⟩ | ⟨-, rfl⟩⟩ := issue_next h
  · have hissued : issuedInstr s = some i := issuedInstr_of_mover hm hc hi
    obtain ⟨hevq, hcbq | ⟨p, rfl | ⟨mode, pull, init, rfl⟩⟩⟩ := exec_callbacks h
    · exact callbackLine_eq hevq hcbq
    · exact absurd (.inl hissued) (hno p)
    · exact absurd (.inr ⟨mode, pull, init, hissued⟩) (hno p)
  · rfl

/-- A detected edge appends the pin, once, if it has a callback. -/
theorem callbackLine_detect (s : State) (p : Byte) :
    callbackLine (s.detect p) = callbackLine s ++ if (s.pin p).cbv then [p] else [] := by
  simp [callbackLine, State.detect_eq]

/-- A change of level extends the line exactly when it is an edge detected on a pin with a callback. -/
theorem callbackLine_pinChange {v : Bool} (hm : mover s = some (.pinChange p v))
    (h : pinChange p v { s with agenda := rest } = .next t) :
    (callbackLine t = callbackLine s ∧ ∀ q, detects q s → (s.pin q).cbv = false) ∨
    (detects p s ∧ (s.pin p).cbv = true ∧ callbackLine t = callbackLine s ++ [p]) := by
  obtain ⟨hv, ⟨ha, he, rfl⟩ | ⟨hnone, rfl⟩⟩ := pinChange_next h
  · have hline : callbackLine ((State.setLevel { s with agenda := rest } p v).detect p) =
        callbackLine s ++ if (s.pin p).cbv then [p] else [] := callbackLine_detect _ p
    cases hc : (s.pin p).cbv with
    | true => exact .inr ⟨⟨v, hm, hv, ha, he⟩, rfl, by simpa [hc] using hline⟩
    | false => exact .inl ⟨by simpa [hc] using hline, fun q hq => (detects_of_pinChange hm hq).1 ▸ hc⟩
  · exact .inl ⟨rfl, fun q hq => absurd (detects_of_pinChange hm hq).2 hnone⟩

/-- Settles O58: agent by agent, what the step does to the line of callbacks. -/
theorem callbacksComeOncePerEdgeInOrder : Obligations.CallbacksComeOncePerEdgeInOrder := by
  intro s t h hno
  rcases step_next_cases h with ⟨hm, rfl⟩ | ⟨a, rest, hm, h⟩
  · exact .inl ⟨rfl, fun p hp => absurd hp (not_detects_of_mover (by simp [hm]))⟩
  have kept (ha : ∀ p v, a ≠ .pinChange p v) (hline : callbackLine t = callbackLine s) :
      callbackLine t = callbackLine s ∧ ∀ p, detects p s → (s.pin p).cbv = false :=
    ⟨hline, fun p hp => absurd hp (not_detects_of_mover (by simpa [hm] using ha p))⟩
  rcases runAgent_next h with ⟨rfl, h⟩ | ⟨i, v, rfl, -, rfl⟩ | ⟨ha, v, m, n, rfl⟩ | ⟨p, v, rfl, h⟩ | ⟨rfl, h⟩ |
    ⟨rfl, h⟩ | ⟨p, rfl, h⟩ | ⟨p, rfl, h⟩
  · exact .inl (kept (by simp) (callbackLine_issue hm h hno))
  · exact .inl (kept (by simp) rfl)
  · exact .inl (kept (by rintro p v rfl; simp at ha) rfl)
  · exact (callbackLine_pinChange hm h).imp_right fun hp => ⟨p, hp⟩
  · exact .inl (kept (by simp) (callbackLine_deliver (s := { s with agenda := rest }) h))
  · obtain ⟨-, rfl⟩ := tick_next h
    exact .inl (kept (by simp) rfl)
  · obtain ⟨-, -, rfl⟩ := completeOk_next h
    exact .inl (kept (by simp) rfl)
  · obtain ⟨-, -, rfl⟩ := completeTimeout_next h
    exact .inl (kept (by simp) rfl)

end Callbacks

/-! ### O53, O54: which step writes which field of a pin record (`10_state.md` R24 to R31) -/

/-- What the next step from `s` may leave as the record of pin `p`: the record it found, or that record as one command
or one agent writes it. -/
inductive PinStep (s : State) (p : Byte) : Pin → Prop where
  | kept : PinStep s p (s.pin p)
  | setup {mode pull init} (h : issuedInstr s = some (.gpioSetup p mode pull init)) :
      PinStep s p (freshPin mode pull init)
  | out {value} (h : issuedInstr s = some (.gpioOut p value)) : PinStep s p { s.pin p with out := value }
  | arm {edge cb} (h : issuedInstr s = some (.gpioArm p edge cb)) (hunarmed : (s.pin p).armed = false) :
      PinStep s p { s.pin p with
        armed := true, edge := edge.code, cbv := cb.isSome, cbtag := cb.getD 0, pending := false }
  | disarm {left} (h : issuedInstr s = some (.gpioDisarm p)) :
      PinStep s p { s.pin p with
        armed := false, edge := 0, pending := false, cbv := false, cbtag := 0, waiting := false, waitLeft := left }
  | setcb {tag} (h : issuedInstr s = some (.gpioSetcb p tag)) :
      PinStep s p { s.pin p with cbv := true, cbtag := tag }
  | poll (h : issuedInstr s = some (.gpioPoll p)) : PinStep s p { s.pin p with pending := false }
  | wait {edge timeout} (h : issuedInstr s = some (.gpioWait p edge timeout)) :
      PinStep s p { s.pin p with waiting := true, waitLeft := timeout }
  | edge (h : detects p s) : PinStep s p { s.pin p with pending := true }
  | deliver (h : mover s = some .deliver) (hhead : s.cbq.head? = some p) :
      PinStep s p { s.pin p with pending := false }
  | tick {left} (h : mover s = some .tick) : PinStep s p { s.pin p with waitLeft := left }
  | completeOk (h : mover s = some (.completeOk p)) :
      PinStep s p { s.pin p with waiting := false, waitLeft := 0 }
  | completeTimeout (h : mover s = some (.completeTimeout p)) : PinStep s p { s.pin p with waiting := false }

/-- Cancelling an outstanding wait, if there is one, leaves no wait. -/
theorem State.pin_cancelWait_same (s : State) (p : Byte) :
    ∃ left, (s.cancelWait p).pin p = { s.pin p with waiting := false, waitLeft := left } := by
  rw [State.pin_cancelWait]
  split
  · exact ⟨0, rfl⟩
  · rename_i hw
    have hwaiting : (s.pin p).waiting = false := by simpa using hw
    exact ⟨(s.pin p).waitLeft, by rw [← hwaiting]⟩

theorem pinStep_of_step {s t : State} (h : step s = .next t) (p : Byte) : PinStep s p (t.pin p) := by
  rcases step_pin_next h p with hr | ⟨i, u, hi, hu, h⟩ | ⟨hd, hr⟩ | ⟨hm, hh, hr⟩ | ⟨hm, hr⟩ | ⟨hm, hr⟩ | ⟨hm, hr⟩
  · exact hr ▸ .kept
  · rcases exec_pin_next h p with hr | ⟨_, _, _, rfl, hr⟩ | ⟨_, rfl, hr⟩ | ⟨_, _, rfl, -, ha, hr⟩ | ⟨rfl, hr⟩ |
      ⟨_, rfl, -, hr⟩ | ⟨rfl, hr⟩ | ⟨_, _, rfl, -, -, hr⟩
    · rw [hr, hu]; exact .kept
    · rw [hr]; exact .setup hi
    · rw [hr, hu]; exact .out hi
    · rw [hr, hu]; exact .arm hi (hu p ▸ ha)
    · obtain ⟨left, hl⟩ := u.pin_cancelWait_same p
      rw [hr, hl, hu]; exact .disarm hi
    · rw [hr, hu]; exact .setcb hi
    · rw [hr, hu]; exact .poll hi
    · rw [hr, hu]; exact .wait hi
  · exact hr ▸ .edge hd
  · exact hr ▸ .deliver hm hh
  · rw [hr, Pin.ticked_eq]; exact .tick hm
  · exact hr ▸ .completeOk hm
  · exact hr ▸ .completeTimeout hm

section Writers

variable {s : State} {p : Byte} {r : Pin}

theorem PinStep.pending_set (h : PinStep s p r) (hclear : (s.pin p).pending = false) (hset : r.pending = true) :
    detects p s := by
  cases h with
  | edge h => exact h
  | setup | arm | disarm | poll | deliver => cases hset
  | _ => simp [hclear] at hset

theorem PinStep.mode_pull_writer (h : PinStep s p r) (hne : r.mode ≠ (s.pin p).mode ∨ r.pull ≠ (s.pin p).pull) :
    ∃ mode pull init, issuedInstr s = some (.gpioSetup p mode pull init) := by
  cases h with
  | setup h => exact ⟨_, _, _, h⟩
  | _ => simp at hne

theorem PinStep.out_writer (h : PinStep s p r) (hne : r.out ≠ (s.pin p).out) :
    (∃ mode pull init, issuedInstr s = some (.gpioSetup p mode pull init)) ∨
      ∃ value, issuedInstr s = some (.gpioOut p value) := by
  cases h with
  | setup h => exact .inl ⟨_, _, _, h⟩
  | out h => exact .inr ⟨_, h⟩
  | _ => simp at hne

theorem PinStep.armed_set (h : PinStep s p r) (hclear : (s.pin p).armed = false) (hset : r.armed = true) :
    ∃ edge cb, issuedInstr s = some (.gpioArm p edge cb) := by
  cases h with
  | arm h => exact ⟨_, _, h⟩
  | setup | disarm => cases hset
  | _ => simp [hclear] at hset

theorem PinStep.armed_clear (h : PinStep s p r) (hset : (s.pin p).armed = true) (hclear : r.armed = false) :
    clearsTracker p s := by
  cases h with
  | setup h => exact .inr ⟨_, _, _, h⟩
  | disarm h => exact .inl h
  | _ => simp [hset] at hclear

theorem PinStep.edge_writer (h : PinStep s p r) (hne : r.edge ≠ (s.pin p).edge) :
    clearsTracker p s ∨ ∃ edge cb, issuedInstr s = some (.gpioArm p edge cb) := by
  cases h with
  | setup h => exact .inl (.inr ⟨_, _, _, h⟩)
  | disarm h => exact .inl (.inl h)
  | arm h => exact .inr ⟨_, _, h⟩
  | _ => simp at hne

theorem PinStep.callback_writer (h : PinStep s p r)
    (hne : r.cbv ≠ (s.pin p).cbv ∨ r.cbtag ≠ (s.pin p).cbtag) :
    clearsTracker p s ∨ (∃ edge cb, issuedInstr s = some (.gpioArm p edge cb)) ∨
      ∃ tag, issuedInstr s = some (.gpioSetcb p tag) := by
  cases h with
  | setup h => exact .inl (.inr ⟨_, _, _, h⟩)
  | disarm h => exact .inl (.inl h)
  | arm h => exact .inr (.inl ⟨_, _, h⟩)
  | setcb h => exact .inr (.inr ⟨_, h⟩)
  | _ => simp at hne

theorem PinStep.waiting_set (h : PinStep s p r) (hclear : (s.pin p).waiting = false) (hset : r.waiting = true) :
    ∃ edge timeout, issuedInstr s = some (.gpioWait p edge timeout) := by
  cases h with
  | wait h => exact ⟨_, _, h⟩
  | setup | disarm | completeOk | completeTimeout => cases hset
  | _ => simp [hclear] at hset

theorem PinStep.waiting_clear (h : PinStep s p r) (hset : (s.pin p).waiting = true) (hclear : r.waiting = false) :
    clearsTracker p s ∨ mover s = some (.completeOk p) ∨ mover s = some (.completeTimeout p) := by
  cases h with
  | setup h => exact .inl (.inr ⟨_, _, _, h⟩)
  | disarm h => exact .inl (.inl h)
  | completeOk h => exact .inr (.inl h)
  | completeTimeout h => exact .inr (.inr h)
  | _ => simp [hset] at hclear

theorem PinStep.waitLeft_writer (h : PinStep s p r) (hne : r.waitLeft ≠ (s.pin p).waitLeft) :
    clearsTracker p s ∨ (∃ edge timeout, issuedInstr s = some (.gpioWait p edge timeout)) ∨
      mover s = some .tick ∨ mover s = some (.completeOk p) := by
  cases h with
  | setup h => exact .inl (.inr ⟨_, _, _, h⟩)
  | disarm h => exact .inl (.inl h)
  | wait h => exact .inr (.inl ⟨_, _, h⟩)
  | tick h => exact .inr (.inr (.inl h))
  | completeOk h => exact .inr (.inr (.inr h))
  | _ => simp at hne

/-- GPIO.ARM clears PENDING too, but of an unarmed pin, where R32 has it at 0 already. -/
theorem PinStep.pending_clear (h : PinStep s p r) (hok : PinOk s p) (hset : (s.pin p).pending = true)
    (hclear : r.pending = false) :
    clearsTracker p s ∨ issuedInstr s = some (.gpioPoll p) ∨ mover s = some .deliver ∧ s.cbq.head? = some p := by
  cases h with
  | setup h => exact .inl (.inr ⟨_, _, _, h⟩)
  | disarm h => exact .inl (.inl h)
  | poll h => exact .inr (.inl h)
  | deliver h hhead => exact .inr (.inr ⟨h, hhead⟩)
  | arm h hunarmed =>
    obtain ⟨-, hpending, -⟩ := (pinOk_iff_recordOk.1 hok).unarmed hunarmed
    simp [hset] at hpending
  | _ => simp [hset] at hclear

end Writers

/-- Settles O53: of all the ways a record is written, only the detected edge sets PENDING. -/
theorem pendingIsSetOnlyByADetectedEdge : Obligations.PendingIsSetOnlyByADetectedEdge :=
  fun _ _ p h => (pinStep_of_step h p).pending_set

/-- Settles O54: field by field, which of the ways a record is written change it. -/
theorem pinFieldsHaveTheirWriters : Obligations.PinFieldsHaveTheirWriters := by
  intro s t p h
  have hp := pinStep_of_step h p
  exact ⟨hp.mode_pull_writer, hp.out_writer, hp.armed_set, hp.armed_clear, hp.edge_writer, hp.callback_writer,
    hp.waiting_set, hp.waiting_clear, hp.waitLeft_writer, hp.pending_clear⟩

/-! ### O51, O55, O56: the receive buffer, the levels and the logs -/

section Frames

variable {s t : State} {p : Byte}

/-- What an agent's step other than the host's command may write: what the host has read, TXBUF, the pin records, the
level of the pin whose level changes, the callbacks, and more responses. -/
theorem runAgent_frame {a : AgentStep} (h : runAgent a s = .next t) :
    (a = .issue ∧ issue s = .next t) ∨
    (t = { s with
        hostLog := t.hostLog, rspSeen := t.rspSeen, evtSeen := t.evtSeen, txbuf := t.txbuf, pins := t.pins
        level := t.level, cbq := t.cbq, evq := t.evq, rspq := t.rspq } ∧
      ((∀ p v, a ≠ .pinChange p v) → t.level = s.level) ∧ s.rspq <+: t.rspq ∧ s.evq <+: t.evq) := by
  rcases runAgent_next h with h | ⟨i, v, -, -, rfl⟩ | ⟨-, v, m, n, rfl⟩ | ⟨p, v, hp, h⟩ | ⟨-, h⟩ | ⟨-, h⟩ |
    ⟨p, -, h⟩ | ⟨p, -, h⟩
  · exact .inl h
  · exact .inr ⟨rfl, fun _ => rfl, List.prefix_rfl, List.prefix_rfl⟩
  · exact .inr ⟨rfl, fun _ => rfl, List.prefix_rfl, List.prefix_rfl⟩
  · obtain ⟨-, ⟨-, -, rfl⟩ | ⟨-, rfl⟩⟩ := pinChange_next h
    · rw [State.detect_eq]
      exact .inr ⟨rfl, fun ha => absurd hp (ha p v), List.prefix_rfl, List.prefix_rfl⟩
    · exact .inr ⟨rfl, fun ha => absurd hp (ha p v), List.prefix_rfl, List.prefix_rfl⟩
  · obtain ⟨p, rest, -, rfl⟩ := deliver_next h
    exact .inr ⟨rfl, fun _ => rfl, List.prefix_rfl, ⟨_, rfl⟩⟩
  · obtain ⟨-, rfl⟩ := tick_next h
    exact .inr ⟨rfl, fun _ => rfl, List.prefix_rfl, List.prefix_rfl⟩
  · obtain ⟨-, -, rfl⟩ := completeOk_next h
    exact .inr ⟨rfl, fun _ => rfl, ⟨_, rfl⟩, List.prefix_rfl⟩
  · obtain ⟨-, -, rfl⟩ := completeTimeout_next h
    exact .inr ⟨rfl, fun _ => rfl, ⟨_, rfl⟩, List.prefix_rfl⟩

theorem RxOk.of_eq (hs : RxOk s) (hbuf : t.rxbuf = s.rxbuf) (hlen : t.rxlen = s.rxlen) : RxOk t := fun i => by
  simpa only [State.rxByte, hbuf, hlen] using hs i

/-- A block of at most 255 bytes gives exactly the bytes below RXLEN a value. -/
theorem rxOk_of_cells {bs : List Byte} (hl : bs.length ≤ 255) (hbuf : t.rxbuf = cellsFrom 0 bs)
    (hlen : t.rxlen = BitVec.ofNat 8 bs.length) : RxOk t := fun i => by
  have hn : t.rxlen.toNat = bs.length := by rw [hlen, BitVec.toNat_ofNat]; omega
  simp [State.rxByte, hbuf, hn, sparseFind_cellsFrom]

theorem RxOk.of_exec {i : Instr} (hs : RxOk s) (h : exec i s = .next t) : RxOk t := by
  by_cases hi : (opOf (encode i)).toNat < 0x20
  · obtain ⟨r, tr, w, u, rfl | ⟨bs, hl, rfl⟩, -, rfl⟩ := exec_i2c_next hi h
    · exact hs.of_eq rfl rfl
    · exact rxOk_of_cells hl rfl rfl
  · obtain ⟨-, -, -, ⟨hbuf, hlen⟩ | ⟨bs, hl, hbuf, hlen⟩, -⟩ := exec_gpio_next (Nat.le_of_not_lt hi) h
    · exact hs.of_eq hbuf hlen
    · exact rxOk_of_cells hl hbuf hlen

theorem RxOk.of_runAgent {a : AgentStep} (hs : RxOk s) (h : runAgent a s = .next t) : RxOk t := by
  rcases runAgent_frame h with ⟨-, h⟩ | ⟨ht, -⟩
  · obtain ⟨c, -, -, ⟨i, -, h⟩ | ⟨-, rfl⟩⟩ := issue_next h
    · exact RxOk.of_exec (s := s.fetched c) hs h
    · exact hs
  · exact hs.of_eq (by rw [ht]) (by rw [ht])

/-- No command writes a level. -/
theorem exec_level {i : Instr} (h : exec i s = .next t) : t.level = s.level := by
  by_cases hi : (opOf (encode i)).toNat < 0x20
  · obtain ⟨r, tr, w, u, rfl | ⟨bs, -, rfl⟩, -, rfl⟩ := exec_i2c_next hi h <;> rfl
  · rw [(exec_gpio_next (Nat.le_of_not_lt hi) h).1]

/-- Every agent but the environment leaves the levels alone. -/
theorem runAgent_level {a : AgentStep} (h : runAgent a s = .next t) (ha : ∀ p v, a ≠ .pinChange p v) :
    t.level = s.level := by
  rcases runAgent_frame h with ⟨-, h⟩ | ⟨-, hlevel, -⟩
  · obtain ⟨c, -, -, ⟨i, -, h⟩ | ⟨-, rfl⟩⟩ := issue_next h
    · exact exec_level (s := s.fetched c) h
    · rfl
  · exact hlevel ha

/-- A change of level sets that level and no other, whether or not it is a detected edge. -/
theorem levelOf_pinChange {v : Bool} (h : pinChange p v s = .next t) (q : Byte) :
    t.levelOf q = if q = p then v else s.levelOf q := by
  rw [← State.levelOf_setLevel]
  obtain ⟨-, ⟨-, -, rfl⟩ | ⟨-, rfl⟩⟩ := pinChange_next h
  · rw [State.detect_eq]; rfl
  · rfl

/-- The logs of `t` extend those of `s`, the requests by at most one. -/
def LogsExtend (s t : State) : Prop :=
  s.rspq <+: t.rspq ∧ s.evq <+: t.evq ∧ s.trace <+: t.trace ∧ s.requests <+: t.requests ∧
    t.requests.length ≤ s.requests.length + 1

/-- What sends no request extends the logs if it extends the responses and the events delivered. -/
theorem logsExtend_of_requests_eq (hrspq : s.rspq <+: t.rspq) (hevq : s.evq <+: t.evq) (htrace : t.trace = s.trace)
    (hrequests : t.requests = s.requests) : LogsExtend s t := by
  refine ⟨hrspq, hevq, ?_, ?_, ?_⟩ <;> simp [htrace, hrequests]

theorem LogsExtend.refl (s : State) : LogsExtend s s :=
  logsExtend_of_requests_eq List.prefix_rfl List.prefix_rfl rfl rfl

theorem logsExtend_of_exec {i : Instr} (h : exec i s = .next t) : LogsExtend s t := by
  by_cases hi : (opOf (encode i)).toNat < 0x20
  · obtain ⟨r, tr, w, u, rfl | ⟨bs, -, rfl⟩, -, rfl⟩ := exec_i2c_next hi h <;> simp [LogsExtend]
  · obtain ⟨ht, -, -, -, ws, hrspq, -⟩ := exec_gpio_next (Nat.le_of_not_lt hi) h
    exact logsExtend_of_requests_eq ⟨ws, hrspq.symm⟩ (by rw [ht]) (by rw [ht]) (by rw [ht])

theorem logsExtend_of_runAgent {a : AgentStep} (h : runAgent a s = .next t) : LogsExtend s t := by
  rcases runAgent_frame h with ⟨-, h⟩ | ⟨ht, -, hrspq, hevq⟩
  · obtain ⟨c, -, -, ⟨i, -, h⟩ | ⟨-, rfl⟩⟩ := issue_next h
    · exact logsExtend_of_exec (s := s.fetched c) h
    · exact logsExtend_of_requests_eq ⟨_, rfl⟩ List.prefix_rfl rfl rfl
  · exact logsExtend_of_requests_eq hrspq hevq (by rw [ht]) (by rw [ht])

end Frames

/-- Settles O51: a command leaves RXBUF or writes a whole block to it, and no other agent writes it. -/
theorem everyStepKeepsRxlenExact : Obligations.EveryStepKeepsRxlenExact :=
  fun _ _ hs h => step_induction (P := fun s t => RxOk s → RxOk t) (fun _ => id)
    (fun _ s _ _ rest h hs => RxOk.of_runAgent (s := { s with agenda := rest }) hs h) h hs

/-- Settles O55: only the environment's step writes levels, and it writes its own pin's. -/
theorem levelChangesOnlyByTheEnvironment : Obligations.LevelChangesOnlyByTheEnvironment := by
  intro s t p h hne
  rcases step_next_cases h with ⟨-, rfl⟩ | ⟨a, rest, hm, h⟩
  · exact absurd rfl hne
  by_cases ha : ∃ q v, a = .pinChange q v
  · obtain ⟨q, v, rfl⟩ := ha
    have hlevel := levelOf_pinChange h p
    split at hlevel
    · rename_i hp; rw [hm, hp, ← hp, hlevel]
    · exact absurd hlevel hne
  · push Not at ha
    exact absurd (congrArg (BitVec.getLsbD · p.toNat) (runAgent_level h ha)) hne

/-- Settles O56: every agent's step extends the logs. -/
theorem logsOnlyGrow : Obligations.LogsOnlyGrow :=
  fun _ _ => step_induction (P := LogsExtend) LogsExtend.refl
    fun _ s _ _ rest h => logsExtend_of_runAgent (s := { s with agenda := rest }) h

/-! ### O11, O12: the payload of a command, and the placed word -/

/-- Settles O11: issuing writes TXBUF from index 0 and moves `cp`; every other field is untouched. -/
theorem payloadGoesToTxbuf : Obligations.PayloadGoesToTxbuf := by
  intro s c
  refine ⟨fun j hj => ?_, fun j hj => ?_, s.fetched_cp c, ⟨fun _ => rfl, rfl⟩, ⟨fun _ => rfl, rfl, rfl, rfl⟩,
    ⟨rfl, rfl, rfl, rfl⟩, rfl⟩
  · rw [State.txByte_fetched, if_pos hj]
  · rw [State.txByte_fetched, if_neg (Nat.not_lt.2 hj)]

section Placed

variable (s : State)

/-- A placed command is the one at `cp`. -/
theorem State.prog_place_cp (c : Command) : (s.place c).prog[(s.place c).cp]? = some c := by
  have hlen : (s.prog.take s.cp ++ List.replicate (s.cp - s.prog.length) (⟨0, []⟩ : Command)).length = s.cp := by
    rw [List.length_append, List.length_take, List.length_replicate]; omega
  rw [State.place, List.getElem?_append_right hlen.le, hlen, Nat.sub_self]
  rfl

/-- The payload a placed word is given is a stretch of TXBUF, with 0 for a byte that holds no value. -/
theorem State.payloadFor_eq (w : Quad) :
    ∃ n, n ≤ Config.bufferSize ∧ s.payloadFor w = (List.range n).map fun i => (s.txByte i).getD 0 := by
  have hlen (len : Byte) : len.toNat ≤ Config.bufferSize := Nat.le_of_lt_succ len.isLt
  unfold State.payloadFor
  split
  · exact ⟨_, hlen _, rfl⟩
  · exact ⟨_, hlen _, rfl⟩
  · exact ⟨0, Nat.zero_le _, rfl⟩

/-- Writing that payload keeps every byte of TXBUF that holds a value. -/
theorem State.txByte_fetched_payloadFor {w : Quad} {j : Nat} {b : Byte} (h : s.txByte j = some b) :
    (s.fetched ⟨w, s.payloadFor w⟩).txByte j = some b := by
  obtain ⟨n, -, hp⟩ := s.payloadFor_eq w
  rw [State.txByte_fetched, hp]
  split
  · rename_i hj
    rw [List.length_map, List.length_range] at hj
    simp [hj, h]
  · exact h

theorem State.withFetchWord_eq (w : Quad) : s.withFetchWord 64 w.toNat = s.place ⟨w, s.payloadFor w⟩ := by
  have hw : BitVec.ofNat 64 (w.toNat % 2 ^ 64) = w := by
    rw [Nat.mod_eq_of_lt w.isLt, BitVec.ofNat_toNat, BitVec.setWidth_eq]
  simp only [State.withFetchWord, hw]

/-- The step after a command is placed issues it, and leaves the agenda as it was before. -/
theorem State.step_place {c : Command} {i : Instr} (hl : c.payload.length ≤ Config.bufferSize)
    (hi : decodeWord c.word = some i) :
    step (s.place c) = exec i (({ s.place c with agenda := s.agenda } : State).fetched c) :=
  calc step (s.place c)
    _ = issue { s.place c with agenda := s.agenda } := step_of_agenda_cons (a := .issue) rfl
    _ = exec i _ := issue_of_decodeWord (s.prog_place_cp c) hl hi

end Placed

/-- Settles O12: the step issues the placed command, from the state with the word's payload in TXBUF. -/
theorem placedWordIsExecutedNext : Obligations.PlacedWordIsExecutedNext := by
  intro s w i hi
  obtain ⟨n, hn, hp⟩ := s.payloadFor_eq w
  have hstep := s.step_place (c := ⟨w, s.payloadFor w⟩) (by simpa [hp] using hn) hi
  exact ⟨_, (congrArg step (s.withFetchWord_eq w)).trans hstep, rfl, rfl, fun _ _ hb => s.txByte_fetched_payloadFor hb,
    ⟨fun _ => rfl, rfl⟩, ⟨fun _ => rfl, rfl, rfl, rfl⟩, ⟨rfl, rfl, rfl, rfl⟩, rfl, rfl, rfl, rfl, rfl⟩

/-! ### O48, O47: the host's ports -/

/-- Settles O48: a write of one byte of TXBUF, and the three cases of a read of RXBUF. -/
theorem bufferPortsReachTheBytes : Obligations.BufferPortsReachTheBytes := by
  intro s i v
  refine ⟨fun hi => ⟨s.writeTx i [v], if_pos hi, ?_, fun j hj => ?_, ⟨fun _ => rfl, rfl⟩,
      ⟨fun _ => rfl, rfl, rfl, rfl⟩, ⟨rfl, rfl, rfl, rfl, rfl, rfl, rfl⟩, ⟨rfl, rfl, rfl, rfl⟩, rfl⟩,
    fun hi => ⟨if_neg (Nat.not_lt.2 hi), if_neg (Nat.not_lt.2 hi)⟩, fun hi b hb => ?_, fun hi hb => ?_⟩
  · simp [State.txByte_writeTx]
  · rw [State.txByte_writeTx, if_neg (by simp only [List.length_singleton]; omega)]
  · simp only [runAgent, portRxRead, Config.bufferSize, if_pos hi, hb, State.heard]
  · simp only [runAgent, portRxRead, Config.bufferSize, if_pos hi, hb]

/-- Settles O47: a read takes the entry the counter points at, and is refused when there is none. -/
theorem portReadsReturnTheOldestUnread : Obligations.PortReadsReturnTheOldestUnread := by
  intro s
  refine ⟨fun w hw => ?_, fun hn => ?_, fun e he => ?_, fun hn => ?_⟩
  · simp only [runAgent, portRspRead, hw, State.heard]
  · simp only [runAgent, portRspRead, List.getElem?_eq_none hn]
  · simp only [runAgent, portEvtRead, he, State.heard]
  · simp only [runAgent, portEvtRead, List.getElem?_eq_none hn]

/-! ### O7, O8: the state after reset (`10_state.md` R50) -/

/-- Settles O7: each value is that of its field in `State.powerOn`. -/
theorem resetLeavesTheStatedValues : Obligations.ResetLeavesTheStatedValues := by
  refine ⟨⟨_, _, rfl⟩, ?_⟩
  rintro pf lv s rfl
  exact ⟨fun _ => ⟨rfl, rfl, rfl, rfl, rfl, rfl, rfl, rfl, rfl, rfl, rfl⟩, fun _ => ⟨rfl, rfl⟩,
    rfl, rfl, rfl, rfl, rfl, rfl⟩

theorem memoryOk_powerOn (platform : Platform) (level : BitVec 256) : MemoryOk (.powerOn platform level) :=
  ⟨rfl, rfl, rfl, rfl⟩

theorem rxOk_powerOn (platform : Platform) (level : BitVec 256) : RxOk (.powerOn platform level) :=
  rxOk_of_cells (bs := []) (Nat.zero_le _) rfl rfl

theorem responsesOk_powerOn (platform : Platform) (level : BitVec 256) : ResponsesOk (.powerOn platform level) :=
  fun _ h => absurd h List.not_mem_nil

/-- Settles O8: the invariants hold of empty buffers, pins and responses, and the script of answers is empty. -/
theorem resetMeetsTheInvariants : Obligations.ResetMeetsTheInvariants :=
  ⟨trackersOk_powerOn _ _, memoryOk_powerOn _ _, rxOk_powerOn _ _, responsesOk_powerOn _ _, fun _ _ => ⟨rfl, rfl⟩⟩

end Sys2Proof.Machine

namespace Sys2Proof.Machine

/-! ### O50: the canonical form of the memories -/

section Canonical

variable {s t : State} {p : Byte}

/-- The transport keeps its registers canonical, whatever request it answers. -/
theorem busWf_after {b : Bus} (hb : busWf b = true) (nativeLE : Bool) (r : Request) :
    busWf (b.after nativeLE r) = true := by
  cases b with
  | oracle script => rfl
  | fixture d m =>
    simp only [Bus.after]
    split
    · exact memoryWf_regWrite _ _ hb
    · exact hb

theorem MemoryOk.sent (h : MemoryOk s) (r : Request) : MemoryOk (s.sent r) := by
  obtain ⟨htx, hrx, hbus, hpins⟩ := h
  exact ⟨htx, hrx, busWf_after hbus _ r, hpins⟩

theorem MemoryOk.setRx (h : MemoryOk s) {bs : List Byte} (hl : bs.length ≤ Config.bufferSize) :
    MemoryOk (s.setRx bs) := by
  obtain ⟨htx, -, hbus, hpins⟩ := h
  exact ⟨htx, memoryWf_cellsFrom hl, hbus, hpins⟩

theorem MemoryOk.writeTx (h : MemoryOk s) {i : Nat} {bs : List Byte} (hl : i + bs.length ≤ Config.bufferSize) :
    MemoryOk (s.writeTx i bs) := by
  obtain ⟨htx, hrx, hbus, hpins⟩ := h
  exact ⟨memoryWf_bufferWrite hl htx, hrx, hbus, hpins⟩

theorem MemoryOk.setPin (h : MemoryOk s) (p : Byte) (r : Pin) : MemoryOk (s.setPin p r) := by
  obtain ⟨htx, hrx, hbus, hpins⟩ := h
  exact ⟨htx, hrx, hbus, s.pinsWf_setPin p r hpins⟩

theorem MemoryOk.afterTick (h : MemoryOk s) : MemoryOk s.afterTick := by
  obtain ⟨htx, hrx, hbus, hpins⟩ := h
  exact ⟨htx, hrx, hbus, s.pinsWf_afterTick hpins⟩

theorem MemoryOk.detect (h : MemoryOk s) (p : Byte) : MemoryOk (s.detect p) := by
  rw [State.detect_eq]
  exact h.setPin p _

/-- A fetched command's payload fits TXBUF. -/
theorem MemoryOk.fetched (h : MemoryOk s) {c : Command} (hl : c.payload.length ≤ Config.bufferSize) :
    MemoryOk (s.fetched c) :=
  h.writeTx (i := 0) (by omega)

/-- Every command keeps the memories canonical: an I2C command sends a request and may fill RXBUF, a GPIO command
writes one pin record and may fill RXBUF. -/
theorem MemoryOk.of_exec {i : Instr} (hs : MemoryOk s) (h : exec i s = .next t) : MemoryOk t := by
  by_cases hi : (opOf (encode i)).toNat < 0x20
  · obtain ⟨r, tr, w, u, rfl | ⟨bs, hl, rfl⟩, -, rfl⟩ := exec_i2c_next hi h
    · exact hs.sent r
    · exact (hs.setRx hl).sent r
  · obtain ⟨ht, -, hpins, hrx, -⟩ := exec_gpio_next (Nat.le_of_not_lt hi) h
    obtain ⟨htxOk, hrxOk, hbusOk, hpinsOk⟩ := hs
    refine ⟨by rw [ht]; exact htxOk, ?_, by rw [ht]; exact hbusOk, hpins hpinsOk⟩
    obtain ⟨hbuf, -⟩ | ⟨bs, hl, hbuf, -⟩ := hrx
    · rw [hbuf]; exact hrxOk
    · rw [hbuf]; exact memoryWf_cellsFrom hl

/-- Every agent's step keeps the memories canonical. -/
theorem MemoryOk.of_runAgent {a : AgentStep} (hs : MemoryOk s) (h : runAgent a s = .next t) : MemoryOk t := by
  rcases runAgent_next h with ⟨-, h⟩ | ⟨i, v, -, hi, rfl⟩ | ⟨-, v, m, n, rfl⟩ | ⟨p, v, -, h⟩ | ⟨-, h⟩ | ⟨-, h⟩ |
    ⟨p, -, h⟩ | ⟨p, -, h⟩
  · obtain ⟨c, -, hl, ⟨i, -, h⟩ | ⟨-, rfl⟩⟩ := issue_next h
    · exact (hs.fetched hl).of_exec h
    · exact hs.fetched hl
  · exact hs.writeTx (Nat.succ_le_of_lt hi)
  · exact hs
  · obtain ⟨-, ⟨-, -, rfl⟩ | ⟨-, rfl⟩⟩ := pinChange_next h
    · exact MemoryOk.detect (s := s.setLevel p v) hs p
    · exact hs
  · obtain ⟨p, rest, -, rfl⟩ := deliver_next h
    exact hs.setPin p _
  · obtain ⟨-, rfl⟩ := tick_next h
    exact hs.afterTick
  · obtain ⟨-, -, rfl⟩ := completeOk_next h
    exact hs.setPin p _
  · obtain ⟨-, -, rfl⟩ := completeTimeout_next h
    exact hs.setPin p _

end Canonical

/-- Settles O50: every command and every other agent's step keeps the memories canonical. -/
theorem everyStepKeepsMemoryCanonical : Obligations.EveryStepKeepsMemoryCanonical :=
  fun _ _ hs h => step_induction (P := fun s t => MemoryOk s → MemoryOk t) (fun _ => id)
    (fun _ s _ _ rest h hs => MemoryOk.of_runAgent (s := { s with agenda := rest }) hs h) h hs

/-! ### O27: the native word on the wire (`20_memory.md` R67) -/

theorem wireBytes_nativeWord (le : Bool) (b0 b1 : Byte) : wireBytes le (nativeWord le b0 b1) = [b0, b1] := by
  have hhigh : ∀ hi lo : Byte, (hi ++ lo).extractLsb' 8 8 = hi := fun _ _ => BitVec.extractLsb'_append_eq_left
  have hlow : ∀ hi lo : Byte, (hi ++ lo).extractLsb' 0 8 = lo := fun _ _ => BitVec.extractLsb'_append_eq_right
  cases le <;> simp [wireBytes, nativeWord, hhigh, hlow]

/-- A native word is made of the bytes it puts on the wire. -/
theorem exists_wireBytes (le : Bool) (w : Half) : ∃ b0 b1, wireBytes le w = [b0, b1] ∧ nativeWord le b0 b1 = w := by
  have hw : w.extractLsb' 8 8 ++ w.extractLsb' 0 8 = w :=
    (BitVec.extractLsb'_append_extractLsb'_eq_extractLsb' rfl).trans BitVec.extractLsb'_eq_self
  cases le <;> exact ⟨_, _, rfl, hw⟩

theorem toNat_append_byte (hi lo : Byte) : (hi ++ lo).toNat = hi.toNat * 256 + lo.toNat := by
  rw [BitVec.toNat_append, ← Nat.shiftLeft_add_eq_or_of_lt lo.isLt, Nat.shiftLeft_eq]

/-- Settles O27: the bytes of a word are appended high byte first, and taken apart at the same place. -/
theorem nativeWordMatchesWireBytes : Obligations.NativeWordMatchesWireBytes :=
  fun b0 b1 w le =>
    ⟨toNat_append_byte b1 b0, toNat_append_byte b0 b1, wireBytes_nativeWord le b0 b1, exists_wireBytes le w⟩

/-! ### O31, O32: the test fixture (`20_memory.md` R66) -/

section Fixture

variable {s : State} {d : Byte} {m : List Host.Cell}

/-- The fixture acknowledges its own device and no other. -/
theorem State.acks_fixture (h : s.bus = .fixture d m) (r : Request) : s.acks r = true ↔ r.dev = d := by
  simp only [State.acks, h, decide_eq_true_eq]

theorem State.answerByte_fixture (h : s.bus = .fixture d m) (r : Request) (i : Nat) :
    s.answerByte r i = regRead m (r.start.toNat + i) := by
  simp only [State.answerByte, h]

/-- The fixture's registers after a request to its device. -/
theorem Bus.after_fixture_dev {nativeLE : Bool} {r : Request} (h : r.dev = d) :
    (Bus.fixture d m).after nativeLE r = .fixture d (regWrite m r.start.toNat (r.written nativeLE)) := if_pos h

theorem Bus.after_fixture_other {nativeLE : Bool} {r : Request} (h : r.dev ≠ d) :
    (Bus.fixture d m).after nativeLE r = .fixture d m := if_neg h

/-- The register address wraps at 256. -/
theorem regRead_mod (m : List Host.Cell) (a : Nat) : regRead m (a % 256) = regRead m a := by
  simp only [regRead, Config.fixtureSize, Nat.mod_mod]

/-- The bytes stored from register `a` on are found there again, past register 255 too. -/
theorem regRead_regWrite_add (m : List Host.Cell) (a : Nat) {bs : List Byte} {i : Nat} {b : Byte}
    (hl : bs.length ≤ 256) (hi : bs[i]? = some b) : regRead (regWrite m a bs) (a + i) = b := by
  have hlt : i < bs.length := (List.getElem?_eq_some_iff.1 hi).1
  rw [← regRead_mod, regRead_regWrite _ _ _ _ (by omega) hl,
    show ((a + i) % 256 + 256 - a % 256) % 256 = i by omega, hi, Option.getD_some]

end Fixture

/-- Settles O31: the addressed device stores the bytes from the start register on, another request is not answered. -/
theorem fixtureStoresAWrite : Obligations.FixtureStoresAWrite := by
  intro s r d m hbus hl
  refine ⟨State.acks_fixture hbus r, ?_⟩
  rw [State.sent_bus, hbus]
  by_cases hdev : r.dev = d
  · refine ⟨_, Bus.after_fixture_dev hdev, fun hne => absurd hdev hne, fun _ a ha => ?_⟩
    rw [regRead_regWrite _ _ _ _ ha hl, Nat.mod_eq_of_lt r.start.isLt]
  · exact ⟨m, Bus.after_fixture_other hdev, fun _ => rfl, fun he => absurd he hdev⟩

section ReadBack

variable {s : State} {d : Byte} {m : List Host.Cell}

/-- A word written to the fixture is the answer to a read of the same register, in both settings of `NATIVE_LE`. -/
theorem State.answerWord_of_regWrite {reg : Byte} {w : Half}
    (h : s.bus = .fixture d (regWrite m reg.toNat (wireBytes s.platform.nativeLE w))) :
    s.answerWord (.readWordData d reg) = w := by
  obtain ⟨b0, b1, hbytes, hword⟩ := exists_wireBytes s.platform.nativeLE w
  rw [hbytes] at h
  calc s.answerWord (.readWordData d reg)
    _ = nativeWord s.platform.nativeLE b0 b1 := by
      simp only [State.answerWord, State.answerByte_fixture h, Request.start]
      rw [regRead_regWrite_add m _ (by simp) rfl, regRead_regWrite_add m _ (by simp) rfl]
    _ = w := hword

theorem lowHalf_toNat (v : Word) : (lowHalf v).toNat = v.toNat % 65536 := by
  simp [lowHalf, Nat.and_two_pow_sub_one_eq_mod _ 16]

/-- The width mask of a word read keeps all 16 bits. -/
theorem maskHalf_eq (w : Half) : maskHalf w = w := BitVec.and_allOnes

theorem valueResponse_natCast (n : Nat) : valueResponse n = 0x08000000#32 ++ BitVec.ofNat 32 n := by
  rw [valueResponse_eq, resultVal, BitVec.ofInt_natCast]

/-- An acknowledged read answers OK with its result. -/
theorem State.rspq_i2cRead_of_acks {r : Request} (h : s.acks r = true) (dev : Byte) (reg : Option Byte) (result : Int) :
    (s.i2cRead r dev reg result).rspq = s.rspq ++ [valueResponse result] := by
  rw [State.i2cRead, if_pos h]
  rfl

/-- The fixture's device after I2C.WW: the word's bytes stand in its registers, and the machine's parameters are as
before. -/
theorem bus_of_exec_i2cWw {t : State} {reg : Byte} {value : Word} (h : s.bus = .fixture d m)
    (ht : exec (.i2cWw d reg value) s = .next t) :
    t.bus = .fixture d (regWrite m reg.toNat (wireBytes t.platform.nativeLE (lowHalf value))) := by
  cases ht
  rw [State.i2cWrite_eq]
  exact (congrArg (Bus.after s.platform.nativeLE _) h).trans (Bus.after_fixture_dev rfl)

end ReadBack

/-- Settles O32: the write leaves the word's bytes in the registers, where the read finds them; LE = 1 passes the native
word unchanged. -/
theorem fixtureReadsBackAWrittenWord : Obligations.FixtureReadsBackAWrittenWord := by
  intro s t d reg m value hbus h
  have ht := bus_of_exec_i2cWw hbus h
  have hack : t.acks (.readWordData d reg) = true := (State.acks_fixture ht _).2 rfl
  have hresult : (endianMux true (maskHalf (t.answerWord (.readWordData d reg)))).toNat = value.toNat % 65536 := by
    rw [State.answerWord_of_regWrite ht, maskHalf_eq, endianMux, if_pos rfl, lowHalf_toNat]
  refine ⟨_, rfl, ?_⟩
  rw [State.rspq_i2cRead_of_acks hack, hresult, valueResponse_natCast]

end Sys2Proof.Machine

namespace Sys2Proof

open Sys2Proof.Machine Sys2Proof.Laws

/-! ### O1, O2, O3: decoder and encoder (`30_encoding.md` R97 to R100, R106)

The decoder's answer is read off `decodeWord_ofFields`, one case for each row of the opcode table. -/

/-- The twenty values of OP (R97). -/
def opcodes : List Byte :=
  [0x10, 0x11, 0x12, 0x13, 0x14, 0x15, 0x16, 0x17, 0x18, 0x19, 0x1A,
   0x20, 0x21, 0x22, 0x23, 0x24, 0x25, 0x26, 0x27, 0x28]

theorem mem_opcodes_iff : ∀ op : Byte,
    op ∈ opcodes ↔ 0x10 ≤ op.toNat ∧ op.toNat ≤ 0x1A ∨ 0x20 ≤ op.toNat ∧ op.toNat ≤ 0x28 := by decide

/-- A case for each row of the opcode table, and one for the values of OP that no row has. -/
theorem opcode_cases {P : Byte → Prop}
    (i2cWraw : P 0x10) (i2cWb : P 0x11) (i2cWw : P 0x12) (i2cWblk : P 0x13) (i2cRraw : P 0x14) (i2cRub : P 0x15)
    (i2cRsb : P 0x16) (i2cRuw : P 0x17) (i2cRsw : P 0x18) (i2cRblk : P 0x19) (i2cRcrc : P 0x1A) (gpioSetup : P 0x20)
    (gpioOut : P 0x21) (gpioIn : P 0x22) (gpioInm : P 0x23) (gpioArm : P 0x24) (gpioDisarm : P 0x25)
    (gpioSetcb : P 0x26) (gpioPoll : P 0x27) (gpioWait : P 0x28) (unassigned : ∀ op, op ∉ opcodes → P op)
    (op : Byte) : P op := by
  by_cases h : op ∈ opcodes
  · simp only [opcodes, List.mem_cons, List.not_mem_nil, or_false] at h
    rcases h with rfl | rfl | rfl | rfl | rfl | rfl | rfl | rfl | rfl | rfl | rfl | rfl | rfl | rfl | rfl | rfl | rfl |
      rfl | rfl | rfl <;> assumption
  · exact unassigned op h

/-! Masked fields as numbers. -/

theorem masked_lt_2_iff (flg : Byte) : flg &&& 0xFE#8 = 0#8 ↔ flg.toNat < 2 := by revert flg; decide

theorem masked_lt_4_iff (flg : Byte) : flg &&& 0xFC#8 = 0#8 ↔ flg.toNat < 4 := by revert flg; decide

theorem masked_lt_8_iff (flg : Byte) : flg &&& 0xF8#8 = 0#8 ↔ flg.toNat < 8 := by revert flg; decide

theorem masked_lt_32_iff (flg : Byte) : flg &&& 0xE0#8 = 0#8 ↔ flg.toNat < 32 := by revert flg; decide

theorem masked_len_iff (imm : Word) : imm &&& 0xFFFFFF00#32 = 0#32 ↔ imm.toNat < 256 := by
  constructor
  · intro h
    rw [← immLen_of_masked h, toNat_immLen]
    exact BitVec.isLt _
  · intro h
    have hlen : imm = immLen (imm.setWidth 8) :=
      BitVec.eq_of_toNat_eq (by rw [toNat_immLen, BitVec.toNat_setWidth]; omega)
    rw [hlen]
    exact immLen_masked _

theorem masked_bit_iff (imm : Word) : imm &&& 0xFFFFFFFE#32 = 0#32 ↔ imm.toNat < 2 := by
  constructor
  · intro h
    rw [← immBit_of_masked h, toNat_immBit]
    split <;> decide
  · intro h
    obtain rfl | rfl : imm = 0#32 ∨ imm = 1#32 := by bv_omega
    · decide
    · decide

/-! The codes inside FLG as numbers, and FLG from its codes (R99). -/

theorem pullOfCode_eq_none_iff (flg : Byte) : Pull.ofCode (flg.extractLsb' 2 2) = none ↔ flg.toNat / 4 % 4 = 3 := by
  revert flg; decide

theorem edgeOfCode_eq_none_iff (flg : Byte) : Edge.ofCode (flg.extractLsb' 0 2) = none ↔ flg.toNat % 4 = 0 := by
  revert flg; decide

theorem cbv_eq_false_iff (flg : Byte) : flg.getLsbD 2 = false ↔ flg.toNat / 4 % 2 = 0 := by revert flg; decide

theorem flagsSetup_of_masked (flg : Byte) (hm : flg &&& 0xE0 = 0) {pull : Pull}
    (h : Pull.ofCode (flg.extractLsb' 2 2) = some pull) :
    flagsSetup (PinMode.ofCode (flg.extractLsb' 0 2)) pull (flg.getLsbD 4) = flg := by
  revert flg
  cases pull <;> decide

theorem flagsWait_of_masked (flg : Byte) (hm : flg &&& 0xFC = 0) {edge : Edge}
    (h : Edge.ofCode (flg.extractLsb' 0 2) = some edge) : flagsWait edge = flg := by
  revert flg
  cases edge <;> decide

theorem flagsArm_of_masked (flg : Byte) (hm : flg &&& 0xF8 = 0) {edge : Edge} {cb : Option Byte}
    (h : Edge.ofCode (flg.extractLsb' 0 2) = some edge) (hcb : flg.getLsbD 2 = cb.isSome) : flagsArm edge cb = flg := by
  rw [flagsArm, ← hcb]
  clear hcb
  revert flg
  cases edge <;> decide

section Decoder

variable {op flg a b : Byte} {imm : Word} {i : Instr}

theorem callbackOf_eq_none_iff {cbv : Bool} : callbackOf cbv b = none ↔ cbv = false ∧ b ≠ 0 := by
  cases cbv <;> simp [callbackOf]

theorem callbackOf_eq_some {cbv : Bool} {cb : Option Byte} (h : callbackOf cbv b = some cb) :
    cbv = cb.isSome ∧ b = cb.getD 0 := by
  cases cbv with
  | true => cases h; exact ⟨rfl, rfl⟩
  | false =>
    by_cases hb : b = 0
    · cases (if_pos hb).symm.trans h
      exact ⟨rfl, hb⟩
    · cases (if_neg hb).symm.trans h

/-! The three forms with codes in FLG: what the decoder makes of an encoding, when it rejects a word, and that what it
accepts encodes to the word. -/

theorem decodeSetup_flagsSetup (mode : PinMode) (pull : Pull) (init : Bool) :
    decodeSetup (ofFields op (flagsSetup mode pull init) a b imm) = some (.gpioSetup a mode pull init) := by
  simp [decodeSetup, -BitVec.getLsbD_eq_getElem]

theorem decodeArm_flagsArm (edge : Edge) (cb : Option Byte) :
    decodeArm (ofFields op (flagsArm edge cb) a (cb.getD 0) imm) = some (.gpioArm a edge cb) := by
  simp [decodeArm, -BitVec.getLsbD_eq_getElem]

theorem decodeWait_flagsWait (edge : Edge) :
    decodeWait (ofFields op (flagsWait edge) a b imm) = some (.gpioWait a edge imm) := by
  simp [decodeWait]

theorem decodeSetup_eq_none_iff : decodeSetup (ofFields op flg a b imm) = none ↔ flg.toNat / 4 % 4 = 3 := by
  simp [decodeSetup, pullOfCode_eq_none_iff]

theorem decodeArm_eq_none_iff : decodeArm (ofFields op flg a b imm) = none ↔
    flg.toNat % 4 = 0 ∨ flg.toNat / 4 % 2 = 0 ∧ b ≠ 0 := by
  rw [decodeArm, flgOf_ofFields, bOf_ofFields, ← edgeOfCode_eq_none_iff, ← cbv_eq_false_iff, ← callbackOf_eq_none_iff]
  cases Edge.ofCode (flg.extractLsb' 0 2) <;> simp

theorem decodeWait_eq_none_iff : decodeWait (ofFields op flg a b imm) = none ↔ flg.toNat % 4 = 0 := by
  simp [decodeWait, edgeOfCode_eq_none_iff]

theorem encode_of_decodeSetup (hm : flg &&& 0xE0 = 0) (h : decodeSetup (ofFields 0x20 flg a 0 0) = some i) :
    i.wf = true ∧ encode i = ofFields 0x20 flg a 0 0 := by
  simp only [decodeSetup, flgOf_ofFields, aOf_ofFields, Option.map_eq_some_iff] at h
  obtain ⟨pull, hpull, rfl⟩ := h
  exact ⟨rfl, by rw [encode, flagsSetup_of_masked flg hm hpull]⟩

theorem encode_of_decodeArm (hm : flg &&& 0xF8 = 0) (h : decodeArm (ofFields 0x24 flg a b 0) = some i) :
    i.wf = true ∧ encode i = ofFields 0x24 flg a b 0 := by
  simp only [decodeArm, flgOf_ofFields, aOf_ofFields, bOf_ofFields, Option.bind_eq_some_iff,
    Option.map_eq_some_iff] at h
  obtain ⟨edge, hedge, cb, hcb, rfl⟩ := h
  obtain ⟨hcbv, rfl⟩ := callbackOf_eq_some hcb
  exact ⟨rfl, by rw [encode, flagsArm_of_masked flg hm hedge hcbv]⟩

theorem encode_of_decodeWait (hm : flg &&& 0xFC = 0) (h : decodeWait (ofFields 0x28 flg a 0 imm) = some i) :
    i.wf = true ∧ encode i = ofFields 0x28 flg a 0 imm := by
  simp only [decodeWait, flgOf_ofFields, aOf_ofFields, immOf_ofFields, Option.map_eq_some_iff] at h
  obtain ⟨edge, hedge, rfl⟩ := h
  exact ⟨rfl, by rw [encode, flagsWait_of_masked flg hm hedge]⟩

/-! Every form. -/

theorem decodeWord_encode (h : i.wf = true) : decodeWord (encode i) = some i := by
  cases i <;> rw [encode, decodeWord_ofFields]
  case i2cWblk | i2cRblk | gpioInm => simpa [Instr.wf] using h
  case gpioSetup => simp [decodeSetup_flagsSetup]
  case gpioArm => simpa using decodeArm_flagsArm _ _
  case gpioWait => simp [decodeWait_flagsWait]
  all_goals simp [-BitVec.getLsbD_eq_getElem]

theorem decodeWord_of_unassigned (h : op ∉ opcodes) : decodeWord (ofFields op flg a b imm) = none := by
  rw [decodeWord_ofFields]
  simp_all [opcodes]

theorem decodeWord_ofFields_eq_none_iff (hop : op ∈ opcodes) : decodeWord (ofFields op flg a b imm) = none ↔
    mustBeZeroBroken (ofFields op flg a b imm) ∨ reservedOperand (ofFields op flg a b imm) := by
  rw [decodeWord_ofFields]
  induction op using opcode_cases with
  | unassigned op h => exact absurd hop h
  | i2cWblk | i2cRblk | gpioInm => simp [mustBeZeroBroken, reservedOperand, masked_len_iff]; bv_omega
  | i2cRuw | i2cRsw => simp [mustBeZeroBroken, reservedOperand, masked_lt_2_iff]; bv_omega
  | gpioOut => simp [mustBeZeroBroken, reservedOperand, masked_bit_iff]; bv_omega
  | gpioSetup => simp [mustBeZeroBroken, reservedOperand, masked_lt_32_iff, decodeSetup_eq_none_iff]; bv_omega
  | gpioArm => simp [mustBeZeroBroken, reservedOperand, masked_lt_8_iff, decodeArm_eq_none_iff]; bv_omega
  | gpioWait => simp [mustBeZeroBroken, reservedOperand, masked_lt_4_iff, decodeWait_eq_none_iff]; bv_omega
  | _ => simp [mustBeZeroBroken, reservedOperand]; bv_omega

theorem encode_of_decodeWord_ofFields (h : decodeWord (ofFields op flg a b imm) = some i) :
    i.wf = true ∧ encode i = ofFields op flg a b imm := by
  rw [decodeWord_ofFields] at h
  induction op using opcode_cases with
  | unassigned op hop => rw [← decodeWord_ofFields, decodeWord_of_unassigned hop] at h; cases h
  | i2cWblk | i2cRblk | gpioInm =>
    simp at h
    obtain ⟨h, rfl⟩ := h
    simp [Instr.wf, encode, h, immLen_of_masked]
  | i2cRuw | i2cRsw =>
    simp [-BitVec.getLsbD_eq_getElem] at h
    obtain ⟨⟨hm, rfl⟩, rfl⟩ := h
    exact ⟨rfl, by rw [encode, flagsLe_of_masked flg hm]; rfl⟩
  | gpioOut =>
    simp [-BitVec.getLsbD_eq_getElem] at h
    obtain ⟨⟨rfl, rfl, hm⟩, rfl⟩ := h
    exact ⟨rfl, by rw [encode, immBit_of_masked hm]; rfl⟩
  | gpioSetup =>
    simp at h
    obtain ⟨⟨hm, rfl, rfl⟩, h⟩ := h
    exact encode_of_decodeSetup hm h
  | gpioArm =>
    simp at h
    obtain ⟨⟨hm, rfl⟩, h⟩ := h
    exact encode_of_decodeArm hm h
  | gpioWait =>
    simp at h
    obtain ⟨⟨hm, rfl⟩, h⟩ := h
    exact encode_of_decodeWait hm h
  | _ =>
    simp at h
    obtain ⟨h, rfl⟩ := h
    simp [Instr.wf, encode, h]

end Decoder

/-- Settles O1: form by form, each field of the word reads back as the operand it was made from. -/
theorem decodeOfEncodeIsTheInstruction : Obligations.DecodeOfEncodeIsTheInstruction :=
  fun _ => decodeWord_encode

/-- Settles O2: form by form, the fields that pass the row's mask are the encoder's. -/
theorem decodedWordIsItsEncoding : Obligations.DecodedWordIsItsEncoding := by
  intro w i h
  rw [← ofFields_fields w] at h ⊢
  exact encode_of_decodeWord_ofFields h

/-- Settles O3: an OP without a row is rejected, and in a row the masks and codes are those of R100. -/
theorem decoderRejectsExactlyTheIllegalWords : Obligations.DecoderRejectsExactlyTheIllegalWords := by
  intro w
  rw [opUnassigned, ← mem_opcodes_iff]
  by_cases hop : opOf w ∈ opcodes
  · rw [← ofFields_fields w, decodeWord_ofFields_eq_none_iff hop]
    simp [hop]
  · rw [← ofFields_fields w, decodeWord_of_unassigned hop]
    simp [hop]

end Sys2Proof

namespace Sys2Proof.Machine

/-! ### O5, O6: the assembler (`30_encoding.md` R104, R105) -/

theorem asmByte_toNat (b : Byte) : asmByte b.toNat = some b := asmByte_eq_some.2 rfl

theorem asmBytes_toNat (bs : List Byte) : asmBytes (bs.map (·.toNat)) = some bs := asmBytes_eq_some.2 rfl

theorem toNat_lenOf (w : Quad) : (lenOf w).toNat = (immOf w).toNat % 256 := by simp [lenOf, immOf]

/-- A block length that is the whole IMM is LEN. -/
theorem asmByte_lenOf {w : Quad} {n : Nat} (hn : n ≤ 255) (h : ((immOf w).toNat : Int) = n) :
    asmByte n = some (lenOf w) := by
  rw [asmByte_eq_some, toNat_lenOf]
  omega

theorem toNat_len_bounds {len : Byte} (h : len ≠ 0) : 1 ≤ len.toNat ∧ len.toNat ≤ 255 := by bv_omega

section Lines

variable {line : Asm} {c : Command} {i : Instr} {bs : List Byte}

/-- The line of an instruction that assembles spells the instruction's encoding. -/
theorem lineSpells_of_asmInstr (h : asmInstr line = some (i, bs)) (hwf : i.wf = true) :
    lineSpells line ⟨encode i, bs⟩ := by
  have hdec := decodeWord_encode hwf
  cases line with
  | i2cRraw | gpioSetup | gpioOut | gpioIn | gpioDisarm | gpioPoll =>
    simp [asmInstr, Option.bind_eq_some_iff, asmByte_eq_some] at h
    obtain ⟨a, rfl, rfl, rfl⟩ := h
    simpa [lineSpells, Spells, encode, toNat_flagsSetup, toNat_immBit] using hdec
  | i2cRub | i2cRsb | i2cRcrc | gpioSetcb =>
    simp [asmInstr, Option.bind_eq_some_iff, asmByte_eq_some] at h
    obtain ⟨a, rfl, b, rfl, rfl, rfl⟩ := h
    simpa [lineSpells, Spells, encode] using hdec
  | i2cRuw _ _ order | i2cRsw _ _ order =>
    simp [asmInstr, Option.bind_eq_some_iff, asmByte_eq_some] at h
    obtain ⟨a, rfl, b, rfl, rfl, rfl⟩ := h
    rcases order with - | - | - <;> simpa [lineSpells, Spells, encode, asmLe, toNat_flagsLe] using hdec
  | i2cWraw =>
    simp [asmInstr, Option.bind_eq_some_iff, asmByte_eq_some, asmValue_eq_some] at h
    obtain ⟨a, rfl, imm, hv, rfl, rfl⟩ := h
    simpa [lineSpells, Spells, encode, hv] using hdec
  | i2cWb | i2cWw =>
    simp [asmInstr, Option.bind_eq_some_iff, asmByte_eq_some, asmValue_eq_some] at h
    obtain ⟨a, rfl, b, rfl, imm, hv, rfl, rfl⟩ := h
    simpa [lineSpells, Spells, encode, hv] using hdec
  | i2cWblk =>
    simp [asmInstr, Option.bind_eq_some_iff, asmByte_eq_some, asmBytes_eq_some] at h
    obtain ⟨a, rfl, b, rfl, len, hlen, rfl, rfl⟩ := h
    have hlen_bounds := toNat_len_bounds (len := len) (by simpa [Instr.wf] using hwf)
    simpa [lineSpells, Spells, encode, toNat_immLen, ← hlen, hlen_bounds] using hdec
  | i2cRblk =>
    simp [asmInstr, Option.bind_eq_some_iff, asmByte_eq_some] at h
    obtain ⟨a, rfl, b, rfl, len, rfl, rfl, rfl⟩ := h
    have hlen_bounds := toNat_len_bounds (len := len) (by simpa [Instr.wf] using hwf)
    simpa [lineSpells, Spells, encode, toNat_immLen, hlen_bounds] using hdec
  | gpioInm =>
    simp [asmInstr, Option.bind_eq_some_iff, asmByte_eq_some, asmBytes_eq_some] at h
    obtain ⟨len, hlen, rfl, rfl⟩ := h
    have hlen_bounds := toNat_len_bounds (len := len) (by simpa [Instr.wf] using hwf)
    simpa [lineSpells, Spells, encode, toNat_immLen, ← hlen, hlen_bounds] using hdec
  | gpioArm _ _ cb =>
    cases cb with
    | none =>
      simp [asmInstr, Option.bind_eq_some_iff, asmByte_eq_some, asmTag] at h
      obtain ⟨a, rfl, rfl, rfl⟩ := h
      simpa [lineSpells, Spells, encode, toNat_flagsArm_none] using hdec
    | some =>
      simp [asmInstr, Option.bind_eq_some_iff, asmByte_eq_some, asmTag_eq_some] at h
      obtain ⟨a, rfl, b, rfl, rfl, rfl⟩ := h
      simpa [lineSpells, Spells, encode, toNat_flagsArm_some] using hdec
  | gpioWait =>
    simp [asmInstr, Option.bind_eq_some_iff, asmByte_eq_some, asmTimeout_eq_some] at h
    obtain ⟨a, rfl, imm, rfl, rfl, rfl⟩ := h
    simpa [lineSpells, Spells, encode, toNat_flagsWait] using hdec

/-- A line that spells a command reads as the instruction the command's word decodes to. -/
theorem asmInstr_of_lineSpells (h : lineSpells line c) :
    ∃ i, asmInstr line = some (i, c.payload) ∧ decodeWord c.word = some i := by
  cases line with
  | i2cRraw | gpioSetup | gpioOut | gpioIn | gpioDisarm | gpioPoll =>
    obtain ⟨-, -, rfl, -, -, hp, hdec⟩ := h
    exact ⟨_, by simp [asmInstr, asmByte_toNat, List.map_eq_nil_iff.1 hp], hdec⟩
  | i2cRub | i2cRsb | i2cRcrc | gpioSetcb =>
    obtain ⟨-, -, rfl, rfl, -, hp, hdec⟩ := h
    exact ⟨_, by simp [asmInstr, asmByte_toNat, List.map_eq_nil_iff.1 hp], hdec⟩
  | i2cRuw _ _ order | i2cRsw _ _ order =>
    rcases order with - | - | - <;> obtain ⟨-, -, rfl, rfl, -, hp, hdec⟩ := h <;>
      exact ⟨_, by simp [asmInstr, asmByte_toNat, List.map_eq_nil_iff.1 hp, asmLe], hdec⟩
  | i2cWraw =>
    obtain ⟨hlo, hhi, -, -, rfl, -, himm, hp, hdec⟩ := h
    have hv := asmValue_eq_some.2 ⟨hlo, hhi, himm⟩
    exact ⟨_, by simp [asmInstr, asmByte_toNat, List.map_eq_nil_iff.1 hp, hv], hdec⟩
  | i2cWb | i2cWw =>
    obtain ⟨hlo, hhi, -, -, rfl, rfl, himm, hp, hdec⟩ := h
    have hv := asmValue_eq_some.2 ⟨hlo, hhi, himm⟩
    exact ⟨_, by simp [asmInstr, asmByte_toNat, List.map_eq_nil_iff.1 hp, hv], hdec⟩
  | i2cWblk =>
    obtain ⟨-, hn, -, -, rfl, rfl, hlen, rfl, hdec⟩ := h
    rw [List.length_map] at hn hlen
    exact ⟨_, by simp [asmInstr, asmByte_toNat, asmBytes_toNat, asmByte_lenOf hn hlen], hdec⟩
  | i2cRblk =>
    obtain ⟨-, hn, -, -, rfl, rfl, hlen, hp, hdec⟩ := h
    exact ⟨_, by simp [asmInstr, asmByte_toNat, List.map_eq_nil_iff.1 hp, asmByte_lenOf hn hlen], hdec⟩
  | gpioInm =>
    obtain ⟨-, hn, -, -, -, -, hlen, rfl, hdec⟩ := h
    rw [List.length_map] at hn hlen
    exact ⟨_, by simp [asmInstr, asmBytes_toNat, asmByte_lenOf hn hlen], hdec⟩
  | gpioArm _ _ cb =>
    cases cb with
    | none =>
      obtain ⟨-, -, rfl, -, -, hp, hdec⟩ := h
      exact ⟨_, by simp [asmInstr, asmByte_toNat, List.map_eq_nil_iff.1 hp, asmTag], hdec⟩
    | some =>
      obtain ⟨-, -, rfl, rfl, -, hp, hdec⟩ := h
      exact ⟨_, by simp [asmInstr, asmByte_toNat, List.map_eq_nil_iff.1 hp, asmTag], hdec⟩
  | gpioWait _ _ timeout =>
    cases timeout with
    | none => exact h.elim
    | some =>
      obtain ⟨-, -, rfl, -, himm, hp, hdec⟩ := h
      have ht := asmTimeout_eq_some.2 (Int.ofNat.inj himm)
      exact ⟨_, by simp [asmInstr, asmByte_toNat, List.map_eq_nil_iff.1 hp, ht], hdec⟩

end Lines

/-- Settles O5: what the assembler accepts encodes to the row's fields, and the fields of a row read back as operands the
assembler accepts; that the word is the encoding of what it decodes to is O2. -/
theorem assembledLineDecodesToItsInstruction : Obligations.AssembledLineDecodesToItsInstruction := by
  intro line c
  rw [assemble_eq_some]
  constructor
  · rintro ⟨i, hasm, hwf, hword⟩
    have hspells := lineSpells_of_asmInstr hasm hwf
    rwa [← hword] at hspells
  · intro h
    obtain ⟨i, hasm, hdec⟩ := asmInstr_of_lineSpells h
    obtain ⟨hwf, hword⟩ := decodedWordIsItsEncoding _ _ hdec
    exact ⟨i, hasm, hwf, hword.symm⟩

/-- Settles O6: an order left out is read as `le`, a callback left out has neither CBV nor tag, a timeout is asked for. -/
theorem assemblerDefaults : Obligations.AssemblerDefaults := by
  refine ⟨fun _ _ => rfl, fun _ _ => rfl, fun pin edge hpin => ?_, fun pin edge => ?_⟩
  · have hasm : asmInstr (.gpioArm pin edge none) = some (.gpioArm (BitVec.ofNat 8 pin) edge none, []) := by
      simp [asmInstr, asmByte, asmTag, hpin]
    exact assemble_eq_some.2 ⟨_, hasm, rfl, rfl⟩
  · simp [assemble, asmInstr]

/-! ### O13: an illegal word (`30_encoding.md` R101) -/

/-- The block answers an illegal word with IllegalCommand and changes nothing else. -/
theorem accept_of_illegal {w : Quad} (s : State) (h : decodeWord w = none) :
    accept w s = .next { s with rspq := s.rspq ++ [0x7000000000000000] } := by
  have hw : errorResponse .illegalCommand = 0x7000000000000000 := by decide
  simp only [accept, h, State.raise, State.respond, hw]

theorem issue_of_illegal {s : State} {c : Command} (hc : s.prog[s.cp]? = some c)
    (hl : c.payload.length ≤ Config.bufferSize) (hi : decodeWord c.word = none) :
    issue s = .next { s.fetched c with rspq := s.rspq ++ [0x7000000000000000] } := by
  simp only [issue, hc, if_pos hl]
  exact accept_of_illegal _ hi

/-- The agenda's first entry or the default order picks the host's issue. -/
theorem step_eq_issue {s : State} {rest : List AgentStep} {c : Command}
    (hnext : s.agenda = .issue :: rest ∨ s.agenda = [] ∧ rest = []) (hc : s.prog[s.cp]? = some c) :
    step s = issue { s with agenda := rest } := by
  rcases hnext with ha | ⟨ha, rfl⟩
  · exact step_of_agenda_cons ha
  · rw [← ha]
    exact step_of_defaultAgent ha (State.defaultAgent_of_command hc)

/-- Settles O13: issuing the word fetches it, and accepting it only adds the response. -/
theorem illegalWordAnswersIllegalCommand : Obligations.IllegalWordAnswersIllegalCommand := by
  refine ⟨fun s _ h => accept_of_illegal s h, fun s rest c hnext hc hl hi => ?_⟩
  refine ⟨_, (step_eq_issue hnext hc).trans (issue_of_illegal hc hl hi), rfl, fun j hj => ?_, fun j hj => ?_⟩
  · exact (s.txByte_fetched c j).trans (if_pos hj)
  · exact (s.txByte_fetched c j).trans (if_neg (Nat.not_lt.2 hj))

/-! ### O52: the form of every response (`30_encoding.md` R94, R95) -/

section Responses

variable {s t : State}

/-- A state with more responses, each well formed, has only well-formed ones. -/
theorem ResponsesOk.append (h : ResponsesOk s) {ws : List Quad} (hws : ∀ w ∈ ws, ResponseOk w)
    (ht : t.rspq = s.rspq ++ ws) : ResponsesOk t := by
  intro w hw
  rw [ht, List.mem_append] at hw
  exact hw.elim (h w) (hws w)

theorem ResponsesOk.respond (h : ResponsesOk s) {w : Quad} (hw : ResponseOk w) : ResponsesOk (s.respond w) :=
  h.append (ws := [w]) (by simpa using hw) rfl

/-- Every command adds only well-formed responses. -/
theorem ResponsesOk.of_exec {i : Instr} (hs : ResponsesOk s) (h : exec i s = .next t) : ResponsesOk t := by
  by_cases hi : (opOf (encode i)).toNat < 0x20
  · obtain ⟨r, tr, w, u, rfl | ⟨bs, -, rfl⟩, hw, rfl⟩ := exec_i2c_next hi h
    · exact ResponsesOk.respond (s := (State.sent _ r).traced tr) hs hw
    · exact ResponsesOk.respond (s := (State.sent _ r).traced tr) hs hw
  · obtain ⟨-, -, -, -, ws, hrspq, hws⟩ := exec_gpio_next (Nat.le_of_not_lt hi) h
    exact hs.append hws hrspq

/-- Every agent's step adds no response or a well-formed one. -/
theorem ResponsesOk.of_runAgent {a : AgentStep} (hs : ResponsesOk s) (h : runAgent a s = .next t) :
    ResponsesOk t := by
  rcases runAgent_next h with ⟨-, h⟩ | ⟨i, v, -, -, rfl⟩ | ⟨-, v, m, n, rfl⟩ | ⟨p, v, -, h⟩ | ⟨-, h⟩ | ⟨-, h⟩ |
    ⟨p, -, h⟩ | ⟨p, -, h⟩
  · obtain ⟨c, -, -, ⟨i, -, h⟩ | ⟨-, rfl⟩⟩ := issue_next h
    · exact ResponsesOk.of_exec (s := s.fetched c) hs h
    · exact ResponsesOk.respond (s := s.fetched c) hs (responseOk_error _)
  · exact hs
  · exact hs
  · obtain ⟨-, ⟨-, -, rfl⟩ | ⟨-, rfl⟩⟩ := pinChange_next h
    · rw [State.detect_eq]
      exact hs
    · exact hs
  · obtain ⟨p, rest, -, rfl⟩ := deliver_next h
    exact hs
  · obtain ⟨-, rfl⟩ := tick_next h
    exact hs
  · obtain ⟨-, -, rfl⟩ := completeOk_next h
    exact ResponsesOk.respond (s := s.setPin p _) hs (responseOk_late _ p)
  · obtain ⟨-, -, rfl⟩ := completeTimeout_next h
    exact ResponsesOk.respond (s := s.setPin p _) hs (responseOk_late _ p)

end Responses

/-- Settles O52: commands and wait completions add well-formed responses, and no other agent adds any. -/
theorem everyStepAppendsWellFormedResponses : Obligations.EveryStepAppendsWellFormedResponses :=
  fun _ _ hs h => step_induction (P := fun s t => ResponsesOk s → ResponsesOk t) (fun _ => id)
    (fun _ s _ _ rest h hs => ResponsesOk.of_runAgent (s := { s with agenda := rest }) hs h) h hs

end Sys2Proof.Machine

namespace Sys2Proof.Machine

/-! ### O14 to O18: the I2C writes (`40_i2c_write.md`) -/

theorem lowByte_toNat (v : Word) : (lowByte v).toNat = v.toNat % 256 := by
  simp [lowByte]

/-- Settles O14: masking with `2^n - 1` is the remainder modulo `2^n`. -/
theorem writeValuesAreTruncated : Obligations.WriteValuesAreTruncated :=
  fun v => ⟨lowByte_toNat v, lowHalf_toNat v⟩

section Writes

variable (s : State) (r : Request)

theorem sentOnly_sent (tr : List TraceRec) (q : List Quad) : SentOnly r s { s.sent r with trace := tr, rspq := q } :=
  ⟨rfl, rfl, rfl⟩

/-- The frame of an I2C command whose request is answered: it writes the transport, the trace and the responses only. -/
theorem onlyBusChanged_sent (tr : List TraceRec) (q : List Quad) :
    OnlyBusChanged s { s.sent r with trace := tr, rspq := q } :=
  have host : SameHost s { s.sent r with trace := tr, rspq := q } := ⟨rfl, rfl, rfl, rfl, rfl, rfl, rfl⟩
  have gpio : SameGpio s { s.sent r with trace := tr, rspq := q } := ⟨fun _ => rfl, rfl, rfl, rfl⟩
  ⟨host, fun _ => rfl, ⟨fun _ => rfl, rfl⟩, gpio⟩

/-- Everything a write command does, whichever way the transport answers. -/
theorem State.i2cWrite_completes (dev : Byte) (reg : Option Byte) (val : TraceVal) :
    SentOnly r s (s.i2cWrite r dev reg val) ∧ OnlyBusChanged s (s.i2cWrite r dev reg val) ∧
      (s.acks r = true → (s.i2cWrite r dev reg val).rspq = s.rspq ++ [0x0000000000000000] ∧
        (s.i2cWrite r dev reg val).trace = s.trace ++ [⟨dev, reg, .write, .ok, val⟩]) ∧
      (s.acks r = false → (s.i2cWrite r dev reg val).rspq = s.rspq ++ [0x1000000000000000] ∧
        (s.i2cWrite r dev reg val).trace = s.trace ++ [⟨dev, reg, .write, .busError, .none⟩]) := by
  rw [State.i2cWrite_eq]
  refine ⟨sentOnly_sent s r _ _, onlyBusChanged_sent s r _ _, fun hack => ?_, fun hnack => ?_⟩
  · simp [hack, okResponse_eq]
  · simp [hnack, errorResponse_eq, Status.code]

end Writes

/-- Settles O15: the command is one write request, which carries the truncated byte and no register. -/
theorem writeRawByteCompletes : Obligations.WriteRawByteCompletes := by
  rintro s dev value _ rfl
  rw [← lowByte_toNat, BitVec.ofNat_toNat, BitVec.setWidth_eq]
  exact ⟨decodeWord_encode (i := .i2cWraw dev value) rfl, _, rfl, s.i2cWrite_completes _ dev none _⟩

/-- Settles O16: the command is one write request, which carries the register and the truncated byte. -/
theorem writeByteCompletes : Obligations.WriteByteCompletes := by
  rintro s dev reg value _ rfl
  rw [← lowByte_toNat, BitVec.ofNat_toNat, BitVec.setWidth_eq]
  exact ⟨decodeWord_encode (i := .i2cWb dev reg value) rfl, _, rfl, s.i2cWrite_completes _ dev (some reg) _⟩

/-- Settles O17: the command is one write request with the truncated native word. -/
theorem writeWordCompletes : Obligations.WriteWordCompletes := by
  rintro s dev reg value _ rfl
  rw [← lowHalf_toNat, BitVec.ofNat_toNat, BitVec.setWidth_eq]
  exact ⟨decodeWord_encode (i := .i2cWw dev reg value) rfl, _, rfl, s.i2cWrite_completes _ dev (some reg) _⟩

/-- The word of I2C.WBLK is legal iff LEN is not 0 (R100 item 3). -/
theorem decodeWord_i2cWblk (dev reg len : Byte) :
    decodeWord (ofFields 0x13 0 dev reg (immLen len)) = if len = 0 then none else some (.i2cWblk dev reg len) := by
  simp [decodeWord_ofFields]

theorem exec_i2cWblk (s : State) (dev reg len : Byte) : exec (.i2cWblk dev reg len) s =
    s.onPayload len.toNat fun bs => s.i2cWrite (.writeBlock dev reg bs) dev (some reg) (.bytes bs) := rfl

/-- Settles O18: a payload that is there goes into one request, and a byte that is missing stops the command. -/
theorem writeBlockCompletes : Obligations.WriteBlockCompletes := by
  intro s dev reg len
  rw [exec_i2cWblk]
  refine ⟨decodeWord_i2cWblk dev reg len, ?_, fun _ hi hnone hfirst => s.onPayload_of_missing _ hi hnone hfirst⟩
  rintro bs _ hlen hbytes rfl
  exact ⟨_, s.onPayload_of_bytes _ hlen hbytes, s.i2cWrite_completes _ dev (some reg) _⟩

end Sys2Proof.Machine

namespace Sys2Proof.Machine

/-! ### O25, O26: the byte swap and the sign conversion (`41_i2c_read.md` R142, R143) -/

/-- A word is its high byte followed by its low byte. -/
theorem highByte_append_lowByte (w : Half) : w.extractLsb' 8 8 ++ w.extractLsb' 0 8 = w :=
  (BitVec.extractLsb'_append_extractLsb'_eq_extractLsb' rfl).trans BitVec.extractLsb'_eq_self

theorem getLsbD_append_byte (hi lo : Byte) (i : Nat) :
    BitVec.getLsbD (w := 16) (hi ++ lo) i = if i < 8 then lo.getLsbD i else hi.getLsbD (i - 8) :=
  BitVec.getLsbD_append

/-- Bits below 8 are the shifted high byte, the others are the masked low byte. -/
theorem swap16_append (hi lo : Byte) : swap16 (hi ++ lo) = lo ++ hi := by
  have hmask : ∀ k, k < 8 → (255#16).getLsbD k = true := by decide
  refine BitVec.eq_of_getLsbD_eq fun i hlt => ?_
  by_cases h : i < 8
  · simp [swap16, getLsbD_append_byte, h, -BitVec.getLsbD_eq_getElem]
  · have hlow : i - 8 < 8 := by omega
    have hhi : hi.getLsbD i = false := BitVec.getLsbD_of_ge hi i (by omega)
    simp [swap16, getLsbD_append_byte, h, hlt, hlow, hhi, hmask, -BitVec.getLsbD_eq_getElem]

theorem swap16_eq (w : Half) : swap16 w = w.extractLsb' 0 8 ++ w.extractLsb' 8 8 := by
  rw [← swap16_append, highByte_append_lowByte]

theorem swap16_swap16 (w : Half) : swap16 (swap16 w) = w := by
  rw [swap16_eq w, swap16_append, highByte_append_lowByte]

theorem append_byte_inj {a b c d : Byte} : a ++ b = c ++ d ↔ a = c ∧ b = d := by
  refine ⟨fun h => ⟨?_, ?_⟩, fun ⟨ha, hb⟩ => by rw [ha, hb]⟩
  · simpa only [BitVec.extractLsb'_append_eq_left] using congrArg (BitVec.extractLsb' 8 8) h
  · simpa only [BitVec.extractLsb'_append_eq_right] using congrArg (BitVec.extractLsb' 0 8) h

/-- Settles O26: the swap exchanges the two bytes that a word is made of. -/
theorem byteSwapIsAnInvolution : Obligations.ByteSwapIsAnInvolution := by
  refine fun w => ⟨swap16_eq w, swap16_swap16 w, ?_⟩
  calc swap16 w = w
    _ ↔ w.extractLsb' 0 8 ++ w.extractLsb' 8 8 = w.extractLsb' 8 8 ++ w.extractLsb' 0 8 := by
      rw [swap16_eq, highByte_append_lowByte]
    _ ↔ w.extractLsb' 8 8 = w.extractLsb' 0 8 := by
      rw [append_byte_inj, eq_comm, and_self]

theorem signedByte_eq_toInt (u : Byte) : signedByte u = u.toInt := by
  rw [signedByte, BitVec.toInt_eq_toNat_cond]
  split <;> split <;> omega

theorem signedHalf_eq_toInt (u : Half) : signedHalf u = u.toInt := by
  rw [signedHalf, BitVec.toInt_eq_toNat_cond]
  split <;> split <;> omega

theorem signedByte_eq_ite (u : Byte) :
    signedByte u = if u.toNat ≤ 127 then (u.toNat : Int) else u.toNat - 256 := by
  simp only [signedByte, ← Nat.not_lt, ite_not]

theorem signedHalf_eq_ite (u : Half) :
    signedHalf u = if u.toNat ≤ 32767 then (u.toNat : Int) else u.toNat - 65536 := by
  simp only [signedHalf, ← Nat.not_lt, ite_not]

/-- VAL of a signed result is the sign extension. -/
theorem resultVal_signedByte (u : Byte) : resultVal (signedByte u) = u.signExtend 32 :=
  congrArg resultVal (signedByte_eq_toInt u)

theorem resultVal_signedHalf (u : Half) : resultVal (signedHalf u) = u.signExtend 32 :=
  congrArg resultVal (signedHalf_eq_toInt u)

/-- The signed readings of the words of `n` bits are the integers of the signed range (R142). -/
theorem bounds_iff_exists_toInt {n : Nat} (hn : 0 < n) (z : Int) :
    -2 ^ (n - 1) ≤ z ∧ z ≤ 2 ^ (n - 1) - 1 ↔ ∃ u : BitVec n, u.toInt = z := by
  constructor
  · rintro ⟨hlow, hhigh⟩
    exact ⟨BitVec.ofInt n z, BitVec.toInt_ofInt_eq_self hn hlow (Int.lt_of_le_sub_one hhigh)⟩
  · rintro ⟨u, rfl⟩
    exact ⟨u.le_toInt, Int.le_sub_one_of_lt u.toInt_lt⟩

/-- Settles O25: the conversion is the two's-complement reading of the word. -/
theorem signConversionIsTwosComplement : Obligations.SignConversionIsTwosComplement := by
  refine ⟨fun u => ⟨signedByte_eq_ite u, ?_, resultVal_signedByte u⟩,
    fun u => ⟨signedHalf_eq_ite u, ?_, resultVal_signedHalf u⟩, fun z => ?_,
    fun u v h => ?_, fun z => ?_, fun u v h => ?_⟩
  · rw [signedByte_eq_toInt, BitVec.toInt_signExtend_of_le (by decide)]
  · rw [signedHalf_eq_toInt, BitVec.toInt_signExtend_of_le (by decide)]
  · simpa [signedByte_eq_toInt] using bounds_iff_exists_toInt (n := 8) (by decide) z
  · rwa [signedByte_eq_toInt, signedByte_eq_toInt, BitVec.toInt_inj] at h
  · simpa [signedHalf_eq_toInt] using bounds_iff_exists_toInt (n := 16) (by decide) z
  · rwa [signedHalf_eq_toInt, signedHalf_eq_toInt, BitVec.toInt_inj] at h

/-! ### O19 to O23: the I2C reads (`41_i2c_read.md`) -/

/-- The width mask of a byte read keeps all 8 bits. -/
theorem maskByte_eq (b : Byte) : maskByte b = b := BitVec.and_allOnes

theorem endianMux_eq (le : Bool) (w : Half) :
    endianMux le w = if le then w else w.extractLsb' 0 8 ++ w.extractLsb' 8 8 := by
  rw [endianMux, swap16_eq]

/-- VAL of an unsigned result is the zero extension. -/
theorem resultVal_toNat {n : Nat} (u : BitVec n) : resultVal u.toNat = u.setWidth 32 := by
  rw [resultVal, BitVec.ofInt_natCast, BitVec.ofNat_toNat]

theorem errorResponse_busError : errorResponse .busError = 0x1000000000000000 := by decide

/-- Everything a read command with an integer result does, whichever way the transport answers. -/
theorem State.i2cRead_completes (s : State) (r : Request) (dev : Byte) (reg : Option Byte) (result : Int) :
    SentOnly r s (s.i2cRead r dev reg result) ∧ OnlyBusChanged s (s.i2cRead r dev reg result) ∧
      (s.acks r = true → (s.i2cRead r dev reg result).rspq = s.rspq ++ [0x08000000#32 ++ resultVal result] ∧
        (s.i2cRead r dev reg result).trace = s.trace ++ [⟨dev, reg, .read, .ok, .int result⟩]) ∧
      (s.acks r = false → (s.i2cRead r dev reg result).rspq = s.rspq ++ [0x1000000000000000] ∧
        (s.i2cRead r dev reg result).trace = s.trace ++ [⟨dev, reg, .read, .busError, .none⟩]) := by
  rw [State.i2cRead_eq]
  refine ⟨sentOnly_sent s r _ _, onlyBusChanged_sent s r _ _, fun hack => ?_, fun hnack => ?_⟩
  · simp [hack, valueResponse_eq]
  · simp [hnack, errorResponse_busError]

/-- Settles O19: both forms are one read whose result is the byte. -/
theorem readUnsignedByteCompletes : Obligations.ReadUnsignedByteCompletes := by
  rintro s i w dev reg r b (⟨rfl, rfl, rfl, rfl⟩ | ⟨rg, rfl, rfl, rfl, rfl⟩) rfl <;> rw [← resultVal_toNat]
  · exact ⟨decodeWord_encode (i := .i2cRraw dev) rfl, _, rfl, s.i2cRead_completes _ dev none _⟩
  · refine ⟨decodeWord_encode (i := .i2cRub dev rg) rfl, _, rfl, ?_⟩
    rw [maskByte_eq]
    exact s.i2cRead_completes _ dev (some rg) _

/-- Settles O20: the command is one read whose result is the signed byte. -/
theorem readSignedByteCompletes : Obligations.ReadSignedByteCompletes := by
  rintro s dev reg _ _ rfl rfl
  refine ⟨decodeWord_encode (i := .i2cRsb dev reg) rfl, _, rfl, ?_⟩
  rw [maskByte_eq, ← resultVal_signedByte, ← signedByte_eq_ite]
  exact s.i2cRead_completes _ dev (some reg) _

/-- Settles O21: the command is one read whose result is the word after the mux. -/
theorem readUnsignedWordCompletes : Obligations.ReadUnsignedWordCompletes := by
  rintro s le dev reg _ _ _ rfl rfl rfl
  refine ⟨decodeWord_encode (i := .i2cRuw le dev reg) rfl, _, rfl, ?_⟩
  rw [maskHalf_eq, ← endianMux_eq, ← resultVal_toNat]
  exact s.i2cRead_completes _ dev (some reg) _

/-- Settles O22: the command is one read whose result is the signed word after the mux. -/
theorem readSignedWordCompletes : Obligations.ReadSignedWordCompletes := by
  rintro s le dev reg _ _ _ rfl rfl rfl
  refine ⟨decodeWord_encode (i := .i2cRsw le dev reg) rfl, _, rfl, ?_⟩
  rw [maskHalf_eq, ← endianMux_eq, ← resultVal_signedHalf, ← signedHalf_eq_ite]
  exact s.i2cRead_completes _ dev (some reg) _

/-- The word of I2C.RBLK is legal iff LEN is not 0 (R100 item 3). -/
theorem decodeWord_i2cRblk (dev reg len : Byte) :
    decodeWord (ofFields 0x19 0 dev reg (immLen len)) = if len = 0 then none else some (.i2cRblk dev reg len) := by
  simp [decodeWord_ofFields]

/-- I2C.RBLK is one request, which sets RXBUF to the block of the answer on ACK and to no byte on NACK. -/
theorem exec_i2cRblk {s : State} {dev reg len : Byte} {r : Request} {bs : List Byte} (hr : r = .readBlock dev reg len)
    (hbs : bs = s.answerBlock r len.toNat) : exec (.i2cRblk dev reg len) s =
      .next { (s.setRx (if s.acks r then bs else [])).sent r with
        trace := s.trace ++
          [⟨dev, some reg, .read, if s.acks r then .ok else .busError, if s.acks r then .bytes bs else .none⟩]
        rspq := s.rspq ++ [if s.acks r then bytesResponse len else errorResponse .busError] } := by
  subst hr hbs
  simp only [exec, execI2cRblk]
  cases s.acks (.readBlock dev reg len) <;> rfl

/-- Settles O23: the command is one block read, and RXBUF is set to the answer or to no byte. -/
theorem readBlockCompletes : Obligations.ReadBlockCompletes := by
  intro s dev reg len r bs hr hbs
  have hlen : bs.length = len.toNat := hbs ▸ s.answerBlock_length r len.toNat
  obtain ⟨hhost, htx, -, hgpio⟩ := onlyBusChanged_sent (s.setRx (if s.acks r then bs else [])) r _ _
  refine ⟨hlen, decodeWord_i2cRblk dev reg len, _, exec_i2cRblk hr hbs, sentOnly_sent (s.setRx _) r _ _, hhost, htx,
    hgpio, fun hack => ⟨?_, fun j => (s.rxByte_setRx _ j).trans ?_, ?_⟩,
    fun hnack => ⟨?_, fun j => (s.rxByte_setRx _ j).trans ?_, ?_⟩⟩
  · simp [hack, hlen]
  · simp [hack]
  · simp [hack, bytesResponse_eq]
  · simp [hnack]
  · simp [hnack]
  · simp [hnack, errorResponse_busError]

end Sys2Proof.Machine

namespace Sys2Proof.Machine

/-! ### O28 to O30: the CRC validator (`42_i2c_crc.md` R150 to R153) -/

theorem crcLoop_succ (n : Nat) (rem div : BitVec 24) : crcLoop (n + 1) rem div =
    crcLoop n (if rem.getLsbD (8 + n) then rem ^^^ div else rem) (div >>> 1) := rfl

theorem crcCheck_eq_true_iff {msb lsb crc : Byte} : crcCheck msb lsb crc = true ↔ crcRemainder msb lsb crc = 0 :=
  beq_iff_eq

/-- From iterate `i` of R150's sequence on, the loop reaches the last one. -/
theorem crcLoop_eq_last {rem : Nat → BitVec 24}
    (hstep : ∀ i, i < 16 → rem (i + 1) = if (rem i).getLsbD (23 - i) then rem i ^^^ (crcDivisor >>> i) else rem i)
    {n i : Nat} (h : i + n = 16) : crcLoop n (rem i) (crcDivisor >>> i) = rem 16 := by
  induction n generalizing i with
  | zero => rw [← h]; rfl
  | succ n ih =>
    have hbit : 8 + n = 23 - i := by omega
    rw [crcLoop_succ, hbit, ← hstep i (by omega), ← BitVec.shiftRight_add]
    exact ih (by omega)

/-- Settles O28: the loop of the model runs through the sequence. -/
theorem crcCheckIsTheDivisionLoop : Obligations.CrcCheckIsTheDivisionLoop := by
  intro msb lsb crc rem hzero hstep
  rw [crcCheck_eq_true_iff, crcRemainder, ← hzero, ← crcLoop_eq_last hstep (Nat.zero_add 16),
    BitVec.ushiftRight_zero]

/-- Bits below the tested ones choose no XOR, so they pass through the loop (R153). -/
theorem crcLoop_xor {y : BitVec 24} (hy : ∀ j, 8 ≤ j → y.getLsbD j = false) (n : Nat) (rem div : BitVec 24) :
    crcLoop n (rem ^^^ y) div = crcLoop n rem div ^^^ y := by
  induction n generalizing rem div with
  | zero => rfl
  | succ n ih =>
    have htest : (rem ^^^ y).getLsbD (8 + n) = rem.getLsbD (8 + n) := by
      rw [BitVec.getLsbD_xor, hy _ (Nat.le_add_right 8 n), Bool.xor_false]
    rw [crcLoop_succ, crcLoop_succ, htest, ← ih]
    split
    · rw [BitVec.xor_assoc, BitVec.xor_comm y, ← BitVec.xor_assoc]
    · rfl

/-- In iteration `i` the divisor's highest set bit is the tested one (R151 item 1). -/
theorem getLsbD_crcDivisor_tested {n i : Nat} (h : i + n = 15) : (crcDivisor >>> i).getLsbD (8 + n) = true := by
  rw [BitVec.getLsbD_ushiftRight, show i + (8 + n) = 23 by omega]
  decide

theorem getLsbD_crcDivisor_above {n i j : Nat} (h : i + n = 15) (hj : 8 + n < j) :
    (crcDivisor >>> i).getLsbD j = false := by
  rw [BitVec.getLsbD_ushiftRight]
  exact BitVec.getLsbD_of_ge _ _ (by omega)

/-- An iteration clears the tested bit and keeps the bits above it clear, so none is left at the end (R151 item 1). -/
theorem getLsbD_crcLoop_of_ge {n i : Nat} (h : i + n = 16) {rem : BitVec 24}
    (hrem : ∀ j, 8 + n ≤ j → rem.getLsbD j = false) {j : Nat} (hj : 8 ≤ j) :
    (crcLoop n rem (crcDivisor >>> i)).getLsbD j = false := by
  induction n generalizing i rem with
  | zero => exact hrem j hj
  | succ n ih =>
    rw [crcLoop_succ, ← BitVec.shiftRight_add]
    refine ih (by omega) fun k hk => ?_
    rcases Nat.eq_or_lt_of_le hk with rfl | hk
    · split
      · rename_i htest
        rw [BitVec.getLsbD_xor, htest, getLsbD_crcDivisor_tested (by omega), Bool.xor_self]
      · rename_i htest
        exact Bool.eq_false_of_not_eq_true htest
    · have hclear := hrem k (by omega)
      have hdiv : (crcDivisor >>> i).getLsbD k = false := getLsbD_crcDivisor_above (by omega) hk
      split
      · rw [BitVec.getLsbD_xor, hclear, hdiv, Bool.xor_false]
      · exact hclear

/-- With no checksum byte the remainder is the generated checksum (R153). -/
theorem crcRemainder_zero (msb lsb : Byte) : crcRemainder msb lsb 0 = (crcGenerate msb lsb).setWidth 24 := by
  refine BitVec.eq_of_getLsbD_eq fun j hj => ?_
  by_cases h : j < 8
  · simp [crcGenerate, h, hj, -BitVec.getLsbD_eq_getElem]
  · have hclear : (crcRemainder msb lsb 0).getLsbD j = false :=
      getLsbD_crcLoop_of_ge (i := 0) rfl (fun k hk => BitVec.getLsbD_of_ge _ k hk) (Nat.le_of_not_lt h)
    rw [hclear, BitVec.getLsbD_setWidth, BitVec.getLsbD_of_ge (crcGenerate msb lsb) j (by omega), Bool.and_false]

/-- A block's checksum byte stands in the low bits of the first remainder. -/
theorem append_checksum (d : Half) (crc : Byte) : d ++ crc = d ++ 0#8 ^^^ crc.setWidth 24 := by
  rw [BitVec.setWidth_eq_append (by decide)]
  calc d ++ crc
    _ = (d ^^^ 0#16) ++ (0#8 ^^^ crc) := by rw [BitVec.xor_zero, BitVec.zero_xor]
    _ = d ++ 0#8 ^^^ 0#16 ++ crc := BitVec.xor_append.symm

/-- The remainder is the difference between the generated checksum and the block's. -/
theorem crcRemainder_eq (msb lsb crc : Byte) :
    crcRemainder msb lsb crc = (crcGenerate msb lsb ^^^ crc).setWidth 24 := by
  have hlow : ∀ j, 8 ≤ j → (crc.setWidth 24).getLsbD j = false := fun j hj => by
    simp [BitVec.getLsbD_of_ge crc j hj]
  calc crcRemainder msb lsb crc
    _ = crcLoop 16 (msb ++ lsb ++ 0#8 ^^^ crc.setWidth 24) crcDivisor := by rw [crcRemainder, append_checksum]
    _ = crcRemainder msb lsb 0 ^^^ crc.setWidth 24 := crcLoop_xor hlow ..
    _ = (crcGenerate msb lsb ^^^ crc).setWidth 24 := by rw [crcRemainder_zero, BitVec.setWidth_xor]

/-- The generated checksum is the one that passes. -/
theorem crcCheck_iff {msb lsb crc : Byte} : crcCheck msb lsb crc = true ↔ crc = crcGenerate msb lsb := by
  calc crcCheck msb lsb crc = true
    _ ↔ ((crcGenerate msb lsb ^^^ crc).setWidth 24).toNat = 0 := by
      rw [crcCheck_eq_true_iff, crcRemainder_eq, ← BitVec.toNat_inj]
      rfl
    _ ↔ crcGenerate msb lsb ^^^ crc = 0#8 := by
      rw [BitVec.toNat_setWidth_of_le (by decide)]
      exact BitVec.toNat_inj (y := 0#8)
    _ ↔ crc = crcGenerate msb lsb := by rw [BitVec.xor_eq_zero_iff, eq_comm]

/-- Settles O29: the byte is the generated checksum. -/
theorem exactlyOneChecksumPasses : Obligations.ExactlyOneChecksumPasses :=
  fun msb lsb => ⟨crcGenerate msb lsb, crcCheck_iff.2 rfl, fun _ => crcCheck_iff.1⟩

/-- Settles O30: a byte with one bit flipped is another byte than the generated checksum. -/
theorem generatedChecksumPassesAndFlipsFail : Obligations.GeneratedChecksumPassesAndFlipsFail := by
  intro msb lsb k hk
  refine ⟨crcCheck_iff.2 rfl, ?_⟩
  rw [← Bool.not_eq_true, crcCheck_iff]
  intro h
  have hbit := congrArg (BitVec.getLsbD · k) h
  simp [hk] at hbit

/-! ### O24: the CRC-checked read (`42_i2c_crc.md` R152) -/

/-- `CRCMASK` rounds down to a multiple of 4. -/
theorem crcReading_toNat (msb lsb : Byte) :
    (crcReading msb lsb).toNat = (msb.toNat * 256 + lsb.toNat) / 4 * 4 := by
  have hmask : (0xFFFC : Half) = BitVec.allOnes 16 <<< 2 := by decide
  rw [crcReading, hmask, ← BitVec.shiftLeft_ushiftRight, BitVec.toNat_shiftLeft, BitVec.toNat_ushiftRight,
    toNat_append_byte, Nat.shiftRight_eq_div_pow, Nat.shiftLeft_eq]
  omega

theorem errorResponse_checksumError : errorResponse .checksumError = 0x2000000000000000 := by decide

/-- I2C.RCRC is one request of 3 bytes; the check of an acknowledged block decides on the result. -/
theorem exec_i2cRcrc {s : State} {dev reg msb lsb crc : Byte} {r : Request} (hr : r = .readBlock dev reg 3)
    (hmsb : msb = s.answerByte r 0) (hlsb : lsb = s.answerByte r 1) (hcrc : crc = s.answerByte r 2) :
    exec (.i2cRcrc dev reg) s = .next { s.sent r with
      trace := s.trace ++ [
        if s.acks r then
          if crcCheck msb lsb crc then ⟨dev, some reg, .read, .ok, .int (crcReading msb lsb).toNat⟩
          else ⟨dev, some reg, .read, .checksumError, .none⟩
        else ⟨dev, some reg, .read, .busError, .none⟩]
      rspq := s.rspq ++ [
        if s.acks r then
          if crcCheck msb lsb crc then valueResponse (crcReading msb lsb).toNat else errorResponse .checksumError
        else errorResponse .busError] } := by
  subst hr hmsb hlsb hcrc
  simp only [exec, execI2cRcrc]
  split
  · split <;> rfl
  · rfl

/-- Settles O24: the command is one block read, and both tests fix its trace record and response. -/
theorem crcCheckedReadCompletes : Obligations.CrcCheckedReadCompletes := by
  intro s dev reg r msb lsb crc v hr hmsb hlsb hcrc hv
  rw [← crcReading_toNat] at hv
  subst hv
  refine ⟨decodeWord_encode (i := .i2cRcrc dev reg) rfl, _, exec_i2cRcrc hr hmsb hlsb hcrc, sentOnly_sent s r _ _,
    onlyBusChanged_sent s r _ _, fun hack hpass => ?_, fun hack hfail => ?_, fun hnack => ?_⟩
  · simp [hack, hpass, valueResponse_natCast]
  · simp [hack, hfail, errorResponse_checksumError]
  · simp [hnack, errorResponse_busError]

end Sys2Proof.Machine

namespace Sys2Proof.Machine

/-! ### O33 to O36: the GPIO configuration and level commands (`43_gpio_config_io.md`) -/

theorem errorResponse_modeError : errorResponse .modeError = 0x4000000000000000 := by decide

theorem errorResponse_invalidPinError : errorResponse .invalidPinError = 0x3000000000000000 := by decide

theorem valueResponse_boolVal (b : Bool) :
    valueResponse (boolVal b) = if b then 0x0800000000000001 else 0x0800000000000000 := by
  cases b <;> decide

/-- A failed command changes nothing but the responses (R9). -/
theorem State.raise_modeError (s : State) :
    s.raise .modeError = { s with rspq := s.rspq ++ [0x4000000000000000] } := by
  rw [State.raise, State.respond, errorResponse_modeError]

theorem State.raise_invalidPinError (s : State) :
    s.raise .invalidPinError = { s with rspq := s.rspq ++ [0x3000000000000000] } := by
  rw [State.raise, State.respond, errorResponse_invalidPinError]

section PinFrames

variable {s t : State} {p : Byte} (r : Pin) (w : Quad)

theorem OnlyPinChanged.refl (s : State) (p : Byte) : OnlyPinChanged p s s :=
  ⟨fun _ _ => rfl, rfl, ⟨rfl, rfl⟩, ⟨rfl, rfl, rfl, rfl, rfl, rfl, rfl⟩, fun _ => rfl, ⟨fun _ => rfl, rfl⟩,
    ⟨rfl, rfl, rfl, rfl⟩⟩

/-- Writing the record of the pin and answering stays within the frame of a command on the pin. -/
theorem OnlyPinChanged.respond_setPin (h : OnlyPinChanged p s t) : OnlyPinChanged p s ((t.setPin p r).respond w) := by
  obtain ⟨others, frame⟩ := h
  exact ⟨fun q hq => (t.pin_setPin_other r hq).trans (others q hq), frame⟩

/-- Dropping the queued callbacks of the pin before that stays within the frame of a command on its tracker. -/
theorem OnlyPinChanged.respond_setPin_dropCallbacks (h : OnlyPinChanged p s t) :
    OnlyTrackerChanged p s (((t.dropCallbacks p).setPin p r).respond w) := by
  obtain ⟨others, level, ⟨-, evq⟩, frame⟩ := h.respond_setPin r w
  exact ⟨others, level, evq, frame⟩

theorem onlyPinChanged_cancelWait (s : State) (p : Byte) : OnlyPinChanged p s (s.cancelWait p) := by
  unfold State.cancelWait
  split
  · exact (OnlyPinChanged.refl s p).respond_setPin _ _
  · exact OnlyPinChanged.refl s p

end PinFrames

/-- The record of GPIO.SETUP, field by field (R160). -/
theorem freshPin_eq (mode : PinMode) (pull : Pull) (init : Bool) : freshPin mode pull init =
    { mode := mode, pull := pull, out := if mode = .output then init else false, armed := false,
      edge := 0, pending := false, cbv := false, cbtag := 0, waiting := false, waitLeft := 0 } := by
  cases mode <;> rfl

/-- The responses of a command that cancels an outstanding wait before it answers (R199). -/
theorem State.rspq_cancelWait (s : State) (p : Byte) : (s.cancelWait p).rspq =
    s.rspq ++ if (s.pin p).waiting then [0x6400#16 ++ p ++ 0x0000000000#40] else [] := by
  rw [State.cancelWait_rspq, lateResponse_cancelled]

theorem State.cbq_dropCallbacks (s : State) (p : Byte) : (s.dropCallbacks p).cbq = s.cbq.filter (· ≠ p) :=
  List.filter_congr fun _ _ => decide_not.symm

theorem exec_gpioSetup (s : State) (pin : Byte) (mode : PinMode) (pull : Pull) (init : Bool) :
    exec (.gpioSetup pin mode pull init) s = .next (if s.pinValid pin then
      (((s.cancelWait pin).dropCallbacks pin).setPin pin (freshPin mode pull init)).respond okResponse
      else s.raise .invalidPinError) := rfl

/-- Settles O33: on a valid pin the wait is cancelled, the callbacks are dropped and the record is replaced. -/
theorem setupOverwritesThePin : Obligations.SetupOverwritesThePin := by
  intro s pin mode pull init
  rw [exec_gpioSetup]
  refine ⟨decodeWord_encode (i := .gpioSetup pin mode pull init) rfl, fun hvalid => ?_, fun hinvalid => ?_⟩
  · rw [if_pos hvalid]
    refine ⟨_, rfl, (onlyPinChanged_cancelWait s pin).respond_setPin_dropCallbacks _ _, ?_, ?_, ?_⟩
    · rw [State.respond_pin, State.pin_setPin_same, freshPin_eq]
    · rw [State.respond_cbq, State.setPin_cbq, State.cbq_dropCallbacks, State.cancelWait_cbq]
    · rw [State.respond_rspq, State.setPin_rspq, State.dropCallbacks_rspq, State.rspq_cancelWait, okResponse_eq]
  · rw [if_neg (Bool.eq_false_iff.1 hinvalid), State.raise_invalidPinError]

theorem exec_gpioOut (s : State) (pin : Byte) (value : Bool) :
    exec (.gpioOut pin value) s = .next (if (s.pin pin).mode = .output then
      (s.setPin pin { s.pin pin with out := value }).respond okResponse else s.raise .modeError) := rfl

/-- Settles O34: only on an output pin the latch is written. -/
theorem outputDrivesTheLatch : Obligations.OutputDrivesTheLatch := by
  intro s pin value
  rw [exec_gpioOut]
  refine ⟨decodeWord_encode (i := .gpioOut pin value) rfl, fun hout => ?_, fun hother => ?_⟩
  · rw [if_pos hout]
    refine ⟨_, rfl, (OnlyPinChanged.refl s pin).respond_setPin _ _, s.pin_setPin_same pin _, ?_⟩
    rw [State.respond_rspq, State.setPin_rspq, okResponse_eq]
  · rw [if_neg hother, State.raise_modeError]

theorem exec_gpioIn (s : State) (pin : Byte) :
    exec (.gpioIn pin) s = .next (if (s.pin pin).mode = .input then
      s.respond (valueResponse (boolVal (s.levelOf pin))) else s.raise .modeError) := rfl

/-- Settles O35: only on an input pin the level is the value. -/
theorem inputReturnsTheLevel : Obligations.InputReturnsTheLevel := by
  intro s pin
  rw [exec_gpioIn]
  refine ⟨decodeWord_encode (i := .gpioIn pin) rfl, fun hin => ?_, fun hother => ?_⟩
  · rw [if_pos hin, State.respond, valueResponse_boolVal]
  · rw [if_neg hother, State.raise_modeError]

/-- The word of GPIO.INM is legal iff LEN is not 0 (R100 item 3). -/
theorem decodeWord_gpioInm (len : Byte) :
    decodeWord (ofFields 0x23 0 0 0 (immLen len)) = if len = 0 then none else some (.gpioInm len) := by
  simp [decodeWord_ofFields]

/-- GPIO.INM sets RXBUF, to the levels of its pins or, if one of them is no input, to no byte, and answers. -/
theorem exec_gpioInm (s : State) (len : Byte) :
    exec (.gpioInm len) s = s.onPayload len.toNat fun pins =>
      if pins.all fun p => (s.pin p).mode = .input then
        (s.setRx (pins.map s.levelByte)).respond (bytesResponse len)
      else (s.setRx []).respond (errorResponse .modeError) := rfl

/-- The frame of a GPIO command that sets RXBUF and answers. -/
theorem State.respond_setRx_frame (s : State) (bs : List Byte) (w : Quad) :
    SameHost s ((s.setRx bs).respond w) ∧ SameTx s ((s.setRx bs).respond w) ∧
      SameGpio s ((s.setRx bs).respond w) ∧ SameBus s ((s.setRx bs).respond w) :=
  ⟨⟨rfl, rfl, rfl, rfl, rfl, rfl, rfl⟩, fun _ => rfl, ⟨fun _ => rfl, rfl, rfl, rfl⟩, ⟨rfl, rfl, rfl, rfl⟩⟩

/-- Settles O36: the payload decides on the levels or the ModeError, and a byte that is missing stops the command. -/
theorem inputManyReturnsTheLevelsInOrder : Obligations.InputManyReturnsTheLevelsInOrder := by
  intro s len
  rw [exec_gpioInm]
  refine ⟨decodeWord_gpioInm len, fun pins hlen hbytes => ?_,
    fun _ hi hnone hfirst => s.onPayload_of_missing _ hi hnone hfirst⟩
  rw [s.onPayload_of_bytes _ hlen hbytes]
  refine ⟨fun hin => ?_, fun hother => ?_⟩
  · have hall : (pins.all fun p => (s.pin p).mode = .input) = true := by simpa using hin
    obtain ⟨host, tx, gpio, bus⟩ := s.respond_setRx_frame (pins.map s.levelByte) (bytesResponse len)
    refine ⟨_, congrArg _ (if_pos hall), host, tx, gpio, bus, ?_, fun j => ?_, ?_⟩
    · rw [State.respond_rxlen, State.setRx_rxlen, List.length_map, hlen, BitVec.ofNat_toNat, BitVec.setWidth_eq]
    · rw [State.respond_rxByte, State.rxByte_setRx, List.getElem?_map]
      rfl
    · rw [State.respond_rspq, State.setRx_rspq, bytesResponse_eq]
  · have hall : ¬ (pins.all fun p => (s.pin p).mode = .input) = true := by simpa using hother
    obtain ⟨host, tx, gpio, bus⟩ := s.respond_setRx_frame [] (errorResponse .modeError)
    refine ⟨_, congrArg _ (if_neg hall), host, tx, gpio, bus, rfl, fun j => ?_, ?_⟩
    · rw [State.respond_rxByte, State.rxByte_setRx, List.getElem?_nil]
    · rw [State.respond_rspq, State.setRx_rspq, errorResponse_modeError]

end Sys2Proof.Machine

namespace Sys2Proof.Machine

/-! ### O59: the counter of an outstanding wait (`44_gpio_edge.md` R197, R198)

One step of a pin that waits before and after it is the base: a tick takes one off the counter, if it is running, and no
other step writes it. The runs follow by induction on their length. -/

section Counter

variable {s t u : State} {p : Byte} {n : Nat}

/-- A counter that a tick finds at 0 stays there (R197). -/
theorem Pin.waitLeft_toNat_ticked {r : Pin} (hw : r.waiting = true) :
    r.ticked.waitLeft.toNat = r.waitLeft.toNat - 1 := by
  rw [Pin.ticked_eq]
  by_cases hleft : r.waitLeft = 0
  · simp [hw, hleft]
  · have hpos : r.waitLeft.toNat ≠ 0 := fun h => hleft (BitVec.eq_of_toNat_eq h)
    simp only [hw, hleft, ne_eq, not_false_eq_true, and_self, if_true]
    bv_omega

/-- A step of the Timer ticks every record. -/
theorem pin_of_step_tick (h : step s = .next t) (hm : mover s = some .tick) (p : Byte) :
    t.pin p = (s.pin p).ticked := by
  rcases step_next_cases h with ⟨hnone, -⟩ | ⟨a, rest, ha, h⟩
  · simp [hm] at hnone
  · obtain rfl : a = .tick := by simpa [hm] using ha.symm
    obtain ⟨-, rfl⟩ := tick_next h
    exact State.pin_afterTick _ p

/-- A command that leaves the wait outstanding leaves its counter: GPIO.WAIT needs a pin that does not wait, GPIO.SETUP
and GPIO.DISARM end the wait. -/
theorem waitLeft_of_exec {i : Instr} (h : exec i s = .next t) (hs : (s.pin p).waiting = true)
    (ht : (t.pin p).waiting = true) : (t.pin p).waitLeft = (s.pin p).waitLeft := by
  rcases exec_pin_next h p with hr | ⟨mode, pull, init, -, hr⟩ | ⟨value, -, hr⟩ | ⟨edge, cb, -, -, -, hr⟩ | ⟨-, hr⟩ |
    ⟨tag, -, -, hr⟩ | ⟨-, hr⟩ | ⟨edge, timeout, -, -, hno, -⟩
  · rw [hr]
  · rw [hr] at ht; cases ht
  · rw [hr]
  · rw [hr]
  · have hno : (t.pin p).waiting = false := by rw [hr]; exact s.waiting_cancelWait p
    simp [hno] at ht
  · rw [hr]
  · rw [hr]
  · simp [hno] at hs

/-- A step other than a tick that leaves the wait outstanding leaves its counter. -/
theorem waitLeft_of_step (h : step s = .next t) (hm : mover s ≠ some .tick) (hs : (s.pin p).waiting = true)
    (ht : (t.pin p).waiting = true) : (t.pin p).waitLeft = (s.pin p).waitLeft := by
  rcases step_pin_next h p with hr | ⟨i, u, -, hu, h⟩ | ⟨-, hr⟩ | ⟨-, -, hr⟩ | ⟨htick, -⟩ | ⟨-, hr⟩ | ⟨-, hr⟩
  · rw [hr]
  · rw [← hu p] at hs ⊢
    exact waitLeft_of_exec h hs ht
  · rw [hr]
  · rw [hr]
  · exact absurd htick hm
  · rw [hr] at ht; cases ht
  · rw [hr] at ht; cases ht

/-- The counter of a wait over one step. -/
theorem waitLeft_toNat_of_step (h : step s = .next t) (hs : (s.pin p).waiting = true) (ht : (t.pin p).waiting = true) :
    (t.pin p).waitLeft.toNat = (s.pin p).waitLeft.toNat - if mover s = some .tick then 1 else 0 := by
  split
  · rename_i hm; rw [pin_of_step_tick h hm, Pin.waitLeft_toNat_ticked hs]
  · rename_i hm; rw [waitLeft_of_step h hm hs ht, Nat.sub_zero]

/-- A run of `n + 1` steps is a step and a run of `n`. -/
theorem exists_step_of_run_succ (h : Sys2Proof.core.run (n + 1) s = .next t) :
    ∃ u, step s = .next u ∧ Sys2Proof.core.run n u = .next t := by
  simp only [Host.Core.run] at h
  split at h
  · exact ⟨_, ‹_›, h⟩
  · cases h
  · cases h

theorem ticksWithin_succ (h : step s = .next u) :
    ticksWithin (n + 1) s = (if mover s = some .tick then 1 else 0) + ticksWithin n u := by
  simp only [ticksWithin, h]

theorem waitsThrough_succ (h : step s = .next u) :
    waitsThrough p (n + 1) s = true ↔ (s.pin p).waiting = true ∧ waitsThrough p n u = true := by
  simp only [waitsThrough, h, Bool.and_eq_true]

/-- The pin waits in the first of the states. -/
theorem waiting_of_waitsThrough (h : waitsThrough p n s = true) : (s.pin p).waiting = true := by
  cases n with
  | zero => exact h
  | succ n => exact (Bool.and_eq_true_iff.1 h).1

/-- The counter of a wait over a run through which it stays outstanding. -/
theorem waitLeft_toNat_of_run (h : Sys2Proof.core.run n s = .next t) (hw : waitsThrough p n s = true) :
    (t.pin p).waitLeft.toNat = (s.pin p).waitLeft.toNat - ticksWithin n s := by
  induction n generalizing s with
  | zero => cases h; rfl
  | succ n ih =>
    obtain ⟨u, hstep, hrun⟩ := exists_step_of_run_succ h
    obtain ⟨hs, hu⟩ := (waitsThrough_succ hstep).1 hw
    rw [ih hrun hu, waitLeft_toNat_of_step hstep hs (waiting_of_waitsThrough hu), ticksWithin_succ hstep, Nat.sub_sub]

end Counter

/-- Settles O59: CompleteTimeout needs the counter at 0, and only ticks take it there. -/
theorem noTimeoutBeforeItsTicks : Obligations.NoTimeoutBeforeItsTicks := by
  intro n s t p hrun hw
  have hleft := waitLeft_toNat_of_run hrun hw
  refine ⟨hleft, fun u hu => ?_⟩
  obtain ⟨-, hzero, -⟩ := completeTimeout_next hu
  rw [hzero] at hleft
  exact Nat.sub_eq_zero_iff_le.1 hleft.symm

/-! ### O37 to O41: the GPIO edge commands (`44_gpio_edge.md` section 1) -/

section PinWrites

variable (s : State) (p : Byte) (r : Pin)

theorem onlyPinChanged_setPin : OnlyPinChanged p s (s.setPin p r) := by
  obtain ⟨-, frame⟩ := OnlyPinChanged.refl s p
  exact ⟨fun _ hq => s.pin_setPin_other r hq, frame⟩

/-- The common end of a command or a wait completion on pin `p`: its record is written, then it is answered. -/
theorem State.respond_setPin_completes (w : Quad) :
    OnlyPinChanged p s ((s.setPin p r).respond w) ∧ ((s.setPin p r).respond w).pin p = r ∧
      ((s.setPin p r).respond w).rspq = s.rspq ++ [w] :=
  ⟨(OnlyPinChanged.refl s p).respond_setPin r w, s.pin_setPin_same p r, rfl⟩

end PinWrites

theorem exec_gpioArm (s : State) (pin : Byte) (edge : Edge) (cb : Option Byte) :
    exec (.gpioArm pin edge cb) s = .next (if (s.pin pin).mode = .input ∧ (s.pin pin).armed = false then
      (s.setPin pin { s.pin pin with
        armed := true, edge := edge.code, cbv := cb.isSome, cbtag := cb.getD 0, pending := false }).respond okResponse
      else s.raise .modeError) := rfl

/-- Settles O37: only an input pin that is not armed is armed. -/
theorem armStartsDetection : Obligations.ArmStartsDetection := by
  intro s pin edge cb code hcode
  obtain rfl : code = edge.code := by rw [hcode]; cases edge <;> rfl
  rw [exec_gpioArm]
  refine ⟨decodeWord_encode (i := .gpioArm pin edge cb) rfl, fun hfree => ?_, fun hother => ?_⟩
  · rw [if_pos hfree, ← okResponse_eq]
    cases cb <;> exact ⟨_, rfl, s.respond_setPin_completes pin _ _⟩
  · have hrefused : ¬ ((s.pin pin).mode = .input ∧ (s.pin pin).armed = false) := by
      simpa only [not_and_or, Bool.not_eq_false] using hother
    rw [if_neg hrefused, State.raise_modeError]

theorem exec_gpioDisarm (s : State) (pin : Byte) :
    exec (.gpioDisarm pin) s = .next ((((s.cancelWait pin).dropCallbacks pin).setPin pin
      { (s.cancelWait pin).pin pin with
        armed := false, edge := 0, pending := false, cbv := false, cbtag := 0 }).respond okResponse) := rfl

/-- Cancelling the wait clears the counter of a pin that waits, and no other (R199). -/
theorem State.pin_cancelWait_eq (s : State) (p : Byte) : (s.cancelWait p).pin p = { s.pin p with
    waiting := false, waitLeft := if (s.pin p).waiting then 0 else (s.pin p).waitLeft } := by
  rw [State.pin_cancelWait]
  obtain ⟨_, _, _, _, _, _, _, _, waiting, _⟩ := s.pin p
  cases waiting <;> simp

/-- Settles O38: the wait is cancelled, the callbacks are dropped and the tracker is cleared. -/
theorem disarmClearsTheTracker : Obligations.DisarmClearsTheTracker := by
  intro s pin
  rw [exec_gpioDisarm]
  refine ⟨decodeWord_encode (i := .gpioDisarm pin) rfl, _, rfl,
    (onlyPinChanged_cancelWait s pin).respond_setPin_dropCallbacks _ _, ?_, ?_, ?_⟩
  · rw [State.respond_pin, State.pin_setPin_same, State.pin_cancelWait_eq]
  · rw [State.respond_cbq, State.setPin_cbq, State.cbq_dropCallbacks, State.cancelWait_cbq]
  · rw [State.respond_rspq, State.setPin_rspq, State.dropCallbacks_rspq, State.rspq_cancelWait, okResponse_eq]

theorem exec_gpioSetcb (s : State) (pin tag : Byte) :
    exec (.gpioSetcb pin tag) s = .next (if (s.pin pin).armed then
      (s.setPin pin { s.pin pin with cbv := true, cbtag := tag }).respond okResponse else s.raise .modeError) := rfl

/-- Settles O39: only an armed pin gets the callback. -/
theorem setCallbackKeepsTheEdge : Obligations.SetCallbackKeepsTheEdge := by
  intro s pin tag
  rw [exec_gpioSetcb]
  refine ⟨decodeWord_encode (i := .gpioSetcb pin tag) rfl, fun harmed => ?_, fun hunarmed => ?_⟩
  · rw [if_pos harmed, ← okResponse_eq]
    exact ⟨_, rfl, s.respond_setPin_completes pin _ _⟩
  · rw [if_neg (Bool.eq_false_iff.1 hunarmed), State.raise_modeError]

theorem exec_gpioPoll (s : State) (pin : Byte) :
    exec (.gpioPoll pin) s = .next ((s.setPin pin { s.pin pin with pending := false }).respond
      (valueResponse (boolVal (s.pin pin).pending))) := rfl

/-- Settles O40: PENDING is the value, and is cleared by the same step. -/
theorem pollReadsAndClears : Obligations.PollReadsAndClears := by
  intro s pin
  rw [exec_gpioPoll, ← valueResponse_boolVal]
  exact ⟨decodeWord_encode (i := .gpioPoll pin) rfl, _, rfl, s.respond_setPin_completes pin _ _⟩

theorem exec_gpioWait (s : State) (pin : Byte) (edge : Edge) (timeout : Word) :
    exec (.gpioWait pin edge timeout) s = .next (if (s.pin pin).mode = .input ∧ (s.pin pin).armed = true ∧
        (s.pin pin).edge = edge.code ∧ (s.pin pin).waiting = false then
      s.setPin pin { s.pin pin with waiting := true, waitLeft := timeout } else s.raise .modeError) := rfl

/-- Settles O41: the four conditions of R190 together give the wait slot, and nothing is answered yet. -/
theorem waitTakesTheSlot : Obligations.WaitTakesTheSlot := by
  intro s pin edge timeout code hcode
  obtain rfl : code = edge.code := by rw [hcode]; cases edge <;> rfl
  rw [exec_gpioWait]
  refine ⟨decodeWord_encode (i := .gpioWait pin edge timeout) rfl, fun hfree => ?_, fun hother => ?_⟩
  · rw [if_pos hfree]
    exact ⟨_, rfl, onlyPinChanged_setPin s pin _, s.pin_setPin_same pin _, rfl⟩
  · have hrefused : ¬ ((s.pin pin).mode = .input ∧ (s.pin pin).armed = true ∧ (s.pin pin).edge = edge.code ∧
        (s.pin pin).waiting = false) := by
      simpa only [not_and_or, Bool.not_eq_true, Bool.not_eq_false] using hother
    rw [if_neg hrefused, State.raise_modeError]

/-! ### O42, O44 to O46: the edge detector, the Timer and wait completion (`44_gpio_edge.md` section 2) -/

section Agents

variable {s : State} {p : Byte} {v : Bool}

theorem whenEnabled_of_true (a : AgentStep) (s' : State) {e : Bool} (h : e = true) : whenEnabled a e s' = .next s' :=
  if_pos h

theorem whenEnabled_of_false (a : AgentStep) (s' : State) {e : Bool} (h : e = false) :
    whenEnabled a e s' = .fault (.notEnabled a) := if_neg (Bool.eq_false_iff.1 h)

/-- EDGE enables a change to the level `v` iff its bit for that direction is set (R28, R195). -/
theorem edgeMatches_iff {edge : BitVec 2} {old : Bool} (h : v ≠ old) : edgeMatches edge old v = true ↔
    v = true ∧ edge.getLsbD 0 = true ∨ v = false ∧ edge.getLsbD 1 = true := by
  obtain rfl : old = !v := Bool.eq_not.2 h.symm
  cases v <;> simp [edgeMatches]

/-- A change to the other level is a step, whatever it detects (R195). -/
theorem exists_pinChange (h : v ≠ s.levelOf p) : ∃ t, pinChange p v s = .next t :=
  ⟨_, whenEnabled_of_true _ _ (bne_iff_ne.2 h)⟩

/-- A change to the level already present is no step (R195). -/
theorem pinChange_of_eq (h : v = s.levelOf p) : pinChange p v s = .fault (.notEnabled (.pinChange p v)) :=
  whenEnabled_of_false _ _ (by simp [h])

/-- Detecting an edge stays within the frame of the tracker of the pin. -/
theorem onlyTrackerChanged_detect (s : State) (p : Byte) : OnlyTrackerChanged p s (s.detect p) := by
  rw [State.detect_eq]
  obtain ⟨others, level, ⟨-, evq⟩, frame⟩ := onlyPinChanged_setPin s p { s.pin p with pending := true }
  exact ⟨others, level, evq, frame⟩

theorem State.rspq_detect (s : State) (p : Byte) : (s.detect p).rspq = s.rspq := by
  rw [State.detect_eq]; rfl

theorem Pin.running_iff {r : Pin} : r.running = true ↔ r.waiting = true ∧ r.waitLeft ≠ 0 := by
  simp [Pin.running]

theorem Pin.okReady_iff {r : Pin} : r.okReady = true ↔ r.waiting = true ∧ r.pending = true := by
  simp [Pin.okReady]

theorem Pin.timeoutReady_iff {r : Pin} : r.timeoutReady = true ↔ r.waiting = true ∧ r.waitLeft = 0 := by
  simp [Pin.timeoutReady]

end Agents

/-- Settles O42: only an armed pin whose EDGE enables the direction detects the change. -/
theorem pinChangeDetectsEdges : Obligations.PinChangeDetectsEdges := by
  intro s p v
  refine ⟨pinChange_of_eq, fun hv => ?_⟩
  obtain ⟨t, hstep⟩ := exists_pinChange hv
  refine ⟨t, hstep, (levelOf_pinChange hstep p).trans (if_pos rfl),
    fun q hq => (levelOf_pinChange hstep q).trans (if_neg hq), ?_⟩
  obtain ⟨-, ⟨harmed, hedge, rfl⟩ | ⟨hnone, rfl⟩⟩ := pinChange_next hstep
  · obtain ⟨others, -, evq, host, tx, rx, bus⟩ := onlyTrackerChanged_detect (s.setLevel p v) p
    refine ⟨others, host, tx, rx, bus, State.rspq_detect _ p, evq, ?_⟩
    rw [edgeMatches_iff hv] at hedge
    rw [if_pos ⟨harmed, hedge⟩, State.pin_detect, if_pos rfl, State.detect_eq]
    exact ⟨rfl, rfl⟩
  · obtain ⟨others, -, ⟨-, evq⟩, host, tx, rx, bus⟩ := OnlyPinChanged.refl s p
    refine ⟨others, host, tx, rx, bus, rfl, evq, ?_⟩
    rw [edgeMatches_iff hv] at hnone
    rw [if_neg hnone]
    exact ⟨rfl, rfl⟩

/-- Settles O44: a listed counter runs iff some pin's does, and a tick steps every record. -/
theorem tickStepsEveryRunningCounter : Obligations.TickStepsEveryRunningCounter := by
  intro s hwf
  have hany := s.any_running hwf
  simp only [Pin.running_iff] at hany
  refine ⟨fun hnone => ?_, fun hsome => ?_⟩
  · refine whenEnabled_of_false _ _ (Bool.eq_false_iff.2 (mt hany.1 ?_))
    rintro ⟨p, hw, hleft⟩
    exact (hnone p).elim (by simp [hw]) hleft
  · refine ⟨s.afterTick, whenEnabled_of_true _ _ (hany.2 hsome), fun p => ?_, rfl, ⟨rfl, rfl⟩,
      ⟨rfl, rfl, rfl, rfl, rfl, rfl, rfl⟩, fun _ => rfl, ⟨fun _ => rfl, rfl⟩, ⟨rfl, rfl, rfl, rfl⟩, rfl⟩
    rw [State.pin_afterTick, Pin.ticked]
    simp only [Pin.running_iff]

/-- Settles O45: the wait ends with OK, whatever ticks are left. -/
theorem completeOkAnswersTheWait : Obligations.CompleteOkAnswersTheWait := by
  intro s p
  rw [← lateResponse_ok]
  refine ⟨fun hready => ⟨_, whenEnabled_of_true _ _ (Pin.okReady_iff.2 hready), s.respond_setPin_completes p _ _⟩,
    fun hnot => whenEnabled_of_false _ _ (Bool.eq_false_iff.2 (mt Pin.okReady_iff.1 ?_))⟩
  rintro ⟨hw, hp⟩
  simp [hw, hp] at hnot

/-- Settles O46: the wait ends with TimeoutError once no tick is left. -/
theorem completeTimeoutAnswersTheWait : Obligations.CompleteTimeoutAnswersTheWait := by
  intro s p
  rw [← lateResponse_timeout]
  refine ⟨fun hready =>
      ⟨_, whenEnabled_of_true _ _ (Pin.timeoutReady_iff.2 hready), s.respond_setPin_completes p _ _⟩,
    fun hnot => whenEnabled_of_false _ _ (Bool.eq_false_iff.2 (mt Pin.timeoutReady_iff.1 ?_))⟩
  rintro ⟨hw, hleft⟩
  simp [hw, hleft] at hnot

end Sys2Proof.Machine

/-! ### O43: callback delivery (`44_gpio_edge.md` R196, `60_exceptions.md` R227) -/

namespace Sys2Proof.Machine

section Delivery

variable {s : State} {p : Byte} {rest : List Byte}

/-- With no callback queued, delivery is no step (R196). -/
theorem deliver_of_nil (h : s.cbq = []) : deliver s = .fault (.notEnabled .deliver) := by
  simp only [deliver, h]

/-- Delivery of the head of CBQ (R227). -/
theorem deliver_of_cons (h : s.cbq = p :: rest) : deliver s = .next
    { s.setPin p { s.pin p with pending := false } with
      cbq := rest, evq := s.evq ++ [⟨p, (s.pin p).cbtag⟩] } := by
  simp only [deliver, h]
  rfl

end Delivery

/-- Settles O43: a delivery rewrites the record of the head's pin, CBQ and EVQ; every other field is in the frame of the
record's update. -/
theorem deliveryEmitsTheHead : Obligations.DeliveryEmitsTheHead := by
  intro s
  refine ⟨deliver_of_nil, fun p rest hcbq => ?_⟩
  obtain ⟨others, level, -, host, tx, rx, bus⟩ := onlyPinChanged_setPin s p { s.pin p with pending := false }
  exact ⟨_, deliver_of_cons hcbq, rfl, rfl, s.pin_setPin_same p _, others, level, host, tx, rx, bus, rfl⟩

end Sys2Proof.Machine

/-! ### O9: the reset state (`70_reset_and_hazards.md` R241) -/

namespace Sys2Proof.Machine

/-- Settles O9: what disables each of the four agents (R196 to R198) holds at reset, where no pin waits and no callback
is queued. -/
theorem noBackgroundStepAtReset : Obligations.NoBackgroundStepAtReset := by
  intro platform level p
  have hidle (q : Byte) : ((State.powerOn platform level).pin q).waiting = false := rfl
  exact ⟨(tickStepsEveryRunningCounter _ rfl).1 fun q => .inl (hidle q), (deliveryEmitsTheHead _).1 rfl,
    (completeOkAnswersTheWait _ p).2 (.inl (hidle p)), (completeTimeoutAnswersTheWait _ p).2 (.inl (hidle p))⟩

/-! ### O60: the default order ends a run (`70_reset_and_hazards.md` R245)

Once every command is issued, each step of the default order lowers a measure: the callbacks still queued plus, for every
pin that waits, the ticks left and the completion. -/

/-- The run only has waits and callbacks left: every command is issued, nothing is on the agenda, and the pin list is
canonical. -/
structure Draining (s : State) : Prop where
  pinsWf : sparseWf (some Pin.atReset) 256 s.pins = true
  agenda : s.agenda = []
  issued : s.prog.length ≤ s.cp

/-- The most steps the wait of a pin can still take: a tick for each one left on its counter, and its completion. -/
def Pin.waitSteps (r : Pin) : Nat := if r.waiting then r.waitLeft.toNat + 1 else 0

/-- The most steps the waits can still take. -/
def State.waitSteps (s : State) : Nat := ∑ p : Byte, (s.pin p).waitSteps

/-- The measure of a draining run. -/
def State.stepsLeft (s : State) : Nat := s.cbq.length + s.waitSteps

/-- The agent's step is enabled, and it brings a draining run closer to its end. -/
def Drains (a : AgentStep) (s : State) : Prop :=
  ∃ t, runAgent a s = .next t ∧ Draining t ∧ t.stepsLeft < s.stepsLeft

section Draining

variable {s : State} {p : Byte} {r : Pin}

/-! The measure of one record. -/

theorem Pin.waitSteps_of_waiting (h : r.waiting = true) : r.waitSteps = r.waitLeft.toNat + 1 := if_pos h

theorem Pin.waitSteps_of_not_waiting (h : r.waiting = false) : r.waitSteps = 0 := if_neg (Bool.eq_false_iff.1 h)

/-- The end of a wait takes the record's measure to 0. -/
theorem Pin.waitSteps_endWait_lt (h : r.waiting = true) (left : Word) :
    { r with waiting := false, waitLeft := left }.waitSteps < r.waitSteps := by
  rw [Pin.waitSteps_of_not_waiting rfl, Pin.waitSteps_of_waiting h]
  exact Nat.succ_pos _

theorem Pin.waitSteps_ticked_lt (h : r.running = true) : r.ticked.waitSteps < r.waitSteps := by
  obtain ⟨hw, hleft⟩ := Pin.running_iff.1 h
  have hpos : r.waitLeft.toNat ≠ 0 := fun e => hleft (BitVec.eq_of_toNat_eq e)
  have hticked : r.ticked.waiting = true := by rw [Pin.ticked_eq]; exact hw
  rw [Pin.waitSteps_of_waiting hticked, Pin.waitSteps_of_waiting hw, Pin.waitLeft_toNat_ticked hw]
  omega

theorem Pin.waitSteps_ticked_le (r : Pin) : r.ticked.waitSteps ≤ r.waitSteps := by
  by_cases h : r.running = true
  · exact (Pin.waitSteps_ticked_lt h).le
  · rw [Pin.ticked, if_neg h]

/-! The measure of the pin array. -/

theorem State.waitSteps_afterTick_lt (h : (s.pin p).running = true) : s.afterTick.waitSteps < s.waitSteps := by
  refine Finset.sum_lt_sum (fun q _ => ?_) ⟨p, Finset.mem_univ p, ?_⟩
  · rw [State.pin_afterTick]; exact Pin.waitSteps_ticked_le _
  · rw [State.pin_afterTick]; exact Pin.waitSteps_ticked_lt h

/-- A record that does not grow makes no record of the array grow. -/
theorem State.waitSteps_pin_setPin_le (h : r.waitSteps ≤ (s.pin p).waitSteps) (q : Byte) :
    ((s.setPin p r).pin q).waitSteps ≤ (s.pin q).waitSteps := by
  rw [State.pin_setPin]
  split
  · rename_i hq; rw [hq]; exact h
  · exact le_rfl

theorem State.waitSteps_setPin_le (h : r.waitSteps ≤ (s.pin p).waitSteps) : (s.setPin p r).waitSteps ≤ s.waitSteps :=
  Finset.sum_le_sum fun q _ => State.waitSteps_pin_setPin_le h q

theorem State.waitSteps_setPin_lt (h : r.waitSteps < (s.pin p).waitSteps) : (s.setPin p r).waitSteps < s.waitSteps :=
  Finset.sum_lt_sum (fun q _ => State.waitSteps_pin_setPin_le h.le q)
    ⟨p, Finset.mem_univ p, by rwa [State.pin_setPin_same]⟩

/-! The four agents of the default order after the host. -/

/-- The end of a wait, whatever it answers and leaves on the counter, is such a step. -/
theorem Draining.endWait (h : Draining s) (hw : (s.pin p).waiting = true) (left : Word) (w : Quad) :
    Draining ((s.setPin p { s.pin p with waiting := false, waitLeft := left }).respond w) ∧
      ((s.setPin p { s.pin p with waiting := false, waitLeft := left }).respond w).stepsLeft < s.stepsLeft :=
  ⟨⟨s.pinsWf_setPin p _ h.pinsWf, h.agenda, h.issued⟩,
    Nat.add_lt_add_left (State.waitSteps_setPin_lt (Pin.waitSteps_endWait_lt hw left)) _⟩

theorem Draining.completeOk (h : Draining s) (hready : (s.pin p).okReady = true) : Drains (.completeOk p) s :=
  ⟨_, whenEnabled_of_true _ _ hready, h.endWait (Pin.okReady_iff.1 hready).1 0 _⟩

theorem Draining.completeTimeout (h : Draining s) (hready : (s.pin p).timeoutReady = true) :
    Drains (.completeTimeout p) s :=
  ⟨_, whenEnabled_of_true _ _ hready, h.endWait (Pin.timeoutReady_iff.1 hready).1 (s.pin p).waitLeft _⟩

/-- A delivery takes an entry off CBQ; the PENDING it clears has no part in the measure. -/
theorem Draining.deliver (h : Draining s) (hq : s.cbq ≠ []) : Drains .deliver s := by
  obtain ⟨p, rest, hcbq⟩ := List.exists_cons_of_ne_nil hq
  refine ⟨_, deliver_of_cons hcbq, ⟨s.pinsWf_setPin p _ h.pinsWf, h.agenda, h.issued⟩, ?_⟩
  have hlen : rest.length < s.cbq.length := by rw [hcbq]; exact Nat.lt_succ_self _
  exact Nat.add_lt_add_of_lt_of_le hlen
    (State.waitSteps_setPin_le (r := { s.pin p with pending := false }) (Nat.le_refl _))

theorem Draining.tick (h : Draining s) (hrun : (s.pins.any fun c => c.2.running) = true) : Drains .tick s := by
  obtain ⟨p, hp⟩ := (s.any_running h.pinsWf).1 hrun
  exact ⟨s.afterTick, whenEnabled_of_true _ _ hrun, ⟨s.pinsWf_afterTick h.pinsWf, h.agenda, h.issued⟩,
    Nat.add_lt_add_left (State.waitSteps_afterTick_lt hp) _⟩

/-! The default order. -/

/-- A pin that waits has a counter that runs or one that is at 0. -/
theorem Pin.not_waiting (hready : r.timeoutReady = false) (hrun : r.running = false) : r.waiting = false := by
  rw [Bool.eq_false_iff] at hready hrun ⊢
  by_cases hleft : r.waitLeft = 0
  · exact fun hw => hready (Pin.timeoutReady_iff.2 ⟨hw, hleft⟩)
  · exact fun hw => hrun (Pin.running_iff.2 ⟨hw, hleft⟩)

/-- Without a command left, the default order names a step that drains the run, or the run has ended. -/
theorem Draining.defaultAgent (h : Draining s) :
    (∃ a, s.defaultAgent = some a ∧ Drains a s) ∨ Ended s := by
  unfold State.defaultAgent
  rw [if_neg (Nat.not_lt.2 h.issued)]
  split
  next p hp => exact .inl ⟨_, rfl, h.completeOk (s.findPin_some hp)⟩
  split
  next hq => exact .inl ⟨_, rfl, h.deliver hq⟩
  next hq =>
    split
    next p hp => exact .inl ⟨_, rfl, h.completeTimeout (s.findPin_some hp)⟩
    next hexpired =>
      split
      next hrun => exact .inl ⟨_, rfl, h.tick hrun⟩
      next hrun =>
        have hstill (p : Byte) : (s.pin p).running = false :=
          Bool.eq_false_iff.2 fun hp => hrun ((s.any_running h.pinsWf).2 ⟨p, hp⟩)
        exact .inr ⟨h.issued, not_not.1 hq, fun p => Pin.not_waiting (s.findPin_none rfl hexpired p) (hstill p)⟩

/-- A run from the state after a step is a run of one step more. -/
theorem run_succ_of_step {t : State} (h : step s = .next t) (n : Nat) :
    Sys2Proof.core.run (n + 1) s = Sys2Proof.core.run n t := by
  have hcore : Sys2Proof.core.step s = .next t := h
  simp only [Host.Core.run, hcore]

/-- A draining run ends, by induction on its measure. -/
theorem Draining.ends {s : State} (h : Draining s) : ∃ n t, Sys2Proof.core.run n s = .next t ∧ Ended t := by
  rcases h.defaultAgent with ⟨a, ha, t, hrun, ht, hlt⟩ | hended
  · have hstep : step s = .next t := (step_of_defaultAgent h.agenda ha).trans hrun
    obtain ⟨n, u, hrest, hu⟩ := ht.ends
    exact ⟨n + 1, u, (run_succ_of_step hstep n).trans hrest, hu⟩
  · exact ⟨0, s, rfl, hended⟩
termination_by s.stepsLeft

end Draining

/-- Settles O60: a state with no command left is the start of a draining run. -/
theorem defaultScheduleEndsTheRun : Obligations.DefaultScheduleEndsTheRun :=
  fun _ hwf hagenda hissued => Draining.ends ⟨hwf, hagenda, hissued⟩

end Sys2Proof.Machine

/-! ### O4: the words written out in the spec (`30_encoding.md` R100, `95_test_vectors.md` V1) -/

namespace Sys2Proof.Machine

theorem decodeWord_of_encode_eq {i : Instr} {w : Quad} (hwf : i.wf = true) (h : encode i = w) : decodeWord w = some i :=
  h ▸ decodeWord_encode hwf

theorem decodeWord_of_reservedOperand {w : Quad} (h : reservedOperand w) : decodeWord w = none :=
  (decoderRejectsExactlyTheIllegalWords w).2 (.inr (.inr h))

/-- Settles O4: six words are their instruction's encoding, and the other three have LEN = 0, PULL = 3 and a tag without
CBV. -/
theorem workedEncodingsDecode : Obligations.WorkedEncodingsDecode := by
  have hlen : reservedOperand 0x1900500F00000000 := .inl (by decide)
  have hpull : reservedOperand 0x200D040000000000 := .inr (.inl (by decide))
  have htag : reservedOperand 0x2401042100000000 := .inr (.inr (.inr (by decide)))
  refine ⟨?_, ?_, ?_, ?_, ?_, ?_, decodeWord_of_reservedOperand hlen, decodeWord_of_reservedOperand hpull,
    decodeWord_of_reservedOperand htag⟩
  all_goals exact decodeWord_of_encode_eq rfl (by decide)

end Sys2Proof.Machine
